-- ==== Sys2Proof/Word.lean ====
section
/-! DEFINITION. The bit-vector widths of the block: bytes, 16-bit words, and the fields of an
instruction word (spec/00_scope.md R8, spec/10_state.md R21, R24, R26, spec/30_encoding.md R92). -/

namespace Sys2Proof

/-- An unsigned 8-bit value (`u8`): a memory cell, a general register (R8, R21, R60). -/
abbrev Byte := BitVec 8

/-- An instruction word: 16 bits (R8, R90). -/
abbrev Word := BitVec 16

/-- The 12-bit address field `NNN` of an instruction word (R92). -/
abbrev Addr12 := BitVec 12

/-- The 4-bit field `N` of an instruction word: the row count of DXYN, the sub-code of group 8 (R92). -/
abbrev Nibble := BitVec 4

/-- The number of a general register, as a 4-bit field `X` or `Y` of an instruction word gives it: `V0`
to `VF` (R21, R92). -/
abbrev RegIdx := Fin 16

end Sys2Proof
end

