-- ==== Sys2Proof/Syntax.lean ====
section
/-! DEFINITION. The instructions: one constructor per row of spec/opcode_table.json, in the table's
order, each with the fields that spec/30_encoding.md R103 lists for its class. -/

namespace Sys2Proof

/-- The decoded instruction: "a tagged instruction value carrying the opcode class and pre-extracted
operand fields" (R102). Fields that a class encodes but does not read (Y in 8XY6 and 8XYE, N in 5XYN
and 9XYN, every field of a no-op) are kept, so that an instruction determines its word. -/
inductive Instr where
  /-- 00E0, `CLS` (R231). -/
  | cls
  /-- 00EE, `RET` (R141). -/
  | ret
  /-- 0NNN, `SYS addr`: the recognized-group no-op of group 0 (R95, R130). -/
  | sys (nnn : Addr12)
  /-- 1NNN, `JP addr` (R142). -/
  | jp (nnn : Addr12)
  /-- 2NNN, `CALL addr` (R143). -/
  | call (nnn : Addr12)
  /-- 3XNN, `SE Vx, byte` (R144). -/
  | seByte (x : RegIdx) (nn : Byte)
  /-- 4XNN, `SNE Vx, byte` (R145). -/
  | sneByte (x : RegIdx) (nn : Byte)
  /-- 5XY0, `SE Vx, Vy`; `n` is the low nibble, which the parameter `SKIP_NIBBLE` governs (R97, R146). -/
  | seReg (x y : RegIdx) (n : Nibble)
  /-- 6XNN, `LD Vx, byte` (R172). -/
  | ldByte (x : RegIdx) (nn : Byte)
  /-- 7XNN, `ADD Vx, byte` (R173). -/
  | addByte (x : RegIdx) (nn : Byte)
  /-- 8XY0, `LD Vx, Vy` (R174). -/
  | ldReg (x y : RegIdx)
  /-- 8XY1, `OR Vx, Vy` (R175). -/
  | orReg (x y : RegIdx)
  /-- 8XY2, `AND Vx, Vy` (R176). -/
  | andReg (x y : RegIdx)
  /-- 8XY3, `XOR Vx, Vy` (R177). -/
  | xorReg (x y : RegIdx)
  /-- 8XY4, `ADD Vx, Vy` (R178). -/
  | addReg (x y : RegIdx)
  /-- 8XY5, `SUB Vx, Vy` (R179). -/
  | subReg (x y : RegIdx)
  /-- 8XY6, `SHR Vx, Vy`; `y` is encoded and not read (R180). -/
  | shrReg (x y : RegIdx)
  /-- 8XY7, `SUBN Vx, Vy` (R181). -/
  | subnReg (x y : RegIdx)
  /-- 8XYE, `SHL Vx, Vy`; `y` is encoded and not read (R182). -/
  | shlReg (x y : RegIdx)
  /-- 8XY? with N in 8, 9, A, B, C, D, F: the recognized-group no-op of group 8 (R98, R130, R191). -/
  | noopGroup8 (x y : RegIdx) (n : Nibble)
  /-- 9XY0, `SNE Vx, Vy`; `n` as for 5XY0 (R97, R147). -/
  | sneReg (x y : RegIdx) (n : Nibble)
  /-- ANNN, `LD I, addr` (R201). -/
  | ldI (nnn : Addr12)
  /-- BNNN, `JP V0, addr` (R148). -/
  | jpV0 (nnn : Addr12)
  /-- CXNN, `RND Vx, byte` (R190). -/
  | rnd (x : RegIdx) (nn : Byte)
  /-- DXYN, `DRW Vx, Vy, nibble` (R232). -/
  | drw (x y : RegIdx) (n : Nibble)
  /-- EX9E, `SKP Vx` (R251). -/
  | skp (x : RegIdx)
  /-- EXA1, `SKNP Vx` (R252). -/
  | sknp (x : RegIdx)
  /-- EX?? with any other NN: the recognized-group no-op of group E (R99, R130). -/
  | noopGroupE (x : RegIdx) (nn : Byte)
  /-- FX07, `LD Vx, DT` (R253). -/
  | ldVxDt (x : RegIdx)
  /-- FX0A, `LD Vx, K` (R254). -/
  | ldVxK (x : RegIdx)
  /-- FX15, `LD DT, Vx` (R255). -/
  | ldDtVx (x : RegIdx)
  /-- FX18, `LD ST, Vx` (R256). -/
  | ldStVx (x : RegIdx)
  /-- FX1E, `ADD I, Vx` (R202). -/
  | addI (x : RegIdx)
  /-- FX29, `LD F, Vx` (R203). -/
  | ldF (x : RegIdx)
  /-- FX33, `LD B, Vx` (R204). -/
  | ldB (x : RegIdx)
  /-- FX55, `LD [I], Vx` (R205). -/
  | storeRegs (x : RegIdx)
  /-- FX65, `LD Vx, [I]` (R206). -/
  | loadRegs (x : RegIdx)
  /-- FX?? with any other NN: the recognized-group no-op of group F (R100, R130). -/
  | noopGroupF (x : RegIdx) (nn : Byte)
  deriving DecidableEq, Repr

/-- The instruction's mnemonic as spec/opcode_table.json spells it (a label only, R10, R110). -/
def Instr.mnemonic : Instr → String
  | .cls => "CLS"
  | .ret => "RET"
  | .sys _ => "SYS_addr"
  | .jp _ => "JP_addr"
  | .call _ => "CALL_addr"
  | .seByte _ _ => "SE_Vx__byte"
  | .sneByte _ _ => "SNE_Vx__byte"
  | .seReg _ _ _ => "SE_Vx__Vy"
  | .ldByte _ _ => "LD_Vx__byte"
  | .addByte _ _ => "ADD_Vx__byte"
  | .ldReg _ _ => "LD_Vx__Vy"
  | .orReg _ _ => "OR_Vx__Vy"
  | .andReg _ _ => "AND_Vx__Vy"
  | .xorReg _ _ => "XOR_Vx__Vy"
  | .addReg _ _ => "ADD_Vx__Vy"
  | .subReg _ _ => "SUB_Vx__Vy"
  | .shrReg _ _ => "SHR_Vx__Vy"
  | .subnReg _ _ => "SUBN_Vx__Vy"
  | .shlReg _ _ => "SHL_Vx__Vy"
  | .noopGroup8 _ _ _ => "no-op__group_8"
  | .sneReg _ _ _ => "SNE_Vx__Vy"
  | .ldI _ => "LD_I__addr"
  | .jpV0 _ => "JP_V0__addr"
  | .rnd _ _ => "RND_Vx__byte"
  | .drw _ _ _ => "DRW_Vx__Vy__nibble"
  | .skp _ => "SKP_Vx"
  | .sknp _ => "SKNP_Vx"
  | .noopGroupE _ _ => "no-op__group_E"
  | .ldVxDt _ => "LD_Vx__DT"
  | .ldVxK _ => "LD_Vx__K"
  | .ldDtVx _ => "LD_DT__Vx"
  | .ldStVx _ => "LD_ST__Vx"
  | .addI _ => "ADD_I__Vx"
  | .ldF _ => "LD_F__Vx"
  | .ldB _ => "LD_B__Vx"
  | .storeRegs _ => "LD__I___Vx"
  | .loadRegs _ => "LD_Vx___I"
  | .noopGroupF _ _ => "no-op__group_F"

end Sys2Proof
end

