-- ==== Sys2Proof/WellFormed.lean ====
section
/-! DEFINITION. Which instruction values stand for a word: a no-op carries the fields of its word, and
those fields must not be the ones of a named class of the same group (spec/30_encoding.md R95, R98,
R99, R100, R104). Every other field has the exact range of its type. -/

namespace Sys2Proof

/-- The addresses that make a group-0 word 00E0 or 00EE (R95). -/
def namedGroup0 : List Addr12 := [0x0E0#12, 0x0EE#12]

/-- The sub-codes N of group 8 that name a class (R98). -/
def namedGroup8 : List Nibble := [0x0#4, 0x1#4, 0x2#4, 0x3#4, 0x4#4, 0x5#4, 0x6#4, 0x7#4, 0xE#4]

/-- The sub-codes NN of group E that name a class (R99). -/
def namedGroupE : List Byte := [0x9E#8, 0xA1#8]

/-- The sub-codes NN of group F that name a class (R100). -/
def namedGroupF : List Byte :=
  [0x07#8, 0x0A#8, 0x15#8, 0x18#8, 0x1E#8, 0x29#8, 0x33#8, 0x55#8, 0x65#8]

/-- An instruction value is well formed when it is the decoding of some word. -/
def Instr.wf : Instr → Bool
  | .sys nnn => !namedGroup0.contains nnn
  | .noopGroup8 _ _ n => !namedGroup8.contains n
  | .noopGroupE _ nn => !namedGroupE.contains nn
  | .noopGroupF _ nn => !namedGroupF.contains nn
  | .cls | .ret | .jp _ | .call _ | .seByte _ _ | .sneByte _ _ | .seReg _ _ _ | .ldByte _ _
  | .addByte _ _ | .ldReg _ _ | .orReg _ _ | .andReg _ _ | .xorReg _ _ | .addReg _ _ | .subReg _ _
  | .shrReg _ _ | .subnReg _ _ | .shlReg _ _ | .sneReg _ _ _ | .ldI _ | .jpV0 _ | .rnd _ _
  | .drw _ _ _ | .skp _ | .sknp _ | .ldVxDt _ | .ldVxK _ | .ldDtVx _ | .ldStVx _ | .addI _
  | .ldF _ | .ldB _ | .storeRegs _ | .loadRegs _ => true

end Sys2Proof
end

