-- ==== Sys2Proof/Decode.lean ====
section
/-! DEFINITION. Decoding and encoding (spec/30_encoding.md). Decoding is total on the 65536 words and
never fails (R94, R101); on bytes it refuses, by name, only a sequence too short to hold a word. -/

namespace Sys2Proof

/-! ## Fields of the instruction word (R91, R92) -/

/-- `T`, bits 15..12: the top nibble, which selects the group. -/
def topNibble (w : Word) : Nibble := w.extractLsb' 12 4

/-- `X`, bits 11..8. -/
def fieldX (w : Word) : RegIdx := ⟨(w.extractLsb' 8 4).toNat, BitVec.isLt _⟩

/-- `Y`, bits 7..4. -/
def fieldY (w : Word) : RegIdx := ⟨(w.extractLsb' 4 4).toNat, BitVec.isLt _⟩

/-- `N`, bits 3..0. -/
def fieldN (w : Word) : Nibble := w.extractLsb' 0 4

/-- `NN`, bits 7..0. -/
def fieldNN (w : Word) : Byte := w.extractLsb' 0 8

/-- `NNN`, bits 11..0. -/
def fieldNNN (w : Word) : Addr12 := w.extractLsb' 0 12

/-! ## Decoding -/

/-- Group 0: 00E0 and 00EE match on the whole word, every other word is the no-op (R95). -/
def decodeGroup0 (w : Word) : Instr :=
  if w = 0x00E0#16 then .cls
  else if w = 0x00EE#16 then .ret
  else .sys (fieldNNN w)

/-- Group 8 decodes on N (R98). -/
def decodeGroup8 (x y : RegIdx) (n : Nibble) : Instr :=
  match n.toNat with
  | 0x0 => .ldReg x y
  | 0x1 => .orReg x y
  | 0x2 => .andReg x y
  | 0x3 => .xorReg x y
  | 0x4 => .addReg x y
  | 0x5 => .subReg x y
  | 0x6 => .shrReg x y
  | 0x7 => .subnReg x y
  | 0xE => .shlReg x y
  | _ => .noopGroup8 x y n

/-- Group E decodes on NN (R99). -/
def decodeGroupE (x : RegIdx) (nn : Byte) : Instr :=
  match nn.toNat with
  | 0x9E => .skp x
  | 0xA1 => .sknp x
  | _ => .noopGroupE x nn

/-- Group F decodes on NN (R100). -/
def decodeGroupF (x : RegIdx) (nn : Byte) : Instr :=
  match nn.toNat with
  | 0x07 => .ldVxDt x
  | 0x0A => .ldVxK x
  | 0x15 => .ldDtVx x
  | 0x18 => .ldStVx x
  | 0x1E => .addI x
  | 0x29 => .ldF x
  | 0x33 => .ldB x
  | 0x55 => .storeRegs x
  | 0x65 => .loadRegs x
  | _ => .noopGroupF x nn

/-- `Decode(w)`: the class of a word and its fields (R94–R102). A 4-bit number has the sixteen values
0x0 to 0xF, so the last arm is group F and there is no unrecognized top nibble (R101). -/
def decode (w : Word) : Instr :=
  match (topNibble w).toNat with
  | 0x0 => decodeGroup0 w
  | 0x1 => .jp (fieldNNN w)
  | 0x2 => .call (fieldNNN w)
  | 0x3 => .seByte (fieldX w) (fieldNN w)
  | 0x4 => .sneByte (fieldX w) (fieldNN w)
  | 0x5 => .seReg (fieldX w) (fieldY w) (fieldN w)
  | 0x6 => .ldByte (fieldX w) (fieldNN w)
  | 0x7 => .addByte (fieldX w) (fieldNN w)
  | 0x8 => decodeGroup8 (fieldX w) (fieldY w) (fieldN w)
  | 0x9 => .sneReg (fieldX w) (fieldY w) (fieldN w)
  | 0xA => .ldI (fieldNNN w)
  | 0xB => .jpV0 (fieldNNN w)
  | 0xC => .rnd (fieldX w) (fieldNN w)
  | 0xD => .drw (fieldX w) (fieldY w) (fieldN w)
  | 0xE => decodeGroupE (fieldX w) (fieldNN w)
  | _ => decodeGroupF (fieldX w) (fieldNN w)

/-- The word of two bytes in address order: the first is bits 15..8 (big-endian, R65, R66). -/
def wordOfBytes (hi lo : Byte) : Word := BitVec.ofNat 16 (hi.toNat * 256 + lo.toNat)

/-- The byte of a word at the lower address, bits 15..8 (R65). -/
def highByte (w : Word) : Byte := w.extractLsb' 8 8

/-- The byte of a word at the higher address, bits 7..0 (R65). -/
def lowByte (w : Word) : Byte := w.extractLsb' 0 8

/-- Why bytes hold no instruction: a sequence of fewer than two bytes holds no word (R90). -/
inductive DecodeError where
  | truncated
  deriving DecidableEq, Repr

/-- The instruction at the front of a sequence of bytes, and the bytes after it (R90, R66). -/
def decodeBytes : List Byte → Except DecodeError (Instr × List Byte)
  | hi :: lo :: rest => .ok (decode (wordOfBytes hi lo), rest)
  | [_] | [] => .error .truncated

/-! ## Encoding (R91, R103) -/

/-- A word of the `T NNN` view. -/
def packNNN (t : Nat) (nnn : Addr12) : Word := BitVec.ofNat 16 (t * 4096 + nnn.toNat)

/-- A word of the `T X NN` view. -/
def packXNN (t : Nat) (x : RegIdx) (nn : Byte) : Word :=
  BitVec.ofNat 16 (t * 4096 + x.val * 256 + nn.toNat)

/-- A word of the `T X Y N` view. -/
def packXYN (t : Nat) (x y : RegIdx) (n : Nibble) : Word :=
  BitVec.ofNat 16 (t * 4096 + x.val * 256 + y.val * 16 + n.toNat)

/-- The word of an instruction, from the rows of the opcode map (R103). -/
def encode : Instr → Word
  | .cls => 0x00E0#16
  | .ret => 0x00EE#16
  | .sys nnn => packNNN 0x0 nnn
  | .jp nnn => packNNN 0x1 nnn
  | .call nnn => packNNN 0x2 nnn
  | .seByte x nn => packXNN 0x3 x nn
  | .sneByte x nn => packXNN 0x4 x nn
  | .seReg x y n => packXYN 0x5 x y n
  | .ldByte x nn => packXNN 0x6 x nn
  | .addByte x nn => packXNN 0x7 x nn
  | .ldReg x y => packXYN 0x8 x y 0x0#4
  | .orReg x y => packXYN 0x8 x y 0x1#4
  | .andReg x y => packXYN 0x8 x y 0x2#4
  | .xorReg x y => packXYN 0x8 x y 0x3#4
  | .addReg x y => packXYN 0x8 x y 0x4#4
  | .subReg x y => packXYN 0x8 x y 0x5#4
  | .shrReg x y => packXYN 0x8 x y 0x6#4
  | .subnReg x y => packXYN 0x8 x y 0x7#4
  | .shlReg x y => packXYN 0x8 x y 0xE#4
  | .noopGroup8 x y n => packXYN 0x8 x y n
  | .sneReg x y n => packXYN 0x9 x y n
  | .ldI nnn => packNNN 0xA nnn
  | .jpV0 nnn => packNNN 0xB nnn
  | .rnd x nn => packXNN 0xC x nn
  | .drw x y n => packXYN 0xD x y n
  | .skp x => packXNN 0xE x 0x9E#8
  | .sknp x => packXNN 0xE x 0xA1#8
  | .noopGroupE x nn => packXNN 0xE x nn
  | .ldVxDt x => packXNN 0xF x 0x07#8
  | .ldVxK x => packXNN 0xF x 0x0A#8
  | .ldDtVx x => packXNN 0xF x 0x15#8
  | .ldStVx x => packXNN 0xF x 0x18#8
  | .addI x => packXNN 0xF x 0x1E#8
  | .ldF x => packXNN 0xF x 0x29#8
  | .ldB x => packXNN 0xF x 0x33#8
  | .storeRegs x => packXNN 0xF x 0x55#8
  | .loadRegs x => packXNN 0xF x 0x65#8
  | .noopGroupF x nn => packXNN 0xF x nn

/-- The bytes of an instruction in address order (R65, R66). -/
def encodeBytes (i : Instr) : List Byte := [highByte (encode i), lowByte (encode i)]

/-- The instruction the decoder reads from a word whose bits are `w` numbered from bit 0, of which the
opcode table gives the lowest `nbits` (the others are 0): its bytes as memory holds them, decoded. -/
def decodeTableWord (nbits w : Nat) : Option Instr :=
  let word : Word := BitVec.ofNat 16 (w % 2 ^ nbits)
  match decodeBytes [highByte word, lowByte word] with
  | .ok (i, _) => some i
  | .error _ => none

/-! ## The opcode map as data (R103) -/

/-- One row of the opcode map: a mask, the values the masked word may have, and the words excepted. -/
structure OpcodeRow where
  mnemonic : String
  mask : Word
  values : List Word
  except : List Word
  deriving DecidableEq, Repr

/-- Whether a word fits a row: "(w AND mask) = match" and it hits no exception (R103). -/
def rowCovers (row : OpcodeRow) (w : Word) : Bool :=
  row.values.contains (w &&& row.mask) && !row.except.contains w

/-- Rows 0 to 9 of the opcode map, at `SKIP_NIBBLE = Ignore` (R103). -/
def opcodeMapGroups0to7 : List OpcodeRow :=
  [⟨"CLS", 0xFFFF#16, [0x00E0#16], []⟩,
   ⟨"RET", 0xFFFF#16, [0x00EE#16], []⟩,
   ⟨"SYS_addr", 0xF000#16, [0x0000#16], [0x00E0#16, 0x00EE#16]⟩,
   ⟨"JP_addr", 0xF000#16, [0x1000#16], []⟩,
   ⟨"CALL_addr", 0xF000#16, [0x2000#16], []⟩,
   ⟨"SE_Vx__byte", 0xF000#16, [0x3000#16], []⟩,
   ⟨"SNE_Vx__byte", 0xF000#16, [0x4000#16], []⟩,
   ⟨"SE_Vx__Vy", 0xF000#16, [0x5000#16], []⟩,
   ⟨"LD_Vx__byte", 0xF000#16, [0x6000#16], []⟩,
   ⟨"ADD_Vx__byte", 0xF000#16, [0x7000#16], []⟩]

/-- The rows of group 8. -/
def opcodeMapGroup8 : List OpcodeRow :=
  [⟨"LD_Vx__Vy", 0xF00F#16, [0x8000#16], []⟩,
   ⟨"OR_Vx__Vy", 0xF00F#16, [0x8001#16], []⟩,
   ⟨"AND_Vx__Vy", 0xF00F#16, [0x8002#16], []⟩,
   ⟨"XOR_Vx__Vy", 0xF00F#16, [0x8003#16], []⟩,
   ⟨"ADD_Vx__Vy", 0xF00F#16, [0x8004#16], []⟩,
   ⟨"SUB_Vx__Vy", 0xF00F#16, [0x8005#16], []⟩,
   ⟨"SHR_Vx__Vy", 0xF00F#16, [0x8006#16], []⟩,
   ⟨"SUBN_Vx__Vy", 0xF00F#16, [0x8007#16], []⟩,
   ⟨"SHL_Vx__Vy", 0xF00F#16, [0x800E#16], []⟩,
   ⟨"no-op__group_8", 0xF00F#16,
     [0x8008#16, 0x8009#16, 0x800A#16, 0x800B#16, 0x800C#16, 0x800D#16, 0x800F#16], []⟩]

/-- The rows of groups 9 to E. -/
def opcodeMapGroups9toE : List OpcodeRow :=
  [⟨"SNE_Vx__Vy", 0xF000#16, [0x9000#16], []⟩,
   ⟨"LD_I__addr", 0xF000#16, [0xA000#16], []⟩,
   ⟨"JP_V0__addr", 0xF000#16, [0xB000#16], []⟩,
   ⟨"RND_Vx__byte", 0xF000#16, [0xC000#16], []⟩,
   ⟨"DRW_Vx__Vy__nibble", 0xF000#16, [0xD000#16], []⟩,
   ⟨"SKP_Vx", 0xF0FF#16, [0xE09E#16], []⟩,
   ⟨"SKNP_Vx", 0xF0FF#16, [0xE0A1#16], []⟩,
   ⟨"no-op__group_E", 0xF000#16, [0xE000#16], []⟩]

/-- The rows of group F. -/
def opcodeMapGroupF : List OpcodeRow :=
  [⟨"LD_Vx__DT", 0xF0FF#16, [0xF007#16], []⟩,
   ⟨"LD_Vx__K", 0xF0FF#16, [0xF00A#16], []⟩,
   ⟨"LD_DT__Vx", 0xF0FF#16, [0xF015#16], []⟩,
   ⟨"LD_ST__Vx", 0xF0FF#16, [0xF018#16], []⟩,
   ⟨"ADD_I__Vx", 0xF0FF#16, [0xF01E#16], []⟩,
   ⟨"LD_F__Vx", 0xF0FF#16, [0xF029#16], []⟩,
   ⟨"LD_B__Vx", 0xF0FF#16, [0xF033#16], []⟩,
   ⟨"LD__I___Vx", 0xF0FF#16, [0xF055#16], []⟩,
   ⟨"LD_Vx___I", 0xF0FF#16, [0xF065#16], []⟩,
   ⟨"no-op__group_F", 0xF000#16, [0xF000#16], []⟩]

/-- The opcode map, in the order of R103: a word belongs to the first row that it fits. -/
def opcodeMap : List OpcodeRow :=
  opcodeMapGroups0to7 ++ opcodeMapGroup8 ++ opcodeMapGroups9toE ++ opcodeMapGroupF

end Sys2Proof
end

