-- ==== Sys2Proof/Config.lean ====
section
/-! DEFINITION. What is fixed for one machine: the named parameters of spec/00_scope.md R6, the sizes
and the choices, each with its default, and the one free value, the random byte of CXNN. -/

namespace Sys2Proof

/-! ## The sizes of the block (R6) -/

/-- The sizes that R6 names, each with the value it gives as the default: "A model takes each named
parameter as an argument whose default is the value given". State carries them in its parameters, and
every operation reads them there. -/
structure Config.Sizes where
  /-- `MEM_SIZE`: memory has the addresses 0 to `MEM_SIZE - 1` (R60). -/
  memSize : Nat := 4096
  /-- `FONT_BASE`: the first address of the font table (R62). -/
  fontBase : Nat := 0x000
  /-- `FONT_END`: the last address of the font table, 16 glyphs of 5 bytes (R62, R63). -/
  fontEnd : Nat := 0x04F
  /-- `PROGRAM_BASE`: where `load` puts a program image (R303). -/
  programBase : Nat := 0x200
  /-- `PROGRAM_MAX`: the longest program image, 4096 − 512 bytes (R304). -/
  programMax : Nat := 3584
  /-- `NREGS`: how many general registers there are, of 8 bits each (R21). -/
  nregs : Nat := 16
  /-- `I_WIDTH`, in bits (R24). -/
  iWidth : Nat := 16
  /-- `PC_WIDTH`, in bits: of `PC` and of the stack's entries (R26, R30). -/
  pcWidth : Nat := 16
  /-- `PC_RESET`: the entry point (R26, R49, R306). -/
  pcReset : Nat := 0x200
  /-- `DISPLAY_W`: the columns of the display (R39). -/
  displayW : Nat := 64
  /-- `DISPLAY_H`: the rows of the display (R39). -/
  displayH : Nat := 32
  /-- `NKEYS`: how many keys there are (R41). -/
  nkeys : Nat := 16
  /-- `TIMER_WIDTH`, in bits: of each of the two timers (R36, R37). -/
  timerWidth : Nat := 8
  deriving DecidableEq, Repr

/-- The sizes of this hardware: each at the value that R6 gives. -/
def Config.nea : Config.Sizes := {}

/-- The number of cells of the display (R39). -/
def Config.Sizes.cells (z : Config.Sizes) : Nat := z.displayW * z.displayH

/-! ## The parameters with alternatives (R6) -/

/-- `VF_ORDER`: how a flag-setting instruction orders its two writes when X or Y is F
(spec/42_alu.md R171). -/
inductive Config.VfOrder where
  | sequential   -- the flag is written first, the result reads the registers as that write left them
  | flagLast     -- result and flag are computed from the old registers, and the flag is written last
  deriving DecidableEq, Repr

/-- `KEY_WAIT`: what FX0A does when no key is pressed (spec/45_keys_timers.md R254). -/
inductive Config.KeyWait where
  | reference    -- execution falls through to the next instruction
  | blocking     -- the same instruction is fetched again
  deriving DecidableEq, Repr

/-- `SPRITE_EDGE`: what DXYN does with pixels beyond the grid (spec/44_display.md R233, R234). -/
inductive Config.SpriteEdge where
  | clip         -- such a pixel is not drawn and cannot collide
  | linearSpill  -- the row-major cell index is used as it stands, and an index of 2048 or more faults
  deriving DecidableEq, Repr

/-- `FONT_WRITE`: what a store into 0x000–0x04F does (spec/20_memory.md R70). -/
inductive Config.FontWrite where
  | store        -- the cell is written like any other
  | fault        -- the store raises AddressOutOfRange
  deriving DecidableEq, Repr

/-- `SKIP_NIBBLE`: whether groups 5 and 9 look at the low nibble (spec/30_encoding.md R97). -/
inductive Config.SkipNibble where
  | ignore       -- the nibble is not looked at
  | noOp         -- a word with a nonzero nibble is a no-op
  deriving DecidableEq, Repr

/-- The named parameters of the block (R6): "A model takes each named parameter as an argument". State
carries one such record, which no step and no host operation changes, so that a statement about every
state is a statement about every choice of parameters. -/
structure Config.Params where
  /-- The sizes: `MEM_SIZE`, `FONT_BASE`, `FONT_END`, `PROGRAM_BASE`, `PROGRAM_MAX`, `NREGS`, `I_WIDTH`,
  `PC_WIDTH`, `PC_RESET`, `DISPLAY_W`, `DISPLAY_H`, `NKEYS`, `TIMER_WIDTH`. -/
  sizes : Config.Sizes := Config.nea
  /-- `VF_ORDER`. -/
  vfOrder : Config.VfOrder := .sequential
  /-- `KEY_WAIT`. -/
  keyWait : Config.KeyWait := .reference
  /-- `SPRITE_EDGE`. -/
  spriteEdge : Config.SpriteEdge := .clip
  /-- `FONT_WRITE`. -/
  fontWrite : Config.FontWrite := .store
  /-- `SKIP_NIBBLE`. -/
  skipNibble : Config.SkipNibble := .ignore
  /-- `STACK_CAPACITY`, in entries. -/
  stackCapacity : Nat := 16
  /-- `FONT`: the bytes that `reset` installs at `FONT_BASE` to `FONT_END`. -/
  font : List Byte
  deriving DecidableEq, Repr

/-- Sizes that fit one another: the font table and the program area lie in memory, `PC` can hold its
reset value, every 4-bit register field names a register (R92), and the display has a cell (log entry 13). -/
def Config.Sizes.wf (z : Config.Sizes) : Bool :=
  z.fontBase ≤ z.fontEnd && z.fontEnd < z.memSize && z.programBase + z.programMax ≤ z.memSize &&
  z.pcReset < 2 ^ z.pcWidth && 16 ≤ z.nregs && 0 < z.displayW && 0 < z.displayH

/-- Parameters that fit one another: the sizes do, the font fills its table (R62), and a stack capacity
is at least 1 (spec/92_eei_decisions.md D33, spec/91_not_in_source.md N24). -/
def Config.Params.wf (p : Config.Params) : Bool :=
  p.sizes.wf && p.font.length = p.sizes.fontEnd + 1 - p.sizes.fontBase && 1 ≤ p.stackCapacity

/-- The random source `RNG`, which the spec leaves OPEN (R6, R45, R190, D16): the byte that the draw
with this number supplies. It has no body, so that nothing can be proved about its values. -/
opaque Config.draw : Nat → Byte

end Sys2Proof
end

