-- ==== Sys2Proof/Machine/Defaults.lean ====
section
/-! DEFINITION. The values that the parameters of the block take when nothing else is said
(spec/00_scope.md R6). -/

namespace Sys2Proof.Machine

/-- The glyphs of the digits 0 to 7, five bytes each, top row first (spec/20_memory.md R64). -/
def fontDigits0to7 : List Byte :=
  [0xF0#8, 0x90#8, 0x90#8, 0x90#8, 0xF0#8,
   0x20#8, 0x60#8, 0x20#8, 0x20#8, 0x70#8,
   0xF0#8, 0x10#8, 0xF0#8, 0x80#8, 0xF0#8,
   0xF0#8, 0x10#8, 0xF0#8, 0x10#8, 0xF0#8,
   0x90#8, 0x90#8, 0xF0#8, 0x10#8, 0x10#8,
   0xF0#8, 0x80#8, 0xF0#8, 0x10#8, 0xF0#8,
   0xF0#8, 0x80#8, 0xF0#8, 0x90#8, 0xF0#8,
   0xF0#8, 0x10#8, 0x20#8, 0x40#8, 0x40#8]

/-- The glyphs of the digits 8 to F (R64). -/
def fontDigits8toF : List Byte :=
  [0xF0#8, 0x90#8, 0xF0#8, 0x90#8, 0xF0#8,
   0xF0#8, 0x90#8, 0xF0#8, 0x10#8, 0xF0#8,
   0xF0#8, 0x90#8, 0xF0#8, 0x90#8, 0x90#8,
   0xE0#8, 0x90#8, 0xE0#8, 0x90#8, 0xE0#8,
   0xF0#8, 0x80#8, 0x80#8, 0x80#8, 0xF0#8,
   0xE0#8, 0x90#8, 0x90#8, 0x90#8, 0xE0#8,
   0xF0#8, 0x80#8, 0xF0#8, 0x80#8, 0xF0#8,
   0xF0#8, 0x80#8, 0xF0#8, 0x80#8, 0x80#8]

/-- The default of `FONT`. PRESUMED, unsafe: the spec supplies these bytes from general knowledge, for
its source does not print them (R64, D17, N2, G1; log entry 6). -/
def fontDefault : List Byte := fontDigits0to7 ++ fontDigits8toF

/-- The parameters at the defaults of R6, the sizes among them (decisions D2, D3, D5, D8, D9, D17, D33;
log entries 1 and 13). -/
def paramsDefault : Config.Params where
  font := fontDefault

end Sys2Proof.Machine
end

