-- ==== Sys2Proof/Machine/State.lean ====
section
/-! DEFINITION. The state of the block (spec/10_state.md R20) as plain data, the reasons a step can
stop, and the state after reset (R49, spec/70_reset_and_hazards.md R300). -/

namespace Sys2Proof.Machine

/-- The fault kinds, in the order of their codes 1 to 7 (spec/60_exceptions.md R271). -/
inductive FaultKind where
  /-- Code 1. No cycle raises it, for every top nibble is recognized (R101, R272). -/
  | unknownInstruction
  /-- Code 2. 2NNN with the stack full (R273). -/
  | stackOverflow
  /-- Code 3. 00EE with the stack empty (R274). -/
  | stackUnderflow
  /-- Code 4. A fetch, or an access of DXYN, FX33, FX55 or FX65, outside memory (R275). -/
  | addressOutOfRange
  /-- Code 5. EX9E or EXA1 with a key number above 15 (R276). -/
  | keyIndexOutOfRange
  /-- Code 6. DXYN under `SPRITE_EDGE = LinearSpill`, past the display buffer (R277). -/
  | displayIndexOutOfRange
  /-- Code 7. `load` of more than 3584 bytes: returned by `load`, and no halt (R278). -/
  | programTooLarge
  deriving DecidableEq, Repr

/-- The register that records whether the core may execute: running, or halted with the kind and the
recorded value of the fault, `none` where R271 records none (R44). -/
inductive Status where
  | running
  | halted (kind : FaultKind) (info : Option Nat)
  deriving DecidableEq, Repr

/-- The reasons a step stops without a next state. -/
inductive Fault where
  /-- Raised by `step` alone, and exactly when `status` is already halted: a cycle requested of a
  halted core "executes nothing, changes no state, and returns" the recorded fault (R121). Safe: the
  spec's cycle stops here too. A cycle that itself raises a fault does not end in this: it takes the
  fault entry of R279, which is a next state (log entry 2). -/
  | halted (kind : FaultKind) (info : Option Nat)
  deriving DecidableEq, Repr

/-- The reasons an instruction is given no meaning. -/
inductive Refusal where
  /-- Raised by no arm of `exec`: every instruction of the opcode table has its meaning. It would be
  raised for an instruction the model leaves out, which is safe. -/
  | notModelled (mnemonic : String)
  deriving DecidableEq, Repr

/-- The state of the block (R20), one home for each piece; `params` is the model's own (log entry 1).
The sizes stand in `params`, so a register whose width is one of them is a number, "an unsigned natural
number" (spec/00_scope.md R8), which its write reduces to that width (log entry 13). -/
structure State where
  /-- The general registers, `NREGS` of them: `V0`–`VF`, of which `VF` is also the flag register
  (R21, R22). -/
  v : List Byte
  /-- The index register `I`, `I_WIDTH` bits, all of them (R24). -/
  i : Nat
  /-- The program counter, `PC_WIDTH` bits (R26). -/
  pc : Nat
  /-- The call stack's entries, `STACK_CAPACITY` of them, as wide as `PC`, entry 0 the oldest (R30). -/
  stack : List Nat
  /-- `SP`, the number of live entries (R31). -/
  sp : Nat
  /-- The delay timer `DT`, `TIMER_WIDTH` bits (R36). -/
  dt : Nat
  /-- The sound timer `ST`, `TIMER_WIDTH` bits (R37). -/
  st : Nat
  /-- Memory: the cells that differ from what reset installs, by rising address (R60, log entry 5). -/
  mem : List Host.Cell
  /-- The display buffer, "a 64×32 grid of 1-bit pixel states": bit k is cell k, and the cell of column
  x and row y is number y * `DISPLAY_W` + x (R39, log entry 14). -/
  disp : Nat
  /-- The key buffer, `NKEYS` cells; true means pressed (R41). -/
  key : List Bool
  /-- The draw flag (R43). -/
  drawFlag : Bool
  /-- Running, or halted with a fault (R44). -/
  status : Status
  /-- The state of the random source: how many draws it has supplied (R45, log entry 4). -/
  rng : Nat
  /-- The parameters of this machine (R6, log entries 1 and 13); nothing changes them. -/
  params : Config.Params
  deriving DecidableEq, Repr

/-- What a step answers. -/
abbrev Outcome := Host.Outcome State Fault Refusal

/-- The state after `reset` of a machine with the parameters `p`, its random source seeded at `seed`
(R49, R300). Memory lists nothing: an unlisted cell reads as what reset installs. -/
def State.resetWith (p : Config.Params) (seed : Nat) : State where
  v := List.replicate p.sizes.nregs 0#8
  i := 0
  pc := p.sizes.pcReset
  stack := List.replicate p.stackCapacity 0
  sp := 0
  dt := 0
  st := 0
  mem := []
  disp := 0
  key := List.replicate p.sizes.nkeys false
  drawFlag := false
  status := .running
  rng := seed
  params := p

/-- The machine right after reset, every parameter at its default. DESIGN CHOICE, unsafe if a
statement rests on it: the seed, which the spec leaves OPEN, is 0 (log entry 4). -/
def State.reset : State := State.resetWith paramsDefault 0

end Sys2Proof.Machine
end

