-- ==== Sys2Proof/Machine/Ops.lean ====
section
/-! DEFINITION. The named operations over the state: registers, memory, the call stack, the display
and key buffers, the fault entry, and the parts of a cycle around the execute step. -/

namespace Sys2Proof.Machine

/-! ## General registers (spec/10_state.md R21) -/

/-- `V[x]`. A register that a machine of fewer than 16 does not have reads as 0 (log entry 13). -/
def State.reg (s : State) (x : RegIdx) : Byte := (s.v[x.val]?).getD 0#8

/-- `V[x] <- b`. A register that a machine of fewer than 16 does not have takes no value (log entry 13). -/
def State.setReg (s : State) (x : RegIdx) (b : Byte) : State := { s with v := s.v.set x.val b }

/-- `VF`, the flag register (R22). -/
def vf : RegIdx := 15

/-! ## Index register, program counter, timers

Each is as wide as its size in R6, and its write keeps the value mod 2 to that width (R8). -/

/-- `I <- n` (R24). -/
def State.setIndex (s : State) (n : Nat) : State := { s with i := n % 2 ^ s.params.sizes.iWidth }

/-- `pc <- target` (R26, R28). -/
def State.setPc (s : State) (target : Nat) : State :=
  { s with pc := target % 2 ^ s.params.sizes.pcWidth }

/-- `DT <- n` (R36). -/
def State.setDt (s : State) (n : Nat) : State := { s with dt := n % 2 ^ s.params.sizes.timerWidth }

/-- `ST <- n` (R37). -/
def State.setSt (s : State) (n : Nat) : State := { s with st := n % 2 ^ s.params.sizes.timerWidth }

/-! ## Memory (spec/20_memory.md R60, R62, R68, R70) -/

/-- What a cell that memory does not list reads as: the contents that reset installs, the font table
at `FONT_BASE` to `FONT_END` and zero elsewhere (R49, R62, R300). -/
def Memory.unlisted (p : Config.Params) (a : Nat) : Byte :=
  if p.sizes.fontBase ≤ a ∧ a ≤ p.sizes.fontEnd then (p.font[a - p.sizes.fontBase]?).getD 0#8 else 0#8

/-- The byte at an address. -/
def Memory.read (p : Config.Params) (m : List Host.Cell) (a : Nat) : Byte :=
  (m.lookup a).getD (Memory.unlisted p a)

/-- The cells with address `a` listed as `b`, in rising order. -/
def Memory.insert : List Host.Cell → Nat → Byte → List Host.Cell
  | [], a, b => [(a, b)]
  | (k, c) :: rest, a, b =>
    if a < k then (a, b) :: (k, c) :: rest
    else if a = k then (a, b) :: rest
    else (k, c) :: Memory.insert rest a b

/-- The cells without address `a`. -/
def Memory.erase : List Host.Cell → Nat → List Host.Cell
  | [], _ => []
  | (k, c) :: rest, a =>
    if a < k then (k, c) :: rest
    else if a = k then rest
    else (k, c) :: Memory.erase rest a

/-- Memory after a byte is stored: a byte equal to what an unlisted cell reads as is not listed. -/
def Memory.write (p : Config.Params) (m : List Host.Cell) (a : Nat) (b : Byte) : List Host.Cell :=
  if b = Memory.unlisted p a then Memory.erase m a else Memory.insert m a b

/-- Addresses strictly rise from one cell to the next. -/
def Memory.rising : List Host.Cell → Bool
  | [] => true
  | (k, _) :: rest => rest.all (fun c => k < c.1) && Memory.rising rest

/-- The canonical form: rising addresses, all of them in memory, no cell that says what an unlisted
one reads as. Equal memories are then equal lists. -/
def Memory.wf (p : Config.Params) (m : List Host.Cell) : Bool :=
  Memory.rising m && m.all (fun c => c.1 < p.sizes.memSize && c.2 != Memory.unlisted p c.1)

/-- `mem[a]` (R60). -/
def State.memByte (s : State) (a : Nat) : Byte := Memory.read s.params s.mem a

/-- `mem[a] <- b`, for an address that its instruction has checked (R68). -/
def State.setMemByte (s : State) (a : Nat) (b : Byte) : State :=
  { s with mem := Memory.write s.params s.mem a b }

/-- `mem[a] <- bs[0]`, `mem[a + 1] <- bs[1]` and so on, in address order. -/
def State.setMemBytes (s : State) (a : Nat) : List Byte → State
  | [] => s
  | b :: rest => (s.setMemByte a b).setMemBytes (a + 1) rest

/-- Whether `MemRead(a, 1)` faults: at `MEM_SIZE` and above (R68). -/
def State.readFails (s : State) (a : Nat) : Bool := s.params.sizes.memSize ≤ a

/-- Whether `MemWrite(a, 1, _)` faults: outside memory, or up to the end of the font table under
`FONT_WRITE = Fault` (R68, R70). -/
def State.writeFails (s : State) (a : Nat) : Bool :=
  s.params.sizes.memSize ≤ a || (s.params.fontWrite = .fault && a ≤ s.params.sizes.fontEnd)

/-- The first of the `count` addresses from `base` on that fails a check, in increasing order, in
exact arithmetic (spec/43_index_memory.md R200). -/
def firstFailing (fails : Nat → Bool) (base count : Nat) : Option Nat :=
  ((List.range count).map (base + ·)).find? fails

/-! ## Call stack (spec/10_state.md R33, R34) -/

/-- `Push(a)`, or nothing where the stack is already at capacity. -/
def State.push (s : State) (a : Nat) : Option State :=
  if s.params.stackCapacity ≤ s.sp then none
  else some { s with stack := s.stack.set s.sp a, sp := s.sp + 1 }

/-- `stack[j]`. -/
def State.stackEntry (s : State) (j : Nat) : Nat := (s.stack[j]?).getD 0

/-- `Pop()`: the top entry and the state without it, or nothing where the stack is empty. The entry's
value stays in the array above the new top. -/
def State.pop (s : State) : Option (Nat × State) :=
  if s.sp = 0 then none
  else some (s.stackEntry (s.sp - 1), { s with sp := s.sp - 1 })

/-! ## Display and key buffers (spec/10_state.md R39, R41, spec/44_display.md R231, R233, R234) -/

/-- `Disp[k]`. -/
def State.pixel (s : State) (k : Nat) : Bool := s.disp.testBit k

/-- `Disp[k] <- Disp[k] XOR 1`, for a cell that exists (R233, R234). -/
def State.flipPixel (s : State) (k : Nat) : State :=
  { s with disp := s.disp ^^^ 2 ^ k }

/-- Every cell 0 (R231). -/
def State.clearDisplay (s : State) : State := { s with disp := 0 }

/-- `drawFlag <- b` (R43). -/
def State.setDrawFlag (s : State) (b : Bool) : State := { s with drawFlag := b }

/-- The number of the cell of column `px` and row `py`, row-major (R39, R230). -/
def State.cellIndex (s : State) (px py : Nat) : Nat := py * s.params.sizes.displayW + px

/-- A set bit of a sprite at cell `k`: a cell that is on is a collision, and the cell is toggled
(R233, R234). -/
def State.togglePixel (s : State) (k : Nat) : State :=
  if s.pixel k then (s.setReg vf 1#8).flipPixel k else s.flipPixel k

/-- `Plot(px, py)` under either value of `SPRITE_EDGE` (R233, R234). -/
def State.plot (s : State) (px py : Nat) : State :=
  match s.params.spriteEdge with
  | .clip =>
    if s.params.sizes.displayW ≤ px ∨ s.params.sizes.displayH ≤ py then s
    else s.togglePixel (s.cellIndex px py)
  | .linearSpill => s.togglePixel (s.cellIndex px py)

/-- `Key[k]` (R41). -/
def State.keyDown (s : State) (k : Nat) : Bool := (s.key[k]?).getD false

/-! ## Random source (spec/42_alu.md R190) -/

/-- `Draw()`: the next byte of the random source, and the state that has taken it (R190, D32). -/
def State.drawByte (s : State) : Byte × State := (Config.draw s.rng, { s with rng := s.rng + 1 })

/-! ## Fault entry (spec/60_exceptions.md R279) -/

/-- `raise Fault(k, info)`: the state keeps everything, `PC` among it, and `status` records the fault.
There is no return from a fault but `reset` (R281). -/
def State.faultEntry (s : State) (k : FaultKind) (info : Option Nat) : State :=
  { s with status := .halted k info }

/-- The outcome of an instruction or a fetch that raises a fault: the state of the fault entry. -/
def raiseFault (k : FaultKind) (info : Option Nat) (s : State) : Outcome :=
  .next (s.faultEntry k info)

/-! ## The parts of a cycle (spec/40_cycle.md) -/

/-- `Fetch(PC)`: the word of the two bytes at `PC`, or the first address that does not exist
(R66, R122). -/
def State.fetch (s : State) : Except Nat Word :=
  match firstFailing s.readFails s.pc 2 with
  | some a => .error a
  | none => .ok (wordOfBytes (s.memByte s.pc) (s.memByte (s.pc + 1)))

/-- `PC <- (PC + 2) mod 65536`: the advance before the execute step (R123), and a skip (R140). -/
def State.advance (s : State) : State := s.setPc (s.pc + 2)

/-- A timer after one tick: one less, floor at 0 (R38, R127). -/
def tickTimer (n : Nat) : Nat := if n = 0 then 0 else n - 1

/-- `tick()` (R127). -/
def State.tick (s : State) : State := { s with dt := tickTimer s.dt, st := tickTimer s.st }

/-- The highest pressed key: a scan of the keys from 0 up in which the last pressed one wins
(spec/45_keys_timers.md R254). -/
def State.highestKey (s : State) : Option Nat :=
  (List.range s.params.sizes.nkeys).foldl (fun found k => if s.keyDown k then some k else found) none

/-- Whether the execute step of `i` in `s` has the outcome `NoKeyReturn` (R125, R254): FX0A alone, with
no key pressed. -/
def noKeyReturn (i : Instr) (s : State) : Bool :=
  match i with
  | .ldVxK _ => s.highestKey.isNone
  | .cls | .ret | .sys _ | .jp _ | .call _ | .seByte _ _ | .sneByte _ _ | .seReg _ _ _
  | .ldByte _ _ | .addByte _ _ | .ldReg _ _ | .orReg _ _ | .andReg _ _ | .xorReg _ _ | .addReg _ _
  | .subReg _ _ | .shrReg _ _ | .subnReg _ _ | .shlReg _ _ | .noopGroup8 _ _ _ | .sneReg _ _ _
  | .ldI _ | .jpV0 _ | .rnd _ _ | .drw _ _ _ | .skp _ | .sknp _ | .noopGroupE _ _ | .ldVxDt _
  | .ldDtVx _ | .ldStVx _ | .addI _ | .ldF _ | .ldB _ | .storeRegs _ | .loadRegs _
  | .noopGroupF _ _ => false

/-- The three outcomes of the execute step (R125). -/
inductive Ending where
  | completed
  | noKeyReturn
  | faulted
  deriving DecidableEq, Repr

/-- How the execute step of `i` in the running state `s` ended, `t` being the state it left (R125). -/
def endingOf (i : Instr) (s t : State) : Ending :=
  if t.status ≠ .running then .faulted
  else if noKeyReturn i s then .noKeyReturn
  else .completed

/-- The end of a cycle: the timers tick when the instruction completed, and only then (R126, R128). -/
def endCycle (i : Instr) (s : State) (o : Outcome) : Outcome :=
  match o with
  | .next t => .next (if endingOf i s t = .completed then t.tick else t)
  | .fault f => .fault f
  | .refused r => .refused r

/-- `Cycle()` with the execute step `execute` (R132): the halted check, the fetch, the advance, the
decoding, the execute step and the tick. -/
def runCycle (execute : Instr → State → Outcome) (s : State) : Outcome :=
  match s.status with
  | .halted k info => .fault (.halted k info)
  | .running =>
    match s.fetch with
    | .error a => raiseFault .addressOutOfRange (some a) s
    | .ok w => endCycle (decode w) s.advance (execute (decode w) s.advance)

/-- `s` with the word `w` in the two cells at `PC` and ready to run it (log entry 9). -/
def State.placeWord (s : State) (w : Word) : State :=
  ({ s with status := .running }).setMemBytes s.pc [highByte w, lowByte w]

end Sys2Proof.Machine
end

