-- ==== Sys2Proof/Machine/Operands.lean ====
section
/-! DEFINITION. The operand forms: zero-extended immediates (spec/30_encoding.md R93), index plus
offset addressing (spec/43_index_memory.md R200), register ranges, key numbers, sprite bits. -/

namespace Sys2Proof.Machine

/-- `zext_16(NNN)` (R93). -/
def addrOperand (nnn : Addr12) : Nat := nnn.toNat

/-- The effective address of byte `k` of an access: `I + k`, in exact arithmetic (R200). -/
def State.effAddr (s : State) (k : Nat) : Nat := s.i + k

/-- The first address of a `count`-byte read at `I` that does not exist (R68, R200). -/
def State.firstBadRead (s : State) (count : Nat) : Option Nat := firstFailing s.readFails s.i count

/-- The first address of a `count`-byte write at `I` that fails its check (R68, R70, R200). -/
def State.firstBadWrite (s : State) (count : Nat) : Option Nat := firstFailing s.writeFails s.i count

/-- The registers V0 to V[x] in order (R205, R206). -/
def regsUpTo (x : RegIdx) : List RegIdx := (List.finRange 16).filter (· ≤ x)

/-- The key that `V[x]` numbers, or nothing where there is no such key: a number above 15
(spec/45_keys_timers.md R251, R252). -/
def State.keyOperand (s : State) (x : RegIdx) : Option Nat :=
  if (s.reg x).toNat < s.params.sizes.nkeys then some (s.reg x).toNat else none

/-- Whether groups 5 and 9 execute the skip for a word with the low nibble `n` (spec/30_encoding.md
R97): always under `SKIP_NIBBLE = Ignore`, for `n = 0` alone under `NoOp`. -/
def State.nibbleSelectsSkip (s : State) (n : Nibble) : Bool :=
  match s.params.skipNibble with
  | .ignore => true
  | .noOp => n = 0#4

/-- A skip of the next word when the condition holds (spec/41_control_flow.md R140). -/
def State.skipIf (s : State) (cond : Bool) : State := if cond then s.advance else s

/-- Bit `7 - c` of a sprite row, which is column `c` (spec/44_display.md R230). -/
def spriteBit (row : Byte) (c : Nat) : Bool := row.getLsbD (7 - c)

/-- The start column of a sprite, `V[x] mod 64`, the width of the display (R232). -/
def State.spriteX (s : State) (x : RegIdx) : Nat := (s.reg x).toNat % s.params.sizes.displayW

/-- The start row of a sprite, `V[y] mod 32`, the height of the display (R232). -/
def State.spriteY (s : State) (y : RegIdx) : Nat := (s.reg y).toNat % s.params.sizes.displayH

/-- The targets (column, row) of the set bits of sprite row `r`, left to right. -/
def State.rowTargets (s : State) (x0 y0 r : Nat) : List (Nat × Nat) :=
  ((List.range 8).filter (spriteBit (s.memByte (s.effAddr r)))).map (fun c => (x0 + c, y0 + r))

/-- The targets of all set bits of an `n`-row sprite at `I`, in drawing order (R232). -/
def State.spriteTargets (s : State) (x0 y0 n : Nat) : List (Nat × Nat) :=
  (List.range n).flatMap (s.rowTargets x0 y0)

/-- Under `LinearSpill`, the first cell index of a target that is outside the display (R234). -/
def State.firstBadCell (s : State) (targets : List (Nat × Nat)) : Option Nat :=
  match s.params.spriteEdge with
  | .clip => none
  | .linearSpill => (targets.map (fun t => s.cellIndex t.1 t.2)).find? (s.params.sizes.cells ≤ ·)

end Sys2Proof.Machine
end

