-- ==== Sys2Proof/Machine/Flags.lean ====
section
/-! DEFINITION. The flag computations, each of them a value of VF (spec/10_state.md R22, R23), and the
one operation that writes a flag with its result (spec/42_alu.md R171). -/

namespace Sys2Proof.Machine

/-- A flag as a byte. -/
def flagByte (b : Bool) : Byte := if b then 1#8 else 0#8

/-- Carry: the exact sum exceeds 255 (R178). -/
def carryFlag (a b : Byte) : Byte := flagByte (255 < a.toNat + b.toNat)

/-- Not-borrow of `a - b`: 0 if `b > a`, else 1 (R179, R181). -/
def notBorrowFlag (a b : Byte) : Byte := flagByte (!(a.toNat < b.toNat))

/-- The bit that a right shift by one moves out (R180). -/
def shiftOutLow (a : Byte) : Byte := a &&& 0x01#8

/-- The bit that a left shift by one moves out (R182). -/
def shiftOutHigh (a : Byte) : Byte := (a >>> 7) &&& 0x01#8

/-- Whether the new `I` is above 0xFFF (spec/43_index_memory.md R202). -/
def indexFlag (n : Nat) : Byte := flagByte (0xFFF < n)

/-- A flag-setting instruction with destination `V[x]` (R171). Under `Sequential` VF is written first
and the result is read off the state which that write left; under `FlagLast` both are computed from
the state at the start, and VF is written last. -/
def State.writeWithFlag (s : State) (x : RegIdx) (flag result : State → Byte) : State :=
  match s.params.vfOrder with
  | .sequential =>
    let s1 := s.setReg vf (flag s)
    s1.setReg x (result s1)
  | .flagLast => (s.setReg x (result s)).setReg vf (flag s)

end Sys2Proof.Machine
end

