-- ==== Sys2Proof/Machine/Alu.lean ====
section
/-! DEFINITION. Register loads and ALU: 6XNN, 7XNN, 8XY0–8XY7, 8XYE, CXNN (spec/42_alu.md). A byte
addition or subtraction is the exact one reduced mod 256 (R170). -/

namespace Sys2Proof.Machine

/-- 6XNN: `V[X] <- NN` (R172). -/
def execLdByte (x : RegIdx) (nn : Byte) (s : State) : Outcome := .next (s.setReg x nn)

/-- 7XNN: `V[X] <- (V[X] + NN) mod 256`, no flag (R173). -/
def execAddByte (x : RegIdx) (nn : Byte) (s : State) : Outcome :=
  .next (s.setReg x (s.reg x + nn))

/-- 8XY0: `V[X] <- V[Y]` (R174). -/
def execLdReg (x y : RegIdx) (s : State) : Outcome := .next (s.setReg x (s.reg y))

/-- 8XY1: `V[X] <- V[X] OR V[Y]`, no flag (R175). -/
def execOrReg (x y : RegIdx) (s : State) : Outcome := .next (s.setReg x (s.reg x ||| s.reg y))

/-- 8XY2: `V[X] <- V[X] AND V[Y]`, no flag (R176). -/
def execAndReg (x y : RegIdx) (s : State) : Outcome := .next (s.setReg x (s.reg x &&& s.reg y))

/-- 8XY3: `V[X] <- V[X] XOR V[Y]`, no flag (R177). -/
def execXorReg (x y : RegIdx) (s : State) : Outcome := .next (s.setReg x (s.reg x ^^^ s.reg y))

/-- 8XY4: the sum is captured before VF is written, so both orders use the old registers (R178). -/
def execAddReg (x y : RegIdx) (s : State) : Outcome :=
  let sum := s.reg x + s.reg y
  .next (s.writeWithFlag x (fun t => carryFlag (t.reg x) (t.reg y)) (fun _ => sum))

/-- 8XY5: `V[X] <- (V[X] - V[Y]) mod 256`, VF not-borrow (R179). -/
def execSubReg (x y : RegIdx) (s : State) : Outcome :=
  .next (s.writeWithFlag x (fun t => notBorrowFlag (t.reg x) (t.reg y)) (fun t => t.reg x - t.reg y))

/-- 8XY6: `V[X] <- V[X] >> 1`, VF the bit shifted out; Y is not read (R180). -/
def execShrReg (x _y : RegIdx) (s : State) : Outcome :=
  .next (s.writeWithFlag x (fun t => shiftOutLow (t.reg x)) (fun t => t.reg x >>> 1))

/-- 8XY7: `V[X] <- (V[Y] - V[X]) mod 256`, VF not-borrow (R181). -/
def execSubnReg (x y : RegIdx) (s : State) : Outcome :=
  .next (s.writeWithFlag x (fun t => notBorrowFlag (t.reg y) (t.reg x)) (fun t => t.reg y - t.reg x))

/-- 8XYE: `V[X] <- (V[X] << 1) mod 256`, VF the bit shifted out; Y is not read (R182). -/
def execShlReg (x _y : RegIdx) (s : State) : Outcome :=
  .next (s.writeWithFlag x (fun t => shiftOutHigh (t.reg x)) (fun t => t.reg x <<< 1))

/-- CXNN: `V[X] <- Draw() AND NN`, one draw whatever NN is (R190). -/
def execRnd (x : RegIdx) (nn : Byte) (s : State) : Outcome :=
  let d := s.drawByte
  .next (d.2.setReg x (d.1 &&& nn))

end Sys2Proof.Machine
end

