-- ==== Sys2Proof/Machine/NoOps.lean ====
section
/-! DEFINITION. The recognized-group no-ops: the execute step "writes nothing" (spec/40_cycle.md R130). -/

namespace Sys2Proof.Machine

/-- The no-op (R130). -/
def noOp (s : State) : Outcome := .next s

/-- 0NNN (R95, R130, R285). -/
def execSys (_nnn : Addr12) (s : State) : Outcome := noOp s

/-- 8XY? with N in 8, 9, A, B, C, D, F (R98, R130, R191). -/
def execNoopGroup8 (_x _y : RegIdx) (_n : Nibble) (s : State) : Outcome := noOp s

/-- EX?? with NN other than 9E and A1 (R99, R130). -/
def execNoopGroupE (_x : RegIdx) (_nn : Byte) (s : State) : Outcome := noOp s

/-- FX?? with an NN that names no class (R100, R130). -/
def execNoopGroupF (_x : RegIdx) (_nn : Byte) (s : State) : Outcome := noOp s

end Sys2Proof.Machine
end

