-- ==== Sys2Proof/Machine/ControlFlow.lean ====
section
/-! DEFINITION. Control transfer: 00EE, 1NNN, 2NNN, 3XNN, 4XNN, 5XY0, 9XY0, BNNN
(spec/41_control_flow.md). A meaning starts with `PC` already advanced (R123, R140). -/

namespace Sys2Proof.Machine

/-- 00EE: `pc <- Pop()` (R141). -/
def execRet (s : State) : Outcome :=
  match s.pop with
  | none => raiseFault .stackUnderflow none s
  | some (a, s1) => .next (s1.setPc a)

/-- 1NNN: `pc <- zext_16(NNN)` (R142). -/
def execJp (nnn : Addr12) (s : State) : Outcome := .next (s.setPc (addrOperand nnn))

/-- 2NNN: `Push(PC); pc <- zext_16(NNN)`, the pushed value being the advanced PC (R143). -/
def execCall (nnn : Addr12) (s : State) : Outcome :=
  match s.push s.pc with
  | none => raiseFault .stackOverflow (some s.pc) s
  | some s1 => .next (s1.setPc (addrOperand nnn))

/-- 3XNN: skip if `V[X] = NN` (R144). -/
def execSeByte (x : RegIdx) (nn : Byte) (s : State) : Outcome := .next (s.skipIf (s.reg x = nn))

/-- 4XNN: skip if `V[X] != NN` (R145). -/
def execSneByte (x : RegIdx) (nn : Byte) (s : State) : Outcome := .next (s.skipIf (s.reg x ≠ nn))

/-- 5XY0: skip if `V[X] = V[Y]`; under `SKIP_NIBBLE = NoOp` a word with N ≠ 0 is a no-op (R97, R146). -/
def execSeReg (x y : RegIdx) (n : Nibble) (s : State) : Outcome :=
  if s.nibbleSelectsSkip n then .next (s.skipIf (s.reg x = s.reg y)) else noOp s

/-- 9XY0: skip if `V[X] != V[Y]`; N as for 5XY0 (R97, R147). -/
def execSneReg (x y : RegIdx) (n : Nibble) (s : State) : Outcome :=
  if s.nibbleSelectsSkip n then .next (s.skipIf (s.reg x ≠ s.reg y)) else noOp s

/-- BNNN: `pc <- zext_16(NNN) + V[0]`, not masked to 12 bits (R148). -/
def execJpV0 (nnn : Addr12) (s : State) : Outcome :=
  .next (s.setPc (addrOperand nnn + (s.reg 0).toNat))

end Sys2Proof.Machine
end

