-- ==== Sys2Proof/Machine/Display.lean ====
section
/-! DEFINITION. Display: 00E0 and DXYN (spec/44_display.md). -/

namespace Sys2Proof.Machine

/-- 00E0: every cell 0, and the draw flag set (R231). -/
def execCls (s : State) : Outcome := .next (s.clearDisplay.setDrawFlag true)

/-- DXYN (R232): the start coordinates are read, the row addresses and then (under `LinearSpill`) the
cells are checked, VF is reset, the set bits are plotted row by row from the left, and the draw flag
is set. -/
def execDrw (x y : RegIdx) (n : Nibble) (s : State) : Outcome :=
  match s.firstBadRead n.toNat with
  | some a => raiseFault .addressOutOfRange (some a) s
  | none =>
    let targets := s.spriteTargets (s.spriteX x) (s.spriteY y) n.toNat
    match s.firstBadCell targets with
    | some k => raiseFault .displayIndexOutOfRange (some k) s
    | none =>
      .next ((targets.foldl (fun t p => t.plot p.1 p.2) (s.setReg vf 0#8)).setDrawFlag true)

end Sys2Proof.Machine
end

