-- ==== Sys2Proof/Machine/IndexMemory.lean ====
section
/-! DEFINITION. Index register and memory: ANNN, FX1E, FX29, FX33, FX55, FX65
(spec/43_index_memory.md). Every address is checked before anything is written (R200). -/

namespace Sys2Proof.Machine

/-- ANNN: `I <- zext_16(NNN)` (R201). -/
def execLdI (nnn : Addr12) (s : State) : Outcome := .next (s.setIndex (addrOperand nnn))

/-- FX1E: `I <- (I + V[X]) mod 65536`, then VF says whether the new I is above 0xFFF (R202). -/
def execAddI (x : RegIdx) (s : State) : Outcome :=
  let s1 := s.setIndex (s.i + (s.reg x).toNat)
  .next (s1.setReg vf (indexFlag s1.i))

/-- FX29: `I <- V[X] * 5`, V[X] not reduced to a digit (R203). -/
def execLdF (x : RegIdx) (s : State) : Outcome :=
  .next (s.setIndex ((s.reg x).toNat * 5))

/-- The hundreds, tens and ones digits of a byte (R204). -/
def bcdDigits (b : Byte) : List Byte :=
  [BitVec.ofNat 8 (b.toNat / 100), BitVec.ofNat 8 (b.toNat / 10 % 10), BitVec.ofNat 8 (b.toNat % 10)]

/-- FX33: the decimal digits of V[X] to `I`, `I + 1`, `I + 2` (R204). -/
def execLdB (x : RegIdx) (s : State) : Outcome :=
  match s.firstBadWrite 3 with
  | some a => raiseFault .addressOutOfRange (some a) s
  | none => .next (s.setMemBytes (s.effAddr 0) (bcdDigits (s.reg x)))

/-- FX55: `V[0]` to `V[X]` to `I` to `I + X` (R205). -/
def execStoreRegs (x : RegIdx) (s : State) : Outcome :=
  match s.firstBadWrite (x.val + 1) with
  | some a => raiseFault .addressOutOfRange (some a) s
  | none => .next (s.setMemBytes (s.effAddr 0) ((regsUpTo x).map s.reg))

/-- FX65: `V[0]` to `V[X]` from `I` to `I + X` (R206). -/
def execLoadRegs (x : RegIdx) (s : State) : Outcome :=
  match s.firstBadRead (x.val + 1) with
  | some a => raiseFault .addressOutOfRange (some a) s
  | none => .next ((regsUpTo x).foldl (fun t k => t.setReg k (t.memByte (t.effAddr k.val))) s)

end Sys2Proof.Machine
end

