-- ==== Sys2Proof/Machine/KeysTimers.lean ====
section
/-! DEFINITION. Keys and timers: EX9E, EXA1, FX07, FX0A, FX15, FX18 (spec/45_keys_timers.md). The tick
of the cycle comes after these meanings (R126). -/

namespace Sys2Proof.Machine

/-- EX9E: skip if the key that V[X] numbers is pressed (R251). -/
def execSkp (x : RegIdx) (s : State) : Outcome :=
  match s.keyOperand x with
  | none => raiseFault .keyIndexOutOfRange (some (s.reg x).toNat) s
  | some k => .next (s.skipIf (s.keyDown k))

/-- EXA1: skip if the key that V[X] numbers is not pressed (R252). -/
def execSknp (x : RegIdx) (s : State) : Outcome :=
  match s.keyOperand x with
  | none => raiseFault .keyIndexOutOfRange (some (s.reg x).toNat) s
  | some k => .next (s.skipIf (!s.keyDown k))

/-- FX07: `V[X] <- DT`, the value before this cycle's tick (R253). -/
def execLdVxDt (x : RegIdx) (s : State) : Outcome :=
  .next (s.setReg x (BitVec.ofNat 8 s.dt))

/-- FX0A: `V[X]` the highest pressed key; with none pressed nothing but, under `KEY_WAIT = Blocking`,
`pc <- (PC - 2)`, mod 65536 (R254, R8). -/
def execLdVxK (x : RegIdx) (s : State) : Outcome :=
  match s.highestKey with
  | some k => .next (s.setReg x (BitVec.ofNat 8 k))
  | none =>
    match s.params.keyWait with
    | .reference => .next s
    | .blocking => .next (s.setPc (s.pc + 2 ^ s.params.sizes.pcWidth - 2))

/-- FX15: `DT <- V[X]` (R255). -/
def execLdDtVx (x : RegIdx) (s : State) : Outcome := .next (s.setDt (s.reg x).toNat)

/-- FX18: `ST <- V[X]` (R256). -/
def execLdStVx (x : RegIdx) (s : State) : Outcome := .next (s.setSt (s.reg x).toNat)

end Sys2Proof.Machine
end

