-- ==== Sys2Proof/Machine/Step.lean ====
section
/-! DEFINITION. One step is one cycle (spec/40_cycle.md R120, R132); everything it is made of stands in
Machine/Ops.lean. -/

namespace Sys2Proof.Machine

/-- One cycle: one instruction executed (R120, R132). -/
def step (s : State) : Host.Outcome State Fault Refusal := runCycle exec s

/-- `s` with the instruction whose bits are `w`, of which the opcode table gives the lowest `nbits`,
stored where the next cycle fetches (log entry 9). -/
def State.withFetchWord (s : State) (nbits w : Nat) : State :=
  s.placeWord (BitVec.ofNat 16 (w % 2 ^ nbits))

end Sys2Proof.Machine
end

