-- ==== Sys2Proof/Machine/HostOps.lean ====
section
/-! DEFINITION. The host's side of the block: the operations of the ports of spec/10_state.md R50 and
R51, which happen between cycles and never during one (R52), and the whole block as a function from
a request to a state and a response. -/

namespace Sys2Proof.Machine

/-- The numeric code of a fault kind (spec/60_exceptions.md R271; labels only, D14). -/
def FaultKind.code : FaultKind → Nat
  | .unknownInstruction => 1
  | .stackOverflow => 2
  | .stackUnderflow => 3
  | .addressOutOfRange => 4
  | .keyIndexOutOfRange => 5
  | .displayIndexOutOfRange => 6
  | .programTooLarge => 7

/-- Whether the core goes on after a fault of this kind: `ProgramTooLarge` alone (R271, R278). -/
def FaultKind.recoverable : FaultKind → Bool
  | .programTooLarge => true
  | .unknownInstruction | .stackOverflow | .stackUnderflow | .addressOutOfRange
  | .keyIndexOutOfRange | .displayIndexOutOfRange => false

/-- `reset`, with the seed that the random source takes (spec/70_reset_and_hazards.md R300, R301): every
field is reinitialized, whatever the state was; the parameters are the machine's. -/
def State.hostReset (s : State) (seed : Nat) : State := State.resetWith s.params seed

/-- `load(bytes)`: the bytes are copied to `PROGRAM_BASE` and up, or the length is returned and nothing is
copied (R303, R304). -/
def State.load (s : State) (bytes : List Byte) : Except Nat State :=
  if s.params.sizes.programMax < bytes.length then .error bytes.length
  else .ok (s.setMemBytes s.params.sizes.programBase bytes)

/-- `keyWrite(k, pressed)`, with `k` the number of a key (spec/10_state.md R53). A number that no key has
writes nothing (log entry 13). -/
def State.keyWrite (s : State) (k : Nat) (pressed : Bool) : State :=
  { s with key := s.key.set k pressed }

/-- `drawFlagClear` (R54). -/
def State.drawFlagClear (s : State) : State := s.setDrawFlag false

/-- `depth()` (R32). -/
def State.depth (s : State) : Nat := s.sp

/-- `peek()`: the top entry, or `StackUnderflow` where the stack is empty. DEDUCED, safe: a query of the
host changes no state, so this failure does not halt the core (R32, R51, R274; log entry 12). -/
def State.peek (s : State) : Except FaultKind Nat :=
  if s.sp = 0 then .error .stackUnderflow else .ok (s.stackEntry (s.sp - 1))

/-- The requests at the block's input ports (R50). -/
inductive Request where
  | cycle
  | reset (seed : Nat)
  | load (bytes : List Byte)
  | keyWrite (k : Nat) (pressed : Bool)
  | drawFlagClear
  deriving DecidableEq, Repr

/-- What the block answers to a request (R50, R131). -/
inductive Response where
  | ok
  | fault (kind : FaultKind) (info : Option Nat)
  /-- Given by no request: it stands for a refusal of `step`, and no instruction refuses. -/
  | unmodelled
  deriving DecidableEq, Repr

/-- The response to a cycle that left the state `t`: `Fault(k, info)` when the cycle raised a fault,
which `status` then records, and `Ok` otherwise (R131). -/
def cycleResponse (t : State) : Response :=
  match t.status with
  | .running => .ok
  | .halted k info => .fault k info

/-- One request, as one atomic step of the block (R52): the state it leaves and the response. -/
def State.serve (s : State) (r : Request) : State × Response :=
  match r with
  | .cycle =>
    match step s with
    | .next t => (t, cycleResponse t)
    | .fault (.halted k info) => (s, .fault k info)
    | .refused _ => (s, .unmodelled)
  | .reset seed => (s.hostReset seed, .ok)
  | .load bytes =>
    match s.load bytes with
    | .ok t => (t, .ok)
    | .error len => (s, .fault .programTooLarge (some len))
  | .keyWrite k pressed => (s.keyWrite k pressed, .ok)
  | .drawFlagClear => (s.drawFlagClear, .ok)

end Sys2Proof.Machine
end

