-- ==== Sys2Proof/Safety.lean ====
section
/-! DEFINITION. The terms in which claims are made: what a state must satisfy in every run, what an
instruction may write, and when a run is finished. -/

namespace Sys2Proof.Machine

/-- Whether `status` holds a condition that a cycle can leave: `UnknownInstruction` and
`ProgramTooLarge` never halt the core, and a display index only under `LinearSpill`
(spec/60_exceptions.md R272, R277, R278). -/
def State.statusLegal (s : State) : Bool :=
  match s.status with
  | .running => true
  | .halted .unknownInstruction _ => false
  | .halted .programTooLarge _ => false
  | .halted .displayIndexOutOfRange _ => s.params.spriteEdge = .linearSpill
  | .halted .stackOverflow _ => true
  | .halted .stackUnderflow _ => true
  | .halted .addressOutOfRange _ => true
  | .halted .keyIndexOutOfRange _ => true

/-- Every field has the size that the parameters give it (R6): `NREGS` registers, `NKEYS` keys, and each
number below 2 to its width. -/
structure State.Fits (s : State) : Prop where
  regs : s.v.length = s.params.sizes.nregs
  index : s.i < 2 ^ s.params.sizes.iWidth
  pc : s.pc < 2 ^ s.params.sizes.pcWidth
  entries : ∀ a ∈ s.stack, a < 2 ^ s.params.sizes.pcWidth
  dt : s.dt < 2 ^ s.params.sizes.timerWidth
  st : s.st < 2 ^ s.params.sizes.timerWidth
  disp : s.disp < 2 ^ s.params.sizes.cells
  keys : s.key.length = s.params.sizes.nkeys

/-- A state of this hardware: the sizes are those that R6 gives, and every field has its size. The rules
of the spec write these sizes as numbers (0xFFF, mod 65536, mod 64), and so do the statements about such
a state. -/
structure State.Nea (s : State) : Prop where
  sizes : s.params.sizes = Config.nea
  fits : s.Fits

/-- What holds of a machine of any parameters: every field has its size, memory has its canonical form
(R60), and the stack has `STACK_CAPACITY` entries with the depth in 0..`STACK_CAPACITY` (R31). -/
structure State.Bounded (s : State) : Prop where
  fits : s.Fits
  memory : Memory.wf s.params s.mem = true
  stackLength : s.stack.length = s.params.stackCapacity
  depth : s.sp ≤ s.params.stackCapacity

/-- The invariant of the block: the sizes of R6, every field within its bounds, `PC` at most 0x10FE and
every stack entry at most 0x1000, so that no PC arithmetic wraps (R28), and a legal `status`. -/
structure State.Inv (s : State) : Prop where
  sizes : s.params.sizes = Config.nea
  bounded : s.Bounded
  pcRange : s.pc ≤ 0x10FE
  stackRange : ∀ a ∈ s.stack, a ≤ 0x1000
  status : s.statusLegal = true

/-- What an execute step may write (R129): the named registers, and each other piece of state that is
marked. Keys and parameters are in no instruction's reach (R42). -/
structure Writes where
  regs : List RegIdx := []
  index : Bool := false
  pc : Bool := false
  stack : Bool := false
  dt : Bool := false
  st : Bool := false
  mem : List Nat := []
  disp : Bool := false
  drawFlag : Bool := false
  status : Bool := false
  rng : Bool := false
  deriving DecidableEq, Repr

/-- `t` differs from `s` at most in what `w` names (R129). -/
structure Frame (w : Writes) (s t : State) : Prop where
  regs : ∀ r : RegIdx, r ∉ w.regs → t.reg r = s.reg r
  regCount : t.v.length = s.v.length
  index : w.index = false → t.i = s.i
  pc : w.pc = false → t.pc = s.pc
  sp : w.stack = false → t.sp = s.sp
  stack : w.stack = false → t.stack = s.stack
  dt : w.dt = false → t.dt = s.dt
  st : w.st = false → t.st = s.st
  mem : ∀ a : Nat, a ∉ w.mem → t.memByte a = s.memByte a
  disp : w.disp = false → t.disp = s.disp
  drawFlag : w.drawFlag = false → t.drawFlag = s.drawFlag
  status : w.status = false → t.status = s.status
  rng : w.rng = false → t.rng = s.rng
  key : t.key = s.key
  params : t.params = s.params

/-- The `count` addresses from `base` on: the bytes a store reaches. -/
def span (base count : Nat) : List Nat := (List.range count).map (base + ·)

/-- The word at `PC` (R66). -/
def State.word (s : State) : Word := wordOfBytes (s.memByte s.pc) (s.memByte (s.pc + 1))

/-- A cycle from `s` executes the instruction at `PC`: the core runs and both bytes of the word exist
(R121, R122). -/
def State.ready (s : State) : Prop := s.status = .running ∧ s.pc + 1 < s.params.sizes.memSize

/-- `PC` two further, in `PC_WIDTH` bits: the advance of R123 and a skip (R28, R140). -/
def State.pcPlusTwo (s : State) : Nat := (s.pc + 2) % 2 ^ s.params.sizes.pcWidth

/-- The table of R27: what `PC` is after the execute step of an instruction that raises no fault, `s.pc`
being the advanced `PC`. `PC` keeps a value mod 2 to `PC_WIDTH`, 16 bits in this hardware (R28). -/
def pcAfter (i : Instr) (s : State) : Nat :=
  match i with
  | .jp nnn | .call nnn => nnn.toNat % 2 ^ s.params.sizes.pcWidth
  | .ret => s.stackEntry (s.sp - 1) % 2 ^ s.params.sizes.pcWidth
  | .jpV0 nnn => (nnn.toNat + (s.reg 0).toNat) % 2 ^ s.params.sizes.pcWidth
  | .seByte x nn => if s.reg x = nn then s.pcPlusTwo else s.pc
  | .sneByte x nn => if s.reg x ≠ nn then s.pcPlusTwo else s.pc
  | .seReg x y n =>
    if (s.params.skipNibble = .ignore ∨ n = 0) ∧ s.reg x = s.reg y then s.pcPlusTwo else s.pc
  | .sneReg x y n =>
    if (s.params.skipNibble = .ignore ∨ n = 0) ∧ s.reg x ≠ s.reg y then s.pcPlusTwo else s.pc
  | .skp x => if s.keyDown (s.reg x).toNat = true then s.pcPlusTwo else s.pc
  | .sknp x => if s.keyDown (s.reg x).toNat = false then s.pcPlusTwo else s.pc
  | .ldVxK _ =>
    if (∀ k < s.params.sizes.nkeys, s.keyDown k = false) ∧ s.params.keyWait = .blocking then
      (s.pc + 2 ^ s.params.sizes.pcWidth - 2) % 2 ^ s.params.sizes.pcWidth
    else s.pc
  | .cls | .sys _ | .ldByte _ _ | .addByte _ _ | .ldReg _ _ | .orReg _ _ | .andReg _ _ | .xorReg _ _
  | .addReg _ _ | .subReg _ _ | .shrReg _ _ | .subnReg _ _ | .shlReg _ _ | .noopGroup8 _ _ _
  | .ldI _ | .rnd _ _ | .drw _ _ _ | .noopGroupE _ _ | .ldVxDt _ | .ldDtVx _ | .ldStVx _ | .addI _
  | .ldF _ | .ldB _ | .storeRegs _ | .loadRegs _ | .noopGroupF _ _ => s.pc

/-- `t` is `s` but for stack entries at or above the top, which nothing can observe (R31). -/
def SameBelowTop (s t : State) : Prop :=
  t = { s with stack := t.stack } ∧ t.stack.length = s.stack.length ∧
    ∀ j < s.sp, t.stackEntry j = s.stackEntry j

/-- Bit `7 - c` of the sprite row `mem[I + r]` is set (R230). -/
def spriteHas (s : State) (r c : Nat) : Prop :=
  (s.memByte (s.i + r)).getLsbD (7 - c) = true

/-- The row-major number of the cell of sprite row `r` and column `c`, from the unwrapped coordinates
(R232, R234). -/
def spriteCell (s : State) (x y : RegIdx) (r c : Nat) : Nat :=
  ((s.reg y).toNat % 32 + r) * 64 + ((s.reg x).toNat % 64 + c)

/-- Under `Clip`, DXYN with `n` rows toggles cell `k`: a set bit of the sprite falls on it, inside the
grid (R232, R233). -/
def clipCovers (s : State) (x y : RegIdx) (n k : Nat) : Prop :=
  ∃ r c, r < n ∧ c < 8 ∧ spriteHas s r c ∧ (s.reg x).toNat % 64 + c < 64 ∧
    (s.reg y).toNat % 32 + r < 32 ∧ k = spriteCell s x y r c

/-- Under `LinearSpill`, DXYN with `n` rows toggles cell `k` (R234). -/
def spillCovers (s : State) (x y : RegIdx) (n k : Nat) : Prop :=
  ∃ r c, r < n ∧ c < 8 ∧ spriteHas s r c ∧ k = spriteCell s x y r c

/-- DXYN with `n` rows toggles cell `k`, under the machine's `SPRITE_EDGE`. -/
def drawCovers (s : State) (x y : RegIdx) (n k : Nat) : Prop :=
  match s.params.spriteEdge with
  | .clip => clipCovers s x y n k
  | .linearSpill => spillCovers s x y n k

/-- A finished state: running, and the next word is a jump to its own address (spec/70_reset_and_hazards.md
R314, D31). The core does not stop there: it goes on executing that jump. -/
def State.finished (s : State) : Prop := s.ready ∧ ∃ nnn, nnn.toNat = s.pc ∧ decode s.word = .jp nnn

end Sys2Proof.Machine
end

