-- ==== Sys2Proof/Certificates/Slice0/Obligations.lean ====
section
/-! DEFINITION. The statements for the provers, from the numbered rules of the spec. OBLIGATIONS.json
lists them with the rules they rest on. Unless it says otherwise a statement is about the execute step
(`exec`), which starts with `PC` already advanced. -/

open Sys2Proof Sys2Proof.Machine

/-! ## Decoding and encoding (spec/30_encoding.md) -/

/-- One word of every family of the opcode table, its fields all different, decodes to the
instruction the opcode map gives it, with each field in its place. Derived from R91, R103. -/
def Obligations.WordsWrittenOutDecode : Prop :=
  decode 0x00E0#16 = .cls ∧ decode 0x00EE#16 = .ret ∧ decode 0x0123#16 = .sys 0x123#12 ∧
  decode 0x1ABC#16 = .jp 0xABC#12 ∧ decode 0x2345#16 = .call 0x345#12 ∧
  decode 0x3A42#16 = .seByte 0xA 0x42#8 ∧ decode 0x5123#16 = .seReg 1 2 3#4 ∧
  decode 0x8CD5#16 = .subReg 0xC 0xD ∧ decode 0x8CD8#16 = .noopGroup8 0xC 0xD 8#4 ∧
  decode 0xA300#16 = .ldI 0x300#12 ∧ decode 0xC30F#16 = .rnd 3 0x0F#8 ∧
  decode 0xD125#16 = .drw 1 2 5#4 ∧ decode 0xE29E#16 = .skp 2 ∧ decode 0xE1FF#16 = .noopGroupE 1 0xFF#8 ∧
  decode 0xF50A#16 = .ldVxK 5 ∧ decode 0xF265#16 = .loadRegs 2 ∧ decode 0xF100#16 = .noopGroupF 1 0x00#8

/-- A word decodes to 00E0 exactly when it is 0x00E0 and to 00EE exactly when it is 0x00EE; every
other word from 0x0000 to 0x0FFF decodes to the group-0 no-op, whose execute step changes
nothing. Rule R95. -/
def Obligations.GroupZeroDecodesOnTheWholeWord : Prop :=
  ∀ w : Word, (decode w = .cls ↔ w = 0x00E0#16) ∧ (decode w = .ret ↔ w = 0x00EE#16) ∧
    (w.toNat ≤ 0x0FFF → w ≠ 0x00E0#16 → w ≠ 0x00EE#16 →
      decode w = .sys (fieldNNN w) ∧ ∀ s, exec (decode w) s = .next s)

/-- A word whose top nibble is 1, 2, 3, 4, 6, 7, A, B, C or D decodes to the class of that group,
with X = bits 11..8, Y = bits 7..4, N = bits 3..0, NN = bits 7..0 and NNN = bits 11..0 of the
word as numbers. Rules R92, R96. -/
def Obligations.TopNibbleSelectsTheClass : Prop :=
  ∀ w : Word, let v := w.toNat
    (fieldX w).val = v / 256 % 16 ∧ (fieldY w).val = v / 16 % 16 ∧ (fieldN w).toNat = v % 16 ∧
    (fieldNN w).toNat = v % 256 ∧ (fieldNNN w).toNat = v % 4096 ∧ (topNibble w).toNat = v / 4096 ∧
    (v / 4096 = 0x1 → decode w = .jp (fieldNNN w)) ∧
    (v / 4096 = 0x2 → decode w = .call (fieldNNN w)) ∧
    (v / 4096 = 0x3 → decode w = .seByte (fieldX w) (fieldNN w)) ∧
    (v / 4096 = 0x4 → decode w = .sneByte (fieldX w) (fieldNN w)) ∧
    (v / 4096 = 0x6 → decode w = .ldByte (fieldX w) (fieldNN w)) ∧
    (v / 4096 = 0x7 → decode w = .addByte (fieldX w) (fieldNN w)) ∧
    (v / 4096 = 0xA → decode w = .ldI (fieldNNN w)) ∧
    (v / 4096 = 0xB → decode w = .jpV0 (fieldNNN w)) ∧
    (v / 4096 = 0xC → decode w = .rnd (fieldX w) (fieldNN w)) ∧
    (v / 4096 = 0xD → decode w = .drw (fieldX w) (fieldY w) (fieldN w))

/-- A word with top nibble 8 decodes on N, one with top nibble E or F on NN; each listed sub-code
gives its class, and each other one gives the recognized-group no-op, whose execute step changes
nothing. Rules R98, R99, R100. -/
def Obligations.SubCodesSelectTheClassOrTheNoOp : Prop :=
  ∀ w : Word, let v := w.toNat
    (v / 4096 = 0x8 →
      (v % 16 = 0x0 → decode w = .ldReg (fieldX w) (fieldY w)) ∧
      (v % 16 = 0x1 → decode w = .orReg (fieldX w) (fieldY w)) ∧
      (v % 16 = 0x2 → decode w = .andReg (fieldX w) (fieldY w)) ∧
      (v % 16 = 0x3 → decode w = .xorReg (fieldX w) (fieldY w)) ∧
      (v % 16 = 0x4 → decode w = .addReg (fieldX w) (fieldY w)) ∧
      (v % 16 = 0x5 → decode w = .subReg (fieldX w) (fieldY w)) ∧
      (v % 16 = 0x6 → decode w = .shrReg (fieldX w) (fieldY w)) ∧
      (v % 16 = 0x7 → decode w = .subnReg (fieldX w) (fieldY w)) ∧
      (v % 16 = 0xE → decode w = .shlReg (fieldX w) (fieldY w)) ∧
      (v % 16 ∈ [0x8, 0x9, 0xA, 0xB, 0xC, 0xD, 0xF] →
        decode w = .noopGroup8 (fieldX w) (fieldY w) (fieldN w) ∧ ∀ s, exec (decode w) s = .next s)) ∧
    (v / 4096 = 0xE →
      (v % 256 = 0x9E → decode w = .skp (fieldX w)) ∧
      (v % 256 = 0xA1 → decode w = .sknp (fieldX w)) ∧
      (v % 256 ≠ 0x9E → v % 256 ≠ 0xA1 →
        decode w = .noopGroupE (fieldX w) (fieldNN w) ∧ ∀ s, exec (decode w) s = .next s)) ∧
    (v / 4096 = 0xF →
      (v % 256 = 0x07 → decode w = .ldVxDt (fieldX w)) ∧
      (v % 256 = 0x0A → decode w = .ldVxK (fieldX w)) ∧
      (v % 256 = 0x15 → decode w = .ldDtVx (fieldX w)) ∧
      (v % 256 = 0x18 → decode w = .ldStVx (fieldX w)) ∧
      (v % 256 = 0x1E → decode w = .addI (fieldX w)) ∧
      (v % 256 = 0x29 → decode w = .ldF (fieldX w)) ∧
      (v % 256 = 0x33 → decode w = .ldB (fieldX w)) ∧
      (v % 256 = 0x55 → decode w = .storeRegs (fieldX w)) ∧
      (v % 256 = 0x65 → decode w = .loadRegs (fieldX w)) ∧
      (v % 256 ∉ [0x07, 0x0A, 0x15, 0x18, 0x1E, 0x29, 0x33, 0x55, 0x65] →
        decode w = .noopGroupF (fieldX w) (fieldNN w) ∧ ∀ s, exec (decode w) s = .next s))

/-- For every well-formed instruction, with every operand at every value its type admits, the decoder
reads from its word, and from its two bytes followed by any bytes, exactly that instruction.
Derived from R94, R102, R103. -/
def Obligations.DecodeOfEncodeIsTheInstruction : Prop :=
  ∀ i : Instr, i.wf = true → decode (encode i) = i ∧
    ∀ rest : List Byte, decodeBytes (encodeBytes i ++ rest) = .ok (i, rest)

/-- Decoding is total: each of the 65536 words decodes to a well-formed instruction that keeps every
bit of the word. Derived from R94, R101, R104. -/
def Obligations.EncodeOfDecodeIsTheWord : Prop :=
  ∀ w : Word, (decode w).wf = true ∧ encode (decode w) = w

/-- For every word, the first row of the opcode map (mask, match values, excepted words, in the map's
order, at SKIP_NIBBLE = Ignore) that the word fits exists and has the mnemonic of the instruction
the decoder gives. Derived from R103, R104. -/
def Obligations.DecoderFollowsTheOpcodeMap : Prop :=
  ∀ w : Word, (opcodeMap.find? (rowCovers · w)).map (·.mnemonic) = some (decode w).mnemonic

/-! ## The cycle (spec/40_cycle.md) -/

/-- In a running state whose two bytes at PC exist and decode to the instruction i, i is well formed,
and the step is exec of i in that state with PC advanced by 2 (in PC_WIDTH bits, R6); a next
state of exec is ticked when it is still running and the instruction is not an FX0A with no key
pressed, and kept as it is otherwise. Derived from R123, R124, R125, R132. -/
def Obligations.StepRunsTheDecodedInstruction : Prop :=
  ∀ (s : State) (i : Instr), s.ready → decode s.word = i → i.wf = true ∧
    step s = match exec i { s with pc := s.pcPlusTwo } with
      | .next t => .next (if t.status = .running ∧ noKeyReturn i s = false then t.tick else t)
      | .fault f => .fault f
      | .refused r => .refused r

/-- In a state halted with a kind and an info, the step gives no next state but the fault with that
kind and info, and the cycle port leaves the state as it is and answers that fault. Rule R121. -/
def Obligations.HaltedCoreReturnsTheRecordedFault : Prop :=
  ∀ (s : State) (k : FaultKind) (info : Option Nat), s.status = .halted k info →
    step s = .fault (.halted k info) ∧ s.serve .cycle = (s, .fault k info)

/-- When PC is at most 0xFFE the fetched word is mem[PC] * 256 + mem[PC + 1]; when PC is above 0xFFE
a running core's step changes nothing but status, which records AddressOutOfRange with PC itself
if PC is above 0xFFF and PC + 1 otherwise. It is about states of this hardware (State.Nea: the
sizes of R6, every field of its size), which the invariant contains. Rule R122. -/
def Obligations.FetchReadsBigEndianOrFaults : Prop :=
  (∀ s : State, s.Nea → s.pc ≤ 0xFFE → ∃ w, s.fetch = .ok w ∧
    w.toNat = (s.memByte s.pc).toNat * 256 + (s.memByte (s.pc + 1)).toNat) ∧
  (∀ s : State, s.Nea → s.status = .running → 0xFFE < s.pc → ∃ t, step s = .next t ∧
    t.status = .halted .addressOutOfRange (some (if 0xFFF < s.pc then s.pc else s.pc + 1)) ∧
    Frame { status := true } s t)

/-- In a ready state whose instruction's execute step leaves the state t: if t is halted, or the
instruction is FX0A and no key is pressed, the step gives t itself; otherwise it gives t with
each timer one less, floor at 0, and nothing else changed. A cycle of a halted core gives no next
state at all. Rules R126, R127, R128. -/
def Obligations.TimersTickExactlyOnCompletion : Prop :=
  (∀ (s t : State), s.ready → exec (decode s.word) { s with pc := s.pcPlusTwo } = .next t →
    let noKey := (∃ x, decode s.word = .ldVxK x) ∧ ∀ k < s.params.sizes.nkeys, s.keyDown k = false
    ((t.status ≠ .running ∨ noKey) → step s = .next t) ∧
    (t.status = .running → ¬ noKey →
      ∃ u, step s = .next u ∧ u.dt = t.dt - 1 ∧ u.st = t.st - 1 ∧
        Frame { dt := true, st := true } t u)) ∧
  (∀ s : State, s.status ≠ .running → ∃ f, step s = .fault f)

/-- exec gives a next state for every instruction in every state: no instruction is refused, and a
fault an instruction raises is a next state too (the fault entry, log entry 2); so a step of a
running core always gives a next state, and its status is running or halted. Derived from R94,
R125, R284. -/
def Obligations.EveryInstructionAnswersNext : Prop :=
  (∀ (i : Instr) (s : State), ∃ t, exec i s = .next t) ∧
  (∀ s : State, s.status = .running → ∃ t, step s = .next t)

/-- If a state has the sizes of R6 with every field of its size, canonical memory, a stack of
STACK_CAPACITY entries with SP at most STACK_CAPACITY, PC at most 0x10FE, every stack entry at
most 0x1000, and a status a cycle can leave, then so has the state after a step. The bounds on PC
and the entries are those of R28, by which PC arithmetic never wraps; the canonical form of
memory is the model's own. Derived from R28, R31, R60, R277. -/
def Obligations.StepKeepsTheBlockInvariant : Prop :=
  ∀ s t : State, s.Inv → step s = .next t → t.Inv

/-- For every choice of parameters with the sizes of R6, and every seed, the state after reset
satisfies the invariant; State.reset is one of those states. Derived from R49, R300. -/
def Obligations.ResetStateMeetsTheInvariant : Prop :=
  (∀ (p : Config.Params) (seed : Nat), p.sizes = Config.nea → (State.resetWith p seed).Inv) ∧
  State.reset.Inv

/-! ## Reset and host operations (spec/70_reset_and_hazards.md, spec/10_state.md) -/

/-- After reset, for every choice of parameters that fit one another and have the sizes of R6: the 80
font bytes are at 0x000 to 0x04F and 0 is everywhere else in memory, V0 to VF and I are 0, PC is
0x200, SP and every stack entry are 0, DT and ST are 0, every display cell is 0, no key is
pressed, the draw flag is false and the core runs. The seed, which the spec leaves OPEN, is not
constrained. State.reset is such a state with the default parameters. Rule R49. -/
def Obligations.ResetGivesTheListedValues : Prop :=
  (∀ (p : Config.Params) (seed : Nat), p.wf = true → p.sizes = Config.nea →
    let s := State.resetWith p seed
    p.font.length = 80 ∧ (∀ (a : Nat) (h : a < p.font.length), s.memByte a = p.font[a]) ∧
    (∀ a : Nat, 0x04F < a → s.memByte a = 0#8) ∧
    s.v.length = 16 ∧ (∀ x, s.reg x = 0#8) ∧ s.i = 0 ∧ s.pc = 0x200 ∧ s.sp = 0 ∧
    s.stack.length = p.stackCapacity ∧ (∀ j, s.stackEntry j = 0) ∧ s.dt = 0 ∧ s.st = 0 ∧
    (∀ k, s.pixel k = false) ∧ s.key.length = 16 ∧ (∀ k, s.keyDown k = false) ∧
    s.drawFlag = false ∧ s.status = .running ∧ s.params = p) ∧
  (∃ seed, State.reset = State.resetWith paramsDefault seed)

/-- Two resets in a row with the same seed give the state of one; two states with the same parameters
reset to the same state; the state after reset runs, whatever the status before; the port answers
Ok. Rule R301. -/
def Obligations.ResetIsIdempotentAndRestarts : Prop :=
  ∀ (s t : State) (seed : Nat),
    (s.hostReset seed).hostReset seed = s.hostReset seed ∧
    (s.params = t.params → s.hostReset seed = t.hostReset seed) ∧
    (s.hostReset seed).status = .running ∧ s.serve (.reset seed) = (s.hostReset seed, .ok)

/-- For an image of L bytes: if L is above 3584 the port leaves the state as it is and answers
ProgramTooLarge with L; otherwise it answers Ok, mem[0x200 + j] is byte j for j below L, every
other byte of memory reads as before, and nothing but memory changes, whatever FONT_WRITE is. The
premise on memory is part of the invariant. It is about states of this hardware (State.Nea: the
sizes of R6, every field of its size), which the invariant contains. Rules R303, R304. -/
def Obligations.LoadCopiesTheImageOrRefusesIt : Prop :=
  ∀ (s : State) (bytes : List Byte), s.Nea →
    (3584 < bytes.length →
      s.load bytes = .error bytes.length ∧
      s.serve (.load bytes) = (s, .fault .programTooLarge (some bytes.length))) ∧
    (bytes.length ≤ 3584 → Memory.wf s.params s.mem = true →
      ∃ t, s.load bytes = .ok t ∧ s.serve (.load bytes) = (t, .ok) ∧ t = { s with mem := t.mem } ∧
        (∀ (j : Nat) (h : j < bytes.length), t.memByte (0x200 + j) = bytes[j]) ∧
        (∀ a, ¬ (0x200 ≤ a ∧ a < 0x200 + bytes.length) → t.memByte a = s.memByte a))

/-- After keyWrite of key k, with k in 0 to 15, every other key and every other piece of state is as
before and key k is as written; after drawFlagClear the draw flag is false and every other piece
of state is as before. It is about states of this hardware (State.Nea: the sizes of R6, every
field of its size), which the invariant contains. Rules R53, R54. -/
def Obligations.KeyAndDrawFlagPortsTouchOneFieldEach : Prop :=
  (∀ (s : State) (k : Nat) (b : Bool), s.Nea → k ≤ 15 → ∃ t, s.serve (.keyWrite k b) = (t, .ok) ∧
    t = { s with key := t.key } ∧ t.keyDown k = b ∧ ∀ j, j ≠ k → t.keyDown j = s.keyDown j) ∧
  (∀ s : State, s.serve .drawFlagClear = ({ s with drawFlag := false }, .ok))

/-- cycle, reset, load, keyWrite and drawFlagClear, each one atomic step, take every state that meets
the invariant to one that meets it. Derived from R50, R52, R55. -/
def Obligations.EveryRequestKeepsTheBlockInvariant : Prop :=
  ∀ (s : State) (r : Request), s.Inv → (s.serve r).1.Inv

/-- While status is halted, every request other than reset leaves status as it is, and cycle leaves
the whole state as it is; reset gives a running core. Derived from R281. -/
def Obligations.OnlyResetLeavesTheHaltedState : Prop :=
  ∀ (s : State) (k : FaultKind) (info : Option Nat), s.status = .halted k info →
    (∀ r : Request, (∀ seed, r ≠ .reset seed) → (s.serve r).1.status = .halted k info) ∧
    (s.serve .cycle).1 = s ∧ ∀ seed, (s.serve (.reset seed)).1.status = .running

/-! ## Rules of the whole machine -/

/-- The state after a step of a running core is not halted with UnknownInstruction, whatever the
info. Rule R272. -/
def Obligations.NoCycleRaisesUnknownInstruction : Prop :=
  ∀ (s t : State) (info : Option Nat), s.status = .running → step s = .next t →
    t.status ≠ .halted .unknownInstruction info

/-- If a step of a running core leaves status halted with k and info, then the state after it is the
state before with that status and with PC unchanged if the fetch failed (PC above 0xFFE) and
advanced by 2 otherwise; no timer ticked and no register, memory byte, display cell or stack
entry was written; the cycle port answers Fault(k, info). It is about states of this hardware
(State.Nea: the sizes of R6, every field of its size), which the invariant contains. Rule R279. -/
def Obligations.FaultingCycleChangesOnlyPcAndStatus : Prop :=
  ∀ (s t : State) (k : FaultKind) (info : Option Nat), s.Nea → s.status = .running →
    step s = .next t → t.status = .halted k info →
    t = { s with pc := if 0xFFE < s.pc then s.pc else s.pc + 2, status := .halted k info } ∧
    s.serve .cycle = (t, .fault k info)

/-- For every instruction, started running with PC = a + 2: if the execute step leaves the core
running, PC is NNN for 1NNN and 2NNN, the popped entry for 00EE, NNN + V0 for BNNN, two further
for a skip whose condition holds, a for FX0A with no key under Blocking, and a + 2 for everything
else; each in PC_WIDTH bits, 16 in this hardware (R28). Rule R27. -/
def Obligations.PcAfterEachInstruction : Prop :=
  ∀ (i : Instr) (s t : State), s.status = .running → exec i s = .next t → t.status = .running →
    t.pc = pcAfter i s

/-- If the execute step of an instruction changes I, the instruction is ANNN, FX1E or FX29; in
particular FX33, FX55, FX65 and DXYN leave I as it is. Rule R207. -/
def Obligations.OnlyThreeInstructionsWriteIndex : Prop :=
  ∀ (i : Instr) (s t : State), exec i s = .next t → t.i ≠ s.i →
    (∃ nnn, i = .ldI nnn) ∨ (∃ x, i = .addI x) ∨ (∃ x, i = .ldF x)

/-- If the execute step of an instruction changes a byte of memory, the instruction is FX33 and the
byte is one of I to I + 2, or it is FX55 and the byte is one of I to I + X. The premise on memory
is part of the invariant. Derived from R72, R67, R129. -/
def Obligations.OnlyTwoInstructionsWriteMemory : Prop :=
  ∀ (i : Instr) (s t : State) (a : Nat), Memory.wf s.params s.mem = true →
    exec i s = .next t → t.memByte a ≠ s.memByte a →
    (∃ x, i = .ldB x ∧ s.i ≤ a ∧ a ≤ s.i + 2) ∨
    (∃ x, i = .storeRegs x ∧ s.i ≤ a ∧ a ≤ s.i + x.val)

/-- If the execute step of an instruction changes the display or the draw flag, the instruction is
00E0 or DXYN, and a draw flag that changed is set. Derived from R40, R43. -/
def Obligations.OnlyTwoInstructionsTouchTheDisplay : Prop :=
  ∀ (i : Instr) (s t : State), exec i s = .next t → (t.disp ≠ s.disp ∨ t.drawFlag ≠ s.drawFlag) →
    (i = .cls ∨ ∃ x y n, i = .drw x y n) ∧ (t.drawFlag ≠ s.drawFlag → t.drawFlag = true)

/-- If the execute step of an instruction changes SP or a stack entry, it is 2NNN or 00EE; if it
changes DT it is FX15; if it changes ST it is FX18; no instruction changes the key buffer or the
parameters. (The tick is not part of the execute step.) Derived from R32, R36, R37, R42. -/
def Obligations.StackKeysAndTimersHaveTheirOwnWriters : Prop :=
  ∀ (i : Instr) (s t : State), exec i s = .next t →
    ((t.sp ≠ s.sp ∨ t.stack ≠ s.stack) → (∃ nnn, i = .call nnn) ∨ i = .ret) ∧
    (t.dt ≠ s.dt → ∃ x, i = .ldDtVx x) ∧ (t.st ≠ s.st → ∃ x, i = .ldStVx x) ∧
    t.key = s.key ∧ t.params = s.params

/-- If the execute step of an instruction changes VF, it is 8XY4, 8XY5, 8XY6, 8XY7, 8XYE, FX1E or
DXYN, or it has VF as its destination register: 6XNN, 7XNN, 8XY0, 8XY1, 8XY2, 8XY3, CXNN, FX07,
FX0A or FX65 with X = F. Derived from R22, R23. -/
def Obligations.VfIsWrittenOnlyAsFlagOrDestination : Prop :=
  ∀ (i : Instr) (s t : State), exec i s = .next t → t.reg 15 ≠ s.reg 15 →
    (∃ x y, i = .addReg x y ∨ i = .subReg x y ∨ i = .shrReg x y ∨ i = .subnReg x y ∨ i = .shlReg x y) ∨
    (∃ x, i = .addI x) ∨ (∃ x y n, i = .drw x y n) ∨
    (∃ nn, i = .ldByte 15 nn ∨ i = .addByte 15 nn ∨ i = .rnd 15 nn) ∨
    (∃ y, i = .ldReg 15 y ∨ i = .orReg 15 y ∨ i = .andReg 15 y ∨ i = .xorReg 15 y) ∨
    i = .ldVxDt 15 ∨ i = .ldVxK 15 ∨ i = .loadRegs 15

/-- If t is s but for stack entries at or above SP, then a step of s that gives a next state has a
step of t beside it that gives a state equal to it but for entries at or above the new SP. No
instruction can tell the two apart. Derived from R31, R32, R33, R34. -/
def Obligations.EntriesAboveTheTopAreUnobservable : Prop :=
  ∀ s t s' : State, SameBelowTop s t → step s = .next s' →
    ∃ t', step t = .next t' ∧ SameBelowTop s' t'

/-- For every instruction other than FX18, the execute step from a state whose ST was replaced by any
value gives the same state as before but with that ST; FX18 gives the same state whatever ST was.
Derived from R37. -/
def Obligations.SoundTimerIsReadByNoInstruction : Prop :=
  ∀ (i : Instr) (s t : State) (b : Nat), exec i s = .next t →
    ((∀ x, i ≠ .ldStVx x) → exec i (s.setSt b) = .next (t.setSt b)) ∧
    (∀ x, i = .ldStVx x → exec i (s.setSt b) = .next t)

/-- For 8XY4, 8XY5, 8XY6, 8XY7 and 8XYE with X and Y other than F, the execute step under either
value of VF_ORDER gives the same state but for that parameter. Derived from R171. -/
def Obligations.FlagOrdersAgreeAwayFromVf : Prop :=
  ∀ (s t : State) (x y : RegIdx) (i : Instr) (o : Config.VfOrder), x ≠ 15 → y ≠ 15 →
    i ∈ [Instr.addReg x y, .subReg x y, .shrReg x y, .subnReg x y, .shlReg x y] →
    exec i s = .next t →
    exec i { s with params := { s.params with vfOrder := o } } =
      .next { t with params := { t.params with vfOrder := o } }

/-! ## Control flow (spec/41_control_flow.md) and no-ops -/

/-- The execute step of 0NNN and of the no-ops of groups 8, E and F gives the state it started from,
and so do, under SKIP_NIBBLE = NoOp, 5XYN and 9XYN with N other than 0; a cycle that executes one
of the four advances PC by 2, ticks the timers and does nothing else. Rule R130. -/
def Obligations.NoOpsChangeNothing : Prop :=
  (∀ (s : State) (nnn : Addr12) (x y : RegIdx) (n : Nibble) (nn : Byte),
    exec (.sys nnn) s = .next s ∧ exec (.noopGroup8 x y n) s = .next s ∧
    exec (.noopGroupE x nn) s = .next s ∧ exec (.noopGroupF x nn) s = .next s ∧
    (s.params.skipNibble = .noOp → n ≠ 0#4 →
      exec (.seReg x y n) s = .next s ∧ exec (.sneReg x y n) s = .next s)) ∧
  (∀ s : State, s.ready →
    (∃ nnn x y n nn, decode s.word = .sys nnn ∨ decode s.word = .noopGroup8 x y n ∨
      decode s.word = .noopGroupE x nn ∨ decode s.word = .noopGroupF x nn ∨
      (s.params.skipNibble = .noOp ∧ n ≠ 0#4 ∧
        (decode s.word = .seReg x y n ∨ decode s.word = .sneReg x y n))) →
    step s = .next (State.tick { s with pc := s.pcPlusTwo }))

/-- The word 0x00EE alone decodes to it. With SP above 0 it completes: PC is the top entry unmasked,
SP one less, no entry changed, nothing else changed. With SP = 0 it takes the fault entry
StackUnderflow with no info, and nothing but status changes. It is about states of this hardware
(State.Nea: the sizes of R6, every field of its size), which the invariant contains. Rule R141. -/
def Obligations.ReturnPopsThePcOrUnderflows : Prop :=
  (∀ w : Word, decode w = .ret ↔ w = 0x00EE#16) ∧
  (∀ s : State, s.Nea → 0 < s.sp → ∃ t, exec .ret s = .next t ∧ t.pc = s.stackEntry (s.sp - 1) ∧
    t.sp = s.sp - 1 ∧ t.stack = s.stack ∧ Frame { pc := true, stack := true } s t) ∧
  (∀ s : State, s.sp = 0 → ∃ t, exec .ret s = .next t ∧ t.status = .halted .stackUnderflow none ∧
    Frame { status := true } s t)

/-- Every word with top nibble 2 decodes to it with its low 12 bits. With SP below STACK_CAPACITY it
completes: entry SP is the advanced PC, SP one more, PC is NNN, every other entry and everything
else as before. With SP = STACK_CAPACITY it takes the fault entry StackOverflow with the advanced
PC as info, and nothing but status changes. The premise on the stack's length is part of the
invariant. It is about states of this hardware (State.Nea: the sizes of R6, every field of its
size), which the invariant contains. Rule R143. -/
def Obligations.CallPushesThePcOrOverflows : Prop :=
  (∀ w : Word, w &&& 0xF000#16 = 0x2000#16 → decode w = .call (fieldNNN w)) ∧
  (∀ (s : State) (nnn : Addr12), s.Nea → s.sp < s.params.stackCapacity →
    s.stack.length = s.params.stackCapacity → ∃ t, exec (.call nnn) s = .next t ∧
      t.pc = nnn.toNat ∧ t.sp = s.sp + 1 ∧ t.stackEntry s.sp = s.pc ∧
      (∀ j, j ≠ s.sp → t.stackEntry j = s.stackEntry j) ∧ Frame { pc := true, stack := true } s t) ∧
  (∀ (s : State) (nnn : Addr12), s.sp = s.params.stackCapacity → ∃ t, exec (.call nnn) s = .next t ∧
    t.status = .halted .stackOverflow (some s.pc) ∧ Frame { status := true } s t)

/-- From SP = 0, pushing any STACK_CAPACITY addresses one after another succeeds and leaves SP =
STACK_CAPACITY; any further push fails, and a 2NNN there halts with StackOverflow; a pop of the
empty stack fails, and a 00EE there halts with StackUnderflow. Rule R35. -/
def Obligations.StackHoldsExactlyItsCapacity : Prop :=
  ∀ (s : State) (as : List Nat), s.sp = 0 → as.length = s.params.stackCapacity →
    (∃ t, as.foldlM State.push s = some t ∧ t.sp = s.params.stackCapacity ∧
      (∀ a, t.push a = none) ∧
      (∀ nnn, exec (.call nnn) t = .next (t.faultEntry .stackOverflow (some t.pc)))) ∧
    s.pop = none ∧ exec .ret s = .next (s.faultEntry .stackUnderflow none)

/-- When 2NNN completes and later, with the stack and SP as the call left them, 00EE is executed, PC
is the address after the call and SP is what it was before the call (spec/95_test_vectors.md S5).
It is about states of this hardware (State.Nea: the sizes of R6, every field of its size), which
the invariant contains. Derived from R141, R143. -/
def Obligations.CallThenReturnComesBack : Prop :=
  ∀ (s t u : State) (nnn : Addr12), s.Nea → s.sp < s.params.stackCapacity →
    s.stack.length = s.params.stackCapacity → exec (.call nnn) s = .next t →
    u.stack = t.stack → u.sp = t.sp → u.params = t.params → ∃ v, exec .ret u = .next v ∧ v.pc = s.pc ∧ v.sp = s.sp

/-- Every word with top nibble 1 or B decodes to its jump with its low 12 bits. 1NNN leaves PC = NNN;
BNNN leaves PC = NNN + V0 as an exact sum of at most 0x10FE. No flag is written and nothing else
changes; a target above 0xFFE faults in the next cycle of a running core, with the first address
that does not exist as info: 0x1000 for the target 0xFFF, and the target itself where it is above
0xFFF. It is about states of this hardware (State.Nea: the sizes of R6, every field of its size),
which the invariant contains. Rules R142, R148. -/
def Obligations.JumpsSetThePc : Prop :=
  (∀ w : Word, (w &&& 0xF000#16 = 0x1000#16 → decode w = .jp (fieldNNN w)) ∧
    (w &&& 0xF000#16 = 0xB000#16 → decode w = .jpV0 (fieldNNN w))) ∧
  (∀ (s : State) (nnn : Addr12), s.Nea → ∃ t, exec (.jp nnn) s = .next t ∧ t.pc = nnn.toNat ∧
    Frame { pc := true } s t ∧ (s.status = .running → nnn = 0xFFF#12 → ∃ u, step t = .next u ∧
      u.status = .halted .addressOutOfRange (some 0x1000))) ∧
  (∀ (s : State) (nnn : Addr12), s.Nea → ∃ t, exec (.jpV0 nnn) s = .next t ∧
    t.pc = nnn.toNat + (s.reg 0).toNat ∧ t.pc ≤ 0x10FE ∧ Frame { pc := true } s t ∧
    (s.status = .running → 0xFFE < t.pc → ∃ u, step t = .next u ∧
      u.status = .halted .addressOutOfRange (some (max t.pc 0x1000))))

/-- Every word with top nibble 3 or 4 decodes to its class with X and NN. PC goes two further when
the condition holds and stays otherwise, X = F included; nothing else changes. A running core
whose PC is 0x1002 faults at its next fetch. It is about states of this hardware (State.Nea: the
sizes of R6, every field of its size), which the invariant contains. Rules R144, R145. -/
def Obligations.ImmediateSkips : Prop :=
  (∀ w : Word, (w &&& 0xF000#16 = 0x3000#16 → decode w = .seByte (fieldX w) (fieldNN w)) ∧
    (w &&& 0xF000#16 = 0x4000#16 → decode w = .sneByte (fieldX w) (fieldNN w))) ∧
  (∀ (s : State) (x : RegIdx) (nn : Byte), s.Nea →
    (∃ t, exec (.seByte x nn) s = .next t ∧
      t.pc = (if s.reg x = nn then (s.pc + 2) % 65536 else s.pc) ∧ Frame { pc := true } s t) ∧
    (∃ t, exec (.sneByte x nn) s = .next t ∧
      t.pc = (if s.reg x ≠ nn then (s.pc + 2) % 65536 else s.pc) ∧ Frame { pc := true } s t)) ∧
  (∀ s : State, s.Nea → s.status = .running → s.pc = 0x1002 → ∃ t, step s = .next t ∧
    t.status = .halted .addressOutOfRange (some 0x1002))

/-- Every word with top nibble 5 or 9 decodes to its constructor with X, Y and N, whatever
SKIP_NIBBLE is: that is the model's choice (log entry 7), for R97 and R124 have the decoder look
at SKIP_NIBBLE, and make N other than 0 the no-op under NoOp. The execution follows the rules:
under SKIP_NIBBLE = Ignore, whatever N, and under NoOp with N = 0, PC goes two further when the
condition holds and stays otherwise; under NoOp with N other than 0 nothing changes. Nothing else
ever changes; X = Y always skips for 5XY0 and never for 9XY0. It is about states of this hardware
(State.Nea: the sizes of R6, every field of its size), which the invariant contains. Derived from
R97, R102, R124, R146, R147. -/
def Obligations.RegisterSkipsUnderEitherNibbleRule : Prop :=
  (∀ w : Word, (w &&& 0xF000#16 = 0x5000#16 → decode w = .seReg (fieldX w) (fieldY w) (fieldN w)) ∧
    (w &&& 0xF000#16 = 0x9000#16 → decode w = .sneReg (fieldX w) (fieldY w) (fieldN w))) ∧
  (∀ (s : State) (x y : RegIdx) (n : Nibble), s.Nea → s.params.skipNibble = .ignore ∨ n = 0#4 →
    (∃ t, exec (.seReg x y n) s = .next t ∧
      t.pc = (if s.reg x = s.reg y then (s.pc + 2) % 65536 else s.pc) ∧ Frame { pc := true } s t) ∧
    (∃ t, exec (.sneReg x y n) s = .next t ∧
      t.pc = (if s.reg x ≠ s.reg y then (s.pc + 2) % 65536 else s.pc) ∧ Frame { pc := true } s t)) ∧
  (∀ (s : State) (x y : RegIdx) (n : Nibble), s.params.skipNibble = .noOp → n ≠ 0#4 →
    exec (.seReg x y n) s = .next s ∧ exec (.sneReg x y n) s = .next s) ∧
  (∀ (s : State) (x : RegIdx), exec (.seReg x x 0#4) s = .next (s.setPc (s.pc + 2)) ∧
    exec (.sneReg x x 0#4) s = .next s)

/-! ## Loads and ALU (spec/42_alu.md) -/

/-- Every word of the three classes decodes to its class. 6XNN leaves Vx = NN, 7XNN leaves Vx = (Vx +
NN) mod 256, 8XY0 leaves Vx = Vy; every other register, VF among them unless X = F, and
everything else is as before. It is about states of this hardware (State.Nea: the sizes of R6,
every field of its size), which the invariant contains. Rules R172, R173, R174. -/
def Obligations.LoadsAndImmediateAddWriteVx : Prop :=
  (∀ w : Word, (w &&& 0xF000#16 = 0x6000#16 → decode w = .ldByte (fieldX w) (fieldNN w)) ∧
    (w &&& 0xF000#16 = 0x7000#16 → decode w = .addByte (fieldX w) (fieldNN w)) ∧
    (w &&& 0xF00F#16 = 0x8000#16 → decode w = .ldReg (fieldX w) (fieldY w))) ∧
  (∀ (s : State) (x y : RegIdx) (nn : Byte), s.Nea →
    (∃ t, exec (.ldByte x nn) s = .next t ∧ t.reg x = nn ∧ Frame { regs := [x] } s t) ∧
    (∃ t, exec (.addByte x nn) s = .next t ∧
      (t.reg x).toNat = ((s.reg x).toNat + nn.toNat) % 256 ∧ Frame { regs := [x] } s t) ∧
    (∃ t, exec (.ldReg x y) s = .next t ∧ t.reg x = s.reg y ∧ Frame { regs := [x] } s t))

/-- Every word of the three classes decodes to its class. Bit by bit, Vx becomes the OR, AND or XOR
of Vx and Vy; every other register, VF among them unless X = F, and everything else is as before;
X = Y leaves Vx as it is for OR and AND and makes it 0 for XOR. It is about states of this
hardware (State.Nea: the sizes of R6, every field of its size), which the invariant contains.
Rules R175, R176, R177. -/
def Obligations.BitwiseOperationsKeepVf : Prop :=
  (∀ w : Word, (w &&& 0xF00F#16 = 0x8001#16 → decode w = .orReg (fieldX w) (fieldY w)) ∧
    (w &&& 0xF00F#16 = 0x8002#16 → decode w = .andReg (fieldX w) (fieldY w)) ∧
    (w &&& 0xF00F#16 = 0x8003#16 → decode w = .xorReg (fieldX w) (fieldY w))) ∧
  (∀ (s : State) (x y : RegIdx), s.Nea →
    (∃ t, exec (.orReg x y) s = .next t ∧ Frame { regs := [x] } s t ∧ (x = y → t.reg x = s.reg x) ∧
      ∀ b, (t.reg x).getLsbD b = ((s.reg x).getLsbD b || (s.reg y).getLsbD b)) ∧
    (∃ t, exec (.andReg x y) s = .next t ∧ Frame { regs := [x] } s t ∧ (x = y → t.reg x = s.reg x) ∧
      ∀ b, (t.reg x).getLsbD b = ((s.reg x).getLsbD b && (s.reg y).getLsbD b)) ∧
    (∃ t, exec (.xorReg x y) s = .next t ∧ Frame { regs := [x] } s t ∧ (x = y → t.reg x = 0#8) ∧
      ∀ b, (t.reg x).getLsbD b = ((s.reg x).getLsbD b ^^ (s.reg y).getLsbD b)))

/-- Every word of the class decodes to it. With the old Vx and Vy: unless X = F under FlagLast, Vx is
their sum mod 256; unless X = F under Sequential, VF is 1 when the sum exceeds 255 and 0
otherwise. No other register and nothing else changes. It is about states of this hardware
(State.Nea: the sizes of R6, every field of its size), which the invariant contains. Rule R178. -/
def Obligations.AddWritesSumAndCarry : Prop :=
  (∀ w : Word, w &&& 0xF00F#16 = 0x8004#16 → decode w = .addReg (fieldX w) (fieldY w)) ∧
  (∀ (s : State) (x y : RegIdx), s.Nea → ∃ t, exec (.addReg x y) s = .next t ∧
    Frame { regs := [x, 15] } s t ∧
    let sum := (s.reg x).toNat + (s.reg y).toNat
    (¬ (x = 15 ∧ s.params.vfOrder = .flagLast) → (t.reg x).toNat = sum % 256) ∧
    (¬ (x = 15 ∧ s.params.vfOrder = .sequential) → (t.reg 15).toNat = if sum > 255 then 1 else 0))

/-- Every word of the class decodes to it. With a, b the old Vx, Vy and c = 0 if b > a else 1: away
from VF, Vx = (a - b) mod 256 and VF = c under both orders; with X = F or Y = F the registers end
as R179's corner cases list them for each order. No other register and nothing else changes. It
is about states of this hardware (State.Nea: the sizes of R6, every field of its size), which the
invariant contains. Rule R179. -/
def Obligations.SubtractWritesDifferenceAndNotBorrow : Prop :=
  (∀ w : Word, w &&& 0xF00F#16 = 0x8005#16 → decode w = .subReg (fieldX w) (fieldY w)) ∧
  (∀ (s : State) (x y : RegIdx), s.Nea → ∃ t, exec (.subReg x y) s = .next t ∧
    Frame { regs := [x, 15] } s t ∧
    let a : Int := (s.reg x).toNat
    let b : Int := (s.reg y).toNat
    let c : Int := if b > a then 0 else 1
    let p : Int := (t.reg x).toNat
    let f : Int := (t.reg 15).toNat
    (s.params.vfOrder = .flagLast → f = c ∧ (x ≠ 15 → p = (a - b) % 256)) ∧
    (s.params.vfOrder = .sequential →
      (x ≠ 15 → y ≠ 15 → p = (a - b) % 256 ∧ f = c) ∧
      (x = 15 → y ≠ 15 → f = (c - b) % 256) ∧
      (x ≠ 15 → y = 15 → p = (a - c) % 256 ∧ f = c) ∧
      (x = 15 → y = 15 → f = 0)))

/-- Every word of the class decodes to it. With a, b the old Vx, Vy and c = 0 if a > b else 1: away
from VF, Vx = (b - a) mod 256 and VF = c under both orders; with X = F or Y = F the registers end
as R181's corner cases list them for each order. No other register and nothing else changes. It
is about states of this hardware (State.Nea: the sizes of R6, every field of its size), which the
invariant contains. Rule R181. -/
def Obligations.ReverseSubtractWritesDifferenceAndNotBorrow : Prop :=
  (∀ w : Word, w &&& 0xF00F#16 = 0x8007#16 → decode w = .subnReg (fieldX w) (fieldY w)) ∧
  (∀ (s : State) (x y : RegIdx), s.Nea → ∃ t, exec (.subnReg x y) s = .next t ∧
    Frame { regs := [x, 15] } s t ∧
    let a : Int := (s.reg x).toNat
    let b : Int := (s.reg y).toNat
    let c : Int := if a > b then 0 else 1
    let p : Int := (t.reg x).toNat
    let f : Int := (t.reg 15).toNat
    (s.params.vfOrder = .flagLast → f = c ∧ (x ≠ 15 → p = (b - a) % 256)) ∧
    (s.params.vfOrder = .sequential →
      (x ≠ 15 → y ≠ 15 → p = (b - a) % 256 ∧ f = c) ∧
      (x = 15 → y ≠ 15 → f = (b - c) % 256) ∧
      (x ≠ 15 → y = 15 → p = (c - a) % 256 ∧ f = c) ∧
      (x = 15 → y = 15 → f = 0)))

/-- Every word of the two classes decodes to its class. With a the old Vx: 8XY6 leaves Vx = a / 2 and
VF = a mod 2, 8XYE leaves Vx = 2a mod 256 and VF = a / 128; with X = F the register ends as the
shifted flag under Sequential (0, or twice the bit) and as the bit under FlagLast. Vy has no
influence, and no other register and nothing else changes. It is about states of this hardware
(State.Nea: the sizes of R6, every field of its size), which the invariant contains. Rules R180,
R182. -/
def Obligations.ShiftsWriteTheBitShiftedOut : Prop :=
  (∀ w : Word, (w &&& 0xF00F#16 = 0x8006#16 → decode w = .shrReg (fieldX w) (fieldY w)) ∧
    (w &&& 0xF00F#16 = 0x800E#16 → decode w = .shlReg (fieldX w) (fieldY w))) ∧
  (∀ (s : State) (x y : RegIdx), s.Nea → ∃ t, exec (.shrReg x y) s = .next t ∧
    (∀ z, exec (.shrReg x z) s = .next t) ∧ Frame { regs := [x, 15] } s t ∧
    let a := (s.reg x).toNat
    (x ≠ 15 → (t.reg x).toNat = a / 2 ∧ (t.reg 15).toNat = a % 2) ∧
    (x = 15 → s.params.vfOrder = .sequential → (t.reg 15).toNat = 0) ∧
    (x = 15 → s.params.vfOrder = .flagLast → (t.reg 15).toNat = a % 2)) ∧
  (∀ (s : State) (x y : RegIdx), s.Nea → ∃ t, exec (.shlReg x y) s = .next t ∧
    (∀ z, exec (.shlReg x z) s = .next t) ∧ Frame { regs := [x, 15] } s t ∧
    let a := (s.reg x).toNat
    (x ≠ 15 → (t.reg x).toNat = 2 * a % 256 ∧ (t.reg 15).toNat = a / 128) ∧
    (x = 15 → s.params.vfOrder = .sequential → (t.reg 15).toNat = 2 * (a / 128)) ∧
    (x = 15 → s.params.vfOrder = .flagLast → (t.reg 15).toNat = a / 128))

/-- Every word with top nibble C decodes to it. Vx becomes the draw AND NN, so every bit that is 0 in
NN is 0; the random source advances by one draw whatever NN is; no other register and nothing
else changes. The draw is the model's free value (log entry 4): the statement holds whatever byte
it is. It is about states of this hardware (State.Nea: the sizes of R6, every field of its size),
which the invariant contains. Derived from R190, R45. -/
def Obligations.RandomByteIsOneFreshDrawMasked : Prop :=
  (∀ w : Word, w &&& 0xF000#16 = 0xC000#16 → decode w = .rnd (fieldX w) (fieldNN w)) ∧
  (∀ (s : State) (x : RegIdx) (nn : Byte), s.Nea → ∃ t, exec (.rnd x nn) s = .next t ∧
    (∀ b, (t.reg x).getLsbD b = ((Config.draw s.rng).getLsbD b && nn.getLsbD b)) ∧
    (nn = 0#8 → t.reg x = 0#8) ∧ t.rng = s.rng + 1 ∧ Frame { regs := [x], rng := true } s t)

/-! ## Index register and memory (spec/43_index_memory.md) -/

/-- Every word of the two classes decodes to its class. ANNN leaves I = NNN; FX29 leaves I = 5 * Vx
for every value of Vx, not reduced to a digit; nothing else changes. It is about states of this
hardware (State.Nea: the sizes of R6, every field of its size), which the invariant contains.
Rules R201, R203. -/
def Obligations.IndexLoadsAreExact : Prop :=
  (∀ w : Word, (w &&& 0xF000#16 = 0xA000#16 → decode w = .ldI (fieldNNN w)) ∧
    (w &&& 0xF0FF#16 = 0xF029#16 → decode w = .ldF (fieldX w))) ∧
  (∀ (s : State) (nnn : Addr12), s.Nea → ∃ t, exec (.ldI nnn) s = .next t ∧ t.i = nnn.toNat ∧
    Frame { index := true } s t) ∧
  (∀ (s : State) (x : RegIdx), s.Nea → ∃ t, exec (.ldF x) s = .next t ∧ t.i = (s.reg x).toNat * 5 ∧
    Frame { index := true } s t)

/-- Every word of the class decodes to it. I becomes (I + Vx) mod 65536 with the old Vx, VF included
when X = F; VF becomes 1 if the new I is above 0xFFF and 0 otherwise, under either VF_ORDER;
nothing else changes. It is about states of this hardware (State.Nea: the sizes of R6, every
field of its size), which the invariant contains. Rule R202. -/
def Obligations.IndexAddIsUnmaskedAndSetsVf : Prop :=
  (∀ w : Word, w &&& 0xF0FF#16 = 0xF01E#16 → decode w = .addI (fieldX w)) ∧
  (∀ (s : State) (x : RegIdx), s.Nea → ∃ t, exec (.addI x) s = .next t ∧
    t.i = (s.i + (s.reg x).toNat) % 65536 ∧
    (t.reg 15).toNat = (if t.i > 0xFFF then 1 else 0) ∧
    Frame { regs := [15], index := true } s t)

/-- Every word of the class decodes to it. When I + 2 is at most 0xFFF and, under FONT_WRITE = Fault,
I is above 0x04F, the three bytes are Vx / 100, Vx / 10 mod 10 and Vx mod 10, every other byte
and everything else as before. Otherwise the fault entry AddressOutOfRange records the first
failing address and nothing but status changes. The premise on memory is part of the invariant.
It is about states of this hardware (State.Nea: the sizes of R6, every field of its size), which
the invariant contains. Rule R204. -/
def Obligations.DecimalDigitsGoToThreeBytes : Prop :=
  (∀ w : Word, w &&& 0xF0FF#16 = 0xF033#16 → decode w = .ldB (fieldX w)) ∧
  (∀ (s : State) (x : RegIdx), s.Nea → Memory.wf s.params s.mem = true → s.i + 2 ≤ 0xFFF →
    (s.params.fontWrite = .fault → 0x04F < s.i) → ∃ t, exec (.ldB x) s = .next t ∧
      (t.memByte s.i).toNat = (s.reg x).toNat / 100 ∧
      (t.memByte (s.i + 1)).toNat = (s.reg x).toNat / 10 % 10 ∧
      (t.memByte (s.i + 2)).toNat = (s.reg x).toNat % 10 ∧
      Frame { mem := span s.i 3 } s t) ∧
  (∀ (s : State) (x : RegIdx), s.Nea → 0xFFF < s.i + 2 → ∃ t, exec (.ldB x) s = .next t ∧
    t.status = .halted .addressOutOfRange (some (max s.i 0x1000)) ∧
    Frame { status := true } s t) ∧
  (∀ (s : State) (x : RegIdx), s.Nea → s.params.fontWrite = .fault → s.i ≤ 0x04F →
    ∃ t, exec (.ldB x) s = .next t ∧ t.status = .halted .addressOutOfRange (some s.i) ∧
      Frame { status := true } s t)

/-- Every word of the class decodes to it. When I + X is at most 0xFFF and, under FONT_WRITE = Fault,
I is above 0x04F, byte I + k is V[k] for every k up to X, every other byte and everything else, I
among it, as before. Otherwise the fault entry AddressOutOfRange records the first failing
address and nothing but status changes. The premise on memory is part of the invariant. It is
about states of this hardware (State.Nea: the sizes of R6, every field of its size), which the
invariant contains. Rule R205. -/
def Obligations.StoreRegistersCopiesV0ToVx : Prop :=
  (∀ w : Word, w &&& 0xF0FF#16 = 0xF055#16 → decode w = .storeRegs (fieldX w)) ∧
  (∀ (s : State) (x : RegIdx), s.Nea → Memory.wf s.params s.mem = true → s.i + x.val ≤ 0xFFF →
    (s.params.fontWrite = .fault → 0x04F < s.i) → ∃ t, exec (.storeRegs x) s = .next t ∧
      (∀ k : RegIdx, k ≤ x → t.memByte (s.i + k.val) = s.reg k) ∧
      Frame { mem := span s.i (x.val + 1) } s t) ∧
  (∀ (s : State) (x : RegIdx), s.Nea → 0xFFF < s.i + x.val → ∃ t, exec (.storeRegs x) s = .next t ∧
    t.status = .halted .addressOutOfRange (some (max s.i 0x1000)) ∧
    Frame { status := true } s t) ∧
  (∀ (s : State) (x : RegIdx), s.Nea → s.params.fontWrite = .fault → s.i ≤ 0x04F →
    ∃ t, exec (.storeRegs x) s = .next t ∧ t.status = .halted .addressOutOfRange (some s.i) ∧
      Frame { status := true } s t)

/-- Every word of the class decodes to it. When I + X is at most 0xFFF, V[k] is byte I + k for every
k up to X, every other register and everything else, I among it, as before. Otherwise the fault
entry AddressOutOfRange records the first failing address and nothing but status changes. Storing
V0 to Vx and loading them again with the same I, memory and X gives back what was stored,
whatever the registers held in between. It is about states of this hardware (State.Nea: the sizes
of R6, every field of its size), which the invariant contains. Rule R206. -/
def Obligations.LoadRegistersCopiesToV0ToVx : Prop :=
  (∀ w : Word, w &&& 0xF0FF#16 = 0xF065#16 → decode w = .loadRegs (fieldX w)) ∧
  (∀ (s : State) (x : RegIdx), s.Nea → s.i + x.val ≤ 0xFFF → ∃ t, exec (.loadRegs x) s = .next t ∧
    (∀ k : RegIdx, k ≤ x → t.reg k = s.memByte (s.i + k.val)) ∧
    Frame { regs := regsUpTo x } s t ∧ (∀ k : RegIdx, x < k → t.reg k = s.reg k)) ∧
  (∀ (s : State) (x : RegIdx), s.Nea → 0xFFF < s.i + x.val → ∃ t, exec (.loadRegs x) s = .next t ∧
    t.status = .halted .addressOutOfRange (some (max s.i 0x1000)) ∧
    Frame { status := true } s t) ∧
  (∀ (s t u : State) (x : RegIdx), s.Nea → Memory.wf s.params s.mem = true → s.i + x.val ≤ 0xFFF →
    (s.params.fontWrite = .fault → 0x04F < s.i) → exec (.storeRegs x) s = .next t →
    u.mem = t.mem → u.i = t.i → u.params = t.params → u.Nea →
    ∃ v, exec (.loadRegs x) u = .next v ∧ ∀ k : RegIdx, k ≤ x → v.reg k = s.reg k)

/-! ## Display (spec/44_display.md) -/

/-- The word 0x00E0 alone decodes to it. Every cell reads 0, the draw flag is true, and VF and
everything else is as before. Rule R231. -/
def Obligations.ClearTurnsEveryCellOff : Prop :=
  (∀ w : Word, decode w = .cls ↔ w = 0x00E0#16) ∧
  (∀ s : State, ∃ t, exec .cls s = .next t ∧ (∀ k, t.pixel k = false) ∧ t.drawFlag = true ∧
    Frame { disp := true, drawFlag := true } s t)

/-- Every word with top nibble D decodes to it. With every row address in memory (or N = 0) and,
under LinearSpill, every set bit's index below 2048, the row-by-row plotting completes: a cell is
toggled exactly when a set bit targets it from the start (Vx mod 64, Vy mod 32) read before VF is
reset (under Clip inside the grid only, under LinearSpill by the unwrapped index), VF is 1
exactly when a toggled cell was on before and 0 otherwise, the draw flag is set, and nothing else
changes. When N is at least 1 and I + N - 1 is above 0xFFF, under either SPRITE_EDGE, the fault
entry AddressOutOfRange records the first failing address; under LinearSpill with the addresses
in memory and an index of 2048 or more, the fault entry DisplayIndexOutOfRange records the index
of the first such set bit, rows first; in both nothing but status changes. It is about states of
this hardware (State.Nea: the sizes of R6, every field of its size), which the invariant
contains. Rules R232, R233, R234, R235. -/
def Obligations.DrawTogglesTheSpriteAndReportsCollision : Prop :=
  (∀ w : Word, w &&& 0xF000#16 = 0xD000#16 → decode w = .drw (fieldX w) (fieldY w) (fieldN w)) ∧
  (∀ (s : State) (x y : RegIdx) (n : Nibble), s.Nea → (n = 0#4 ∨ s.i + n.toNat ≤ 0x1000) →
    (s.params.spriteEdge = .linearSpill → ∀ k, spillCovers s x y n.toNat k → k < 2048) →
    ∃ t, exec (.drw x y n) s = .next t ∧
      (∀ k, drawCovers s x y n.toNat k → t.pixel k = !s.pixel k) ∧
      (∀ k, ¬ drawCovers s x y n.toNat k → t.pixel k = s.pixel k) ∧
      (t.reg 15 = 1#8 ↔ ∃ k, drawCovers s x y n.toNat k ∧ s.pixel k = true) ∧
      (t.reg 15 = 0#8 ∨ t.reg 15 = 1#8) ∧ t.drawFlag = true ∧
      Frame { regs := [15], disp := true, drawFlag := true } s t) ∧
  (∀ (s : State) (x y : RegIdx) (n : Nibble), s.Nea → n ≠ 0#4 → 0x1000 < s.i + n.toNat →
    ∃ t, exec (.drw x y n) s = .next t ∧
      t.status = .halted .addressOutOfRange (some (max s.i 0x1000)) ∧
      Frame { status := true } s t) ∧
  (∀ (s : State) (x y : RegIdx) (n : Nibble) (r c : Nat), s.Nea → s.params.spriteEdge = .linearSpill →
    s.i + n.toNat ≤ 0x1000 → r < n.toNat → c < 8 → spriteHas s r c →
    2048 ≤ spriteCell s x y r c →
    (∀ r' c', r' < n.toNat → c' < 8 → spriteHas s r' c' → (r' < r ∨ (r' = r ∧ c' < c)) →
      spriteCell s x y r' c' < 2048) →
    ∃ t, exec (.drw x y n) s = .next t ∧
      t.status = .halted .displayIndexOutOfRange (some (spriteCell s x y r c)) ∧
      Frame { status := true } s t)

/-- With X and Y other than F, when DXYN completes and is executed again at once, the display is what
it was before the first; from a blank display the first leaves VF = 0, and the second leaves VF =
1 exactly when the first turned some cell on (spec/95_test_vectors.md S8). It is about states of
this hardware (State.Nea: the sizes of R6, every field of its size), which the invariant
contains. Derived from R232, R235. -/
def Obligations.DrawingTwiceRestoresTheDisplay : Prop :=
  ∀ (s t : State) (x y : RegIdx) (n : Nibble), s.Nea → x ≠ 15 → y ≠ 15 → s.status = .running →
    exec (.drw x y n) s = .next t → t.status = .running →
    ∃ u, exec (.drw x y n) t = .next u ∧ u.status = .running ∧ u.disp = s.disp ∧
      (s.disp = 0 → t.reg 15 = 0#8 ∧ (u.reg 15 = 1#8 ↔ t.disp ≠ 0))

/-! ## Keys and timers (spec/45_keys_timers.md) -/

/-- Every word of the two classes decodes to its class. With Vx at most 15, PC goes two further when
the key's state is the one the instruction asks for and stays otherwise, and nothing else
changes. With Vx above 15, the fault entry KeyIndexOutOfRange records Vx and nothing but status
changes. It is about states of this hardware (State.Nea: the sizes of R6, every field of its
size), which the invariant contains. Rules R251, R252. -/
def Obligations.KeySkipsReadTheNumberedKey : Prop :=
  (∀ w : Word, (w &&& 0xF0FF#16 = 0xE09E#16 → decode w = .skp (fieldX w)) ∧
    (w &&& 0xF0FF#16 = 0xE0A1#16 → decode w = .sknp (fieldX w))) ∧
  (∀ (s : State) (x : RegIdx) (k : Nat), s.Nea → (s.reg x).toNat = k → k ≤ 15 →
    (∃ t, exec (.skp x) s = .next t ∧
      t.pc = (if s.keyDown k = true then (s.pc + 2) % 65536 else s.pc) ∧ Frame { pc := true } s t) ∧
    (∃ t, exec (.sknp x) s = .next t ∧
      t.pc = (if s.keyDown k = false then (s.pc + 2) % 65536 else s.pc) ∧ Frame { pc := true } s t)) ∧
  (∀ (s : State) (x : RegIdx), s.Nea → 15 < (s.reg x).toNat →
    (∃ t, exec (.skp x) s = .next t ∧
      t.status = .halted .keyIndexOutOfRange (some (s.reg x).toNat) ∧ Frame { status := true } s t) ∧
    (∃ t, exec (.sknp x) s = .next t ∧
      t.status = .halted .keyIndexOutOfRange (some (s.reg x).toNat) ∧ Frame { status := true } s t))

/-- Every word of the class decodes to it. When k is pressed and no higher key is, Vx becomes k and
nothing else changes, and the cycle ticks. With no key pressed, nothing changes under KEY_WAIT =
Reference and PC goes back by 2 under Blocking; a cycle of a ready core that executes it then
leaves PC = a + 2 under Reference and PC = a under Blocking, and everything else, the timers
among it, as before. It is about states of this hardware (State.Nea: the sizes of R6, every field
of its size), which the invariant contains. Rule R254. -/
def Obligations.WaitForKeyTakesTheHighestKey : Prop :=
  (∀ w : Word, w &&& 0xF0FF#16 = 0xF00A#16 → decode w = .ldVxK (fieldX w)) ∧
  (∀ (s : State) (x : RegIdx) (k : Nat), s.Nea → s.keyDown k = true →
    (∀ j, k < j → s.keyDown j = false) →
    ∃ t, exec (.ldVxK x) s = .next t ∧ (t.reg x).toNat = k ∧ Frame { regs := [x] } s t) ∧
  (∀ (s : State) (x : RegIdx) (k : Nat), s.Nea → s.ready → decode s.word = .ldVxK x →
    s.keyDown k = true → ∃ t, step s = .next t ∧ t.dt = s.dt - 1 ∧ t.st = s.st - 1) ∧
  (∀ (s : State) (x : RegIdx), s.Nea → (∀ k, s.keyDown k = false) →
    ∃ t, exec (.ldVxK x) s = .next t ∧ (t.pc : Int) =
      (match s.params.keyWait with | .reference => s.pc | .blocking => ((s.pc : Int) - 2) % 65536) ∧
    Frame { pc := true } s t) ∧
  (∀ (s : State) (x : RegIdx), s.Nea → s.ready → decode s.word = .ldVxK x →
    (∀ k, s.keyDown k = false) → ∃ t, step s = .next t ∧
      t.pc = (match s.params.keyWait with | .reference => s.pc + 2 | .blocking => s.pc) ∧
      Frame { pc := true } s t)

/-- Every word of the three classes decodes to its class. In the execute step FX07 leaves Vx = DT,
FX15 leaves DT = Vx and FX18 leaves ST = Vx, and nothing else changes. After a whole cycle of a
ready core FX07 has left the old DT in Vx and DT one less, FX15 has left DT = Vx - 1 and FX18 ST
= Vx - 1, floor at 0. It is about states of this hardware (State.Nea: the sizes of R6, every
field of its size), which the invariant contains. Rules R253, R255, R256. -/
def Obligations.TimerTransfersAndTheirTick : Prop :=
  (∀ w : Word, (w &&& 0xF0FF#16 = 0xF007#16 → decode w = .ldVxDt (fieldX w)) ∧
    (w &&& 0xF0FF#16 = 0xF015#16 → decode w = .ldDtVx (fieldX w)) ∧
    (w &&& 0xF0FF#16 = 0xF018#16 → decode w = .ldStVx (fieldX w))) ∧
  (∀ (s : State) (x : RegIdx), s.Nea →
    (∃ t, exec (.ldVxDt x) s = .next t ∧ (t.reg x).toNat = s.dt ∧ Frame { regs := [x] } s t) ∧
    (∃ t, exec (.ldDtVx x) s = .next t ∧ t.dt = (s.reg x).toNat ∧ Frame { dt := true } s t) ∧
    (∃ t, exec (.ldStVx x) s = .next t ∧ t.st = (s.reg x).toNat ∧ Frame { st := true } s t)) ∧
  (∀ (s : State) (x : RegIdx), s.Nea → s.ready →
    (decode s.word = .ldVxDt x → ∃ t, step s = .next t ∧ (t.reg x).toNat = s.dt ∧
      t.dt = s.dt - 1) ∧
    (decode s.word = .ldDtVx x → ∃ t, step s = .next t ∧ t.dt = (s.reg x).toNat - 1) ∧
    (decode s.word = .ldStVx x → ∃ t, step s = .next t ∧ t.st = (s.reg x).toNat - 1))

/-! ## The parameters (spec/00_scope.md R6) -/

/-- For any parameters at all, those of R6 or others: if there are NREGS registers and NKEYS keys, I,
PC, the stack entries, DT and ST are below 2 to their width, the display is within DISPLAY_W *
DISPLAY_H cells, memory is canonical within MEM_SIZE, and the stack has STACK_CAPACITY entries
with SP at most that, then so it is after a step, with the same parameters. The canonical form of
memory is the model's own (log entry 5), and that sizes other than R6's run as these do is the
model's choice (log entry 13). Derived from R6, R8, R31, R60. -/
def Obligations.StepKeepsEveryFieldInItsParameters : Prop :=
  ∀ s t : State, s.Bounded → step s = .next t → t.Bounded ∧ t.params = s.params

/-- For any parameters that fit one another (log entry 13): the state after reset has every field
within the sizes they give it, and cycle, reset, load, keyWrite and drawFlagClear keep it so and
keep the parameters. Derived from R6, R49, R50, R300. -/
def Obligations.RequestsKeepEveryFieldInItsParameters : Prop :=
  (∀ (p : Config.Params) (seed : Nat), p.wf = true → (State.resetWith p seed).Bounded) ∧
  (∀ (s : State) (r : Request), s.params.wf = true → s.Bounded →
    (s.serve r).1.Bounded ∧ (s.serve r).1.params = s.params)

/-- State.reset has the value R6 gives for each size, for STACK_CAPACITY and for each choice. For a
state of any sizes, each within its field: a fetch or FX65 past MEM_SIZE faults; reset puts FONT
at FONT_BASE to FONT_END, and under FONT_WRITE = Fault FX33 faults up to FONT_END; load refuses
more than PROGRAM_MAX bytes and else puts them at PROGRAM_BASE; 6XNN writes a register below
NREGS; FX1E is mod 2 to I_WIDTH and BNNN mod 2 to PC_WIDTH; reset sets PC to PC_RESET; a one-cell
sprite toggles the cell of its column mod DISPLAY_W and row mod DISPLAY_H; EX9E faults from NKEYS
on; FX15 and FX18 are mod 2 to TIMER_WIDTH. How sizes other than R6's behave is the model's
choice (log entry 13). Derived from R6, R8. -/
def Obligations.EachSizeGovernsTheMachine : Prop :=
  (State.reset.params.sizes =
      { memSize := 4096, fontBase := 0x000, fontEnd := 0x04F, programBase := 0x200, programMax := 3584,
        nregs := 16, iWidth := 16, pcWidth := 16, pcReset := 0x200, displayW := 64, displayH := 32,
        nkeys := 16, timerWidth := 8 } ∧
    State.reset.params.stackCapacity = 16 ∧ State.reset.params.vfOrder = .sequential ∧
    State.reset.params.keyWait = .reference ∧ State.reset.params.spriteEdge = .clip ∧
    State.reset.params.fontWrite = .store ∧ State.reset.params.skipNibble = .ignore) ∧
  (∀ (p : Config.Params) (seed : Nat), (State.resetWith p seed).pc = p.sizes.pcReset ∧
    ∀ a, (State.resetWith p seed).memByte a =
      if p.sizes.fontBase ≤ a ∧ a ≤ p.sizes.fontEnd then (p.font[a - p.sizes.fontBase]?).getD 0#8
      else 0#8) ∧
  (∀ (s : State) (x y : RegIdx) (nn : Byte) (nnn : Addr12) (bytes : List Byte), s.Bounded →
    let z := s.params.sizes
    (s.status = .running → z.memSize ≤ s.pc + 1 → step s =
      .next (s.faultEntry .addressOutOfRange (some (max s.pc z.memSize)))) ∧
    (z.memSize ≤ s.i + x.val → exec (.loadRegs x) s =
      .next (s.faultEntry .addressOutOfRange (some (max s.i z.memSize)))) ∧
    (s.params.fontWrite = .fault → s.i ≤ z.fontEnd → exec (.ldB x) s =
      .next (s.faultEntry .addressOutOfRange (some s.i))) ∧
    (z.programMax < bytes.length → s.load bytes = .error bytes.length) ∧
    (bytes.length ≤ z.programMax → ∃ t, s.load bytes = .ok t ∧
      ∀ (j : Nat) (h : j < bytes.length), t.memByte (z.programBase + j) = bytes[j]) ∧
    (x.val < z.nregs → ∃ t, exec (.ldByte x nn) s = .next t ∧ t.reg x = nn) ∧
    (∃ t, exec (.addI x) s = .next t ∧ t.i = (s.i + (s.reg x).toNat) % 2 ^ z.iWidth) ∧
    (∃ t, exec (.jpV0 nnn) s = .next t ∧ t.pc = (nnn.toNat + (s.reg 0).toNat) % 2 ^ z.pcWidth) ∧
    (0 < z.displayW → 0 < z.displayH → s.i < z.memSize → s.memByte s.i = 0x80#8 →
      ∃ t, exec (.drw x y 1#4) s = .next t ∧ ∀ k, t.pixel k =
        (s.pixel k ^^ decide (k = (s.reg y).toNat % z.displayH * z.displayW +
          (s.reg x).toNat % z.displayW))) ∧
    (z.nkeys ≤ (s.reg x).toNat → exec (.skp x) s =
      .next (s.faultEntry .keyIndexOutOfRange (some (s.reg x).toNat))) ∧
    (∃ t, exec (.ldDtVx x) s = .next t ∧ t.dt = (s.reg x).toNat % 2 ^ z.timerWidth) ∧
    (∃ t, exec (.ldStVx x) s = .next t ∧ t.st = (s.reg x).toNat % 2 ^ z.timerWidth))
end

