-- ==== Sys2Proof/Laws/Decode.lean ====
section
/-! SUPPORT. The fields of a word as numbers, the fields of a packed word, and what a mask and a match
say about a word's fields (spec/30_encoding.md R91, R92, R103). -/

namespace Sys2Proof

/-! ## Fields as numbers (R92) -/

theorem topNibble_toNat (w : Word) : (topNibble w).toNat = w.toNat / 4096 := by
  have := w.isLt
  simp only [topNibble, BitVec.extractLsb'_toNat, Nat.shiftRight_eq_div_pow]
  omega

theorem fieldX_val (w : Word) : (fieldX w).val = w.toNat / 256 % 16 := by
  simp [fieldX, Nat.shiftRight_eq_div_pow]

theorem fieldY_val (w : Word) : (fieldY w).val = w.toNat / 16 % 16 := by
  simp [fieldY, Nat.shiftRight_eq_div_pow]

theorem fieldN_toNat (w : Word) : (fieldN w).toNat = w.toNat % 16 := by simp [fieldN]

theorem fieldNN_toNat (w : Word) : (fieldNN w).toNat = w.toNat % 256 := by simp [fieldNN]

theorem fieldNNN_toNat (w : Word) : (fieldNNN w).toNat = w.toNat % 4096 := by simp [fieldNNN]

/-! ## A mask that keeps a field (R103) -/

theorem topNibble_of_mask {w m v : Word} (h : w &&& m = v) (hm : topNibble m = 0xF#4) :
    topNibble w = topNibble v := by
  rw [← h]
  simp only [topNibble] at hm ⊢
  rw [BitVec.extractLsb'_and, hm]
  exact (BitVec.and_allOnes).symm

theorem fieldN_of_mask {w m v : Word} (h : w &&& m = v) (hm : fieldN m = 0xF#4) :
    fieldN w = fieldN v := by
  rw [← h]
  simp only [fieldN] at hm ⊢
  rw [BitVec.extractLsb'_and, hm]
  exact (BitVec.and_allOnes).symm

theorem fieldNN_of_mask {w m v : Word} (h : w &&& m = v) (hm : fieldNN m = 0xFF#8) :
    fieldNN w = fieldNN v := by
  rw [← h]
  simp only [fieldNN] at hm ⊢
  rw [BitVec.extractLsb'_and, hm]
  exact (BitVec.and_allOnes).symm

/-! ## The fields of a packed word (R91) -/

theorem packNNN_toNat {t : Nat} (ht : t < 16) (nnn : Addr12) :
    (packNNN t nnn).toNat = t * 4096 + nnn.toNat := by
  have := nnn.isLt
  simp only [packNNN, BitVec.toNat_ofNat]
  omega

theorem packXNN_toNat {t : Nat} (ht : t < 16) (x : RegIdx) (nn : Byte) :
    (packXNN t x nn).toNat = t * 4096 + x.val * 256 + nn.toNat := by
  have := nn.isLt
  simp only [packXNN, BitVec.toNat_ofNat]
  omega

theorem packXYN_toNat {t : Nat} (ht : t < 16) (x y : RegIdx) (n : Nibble) :
    (packXYN t x y n).toNat = t * 4096 + x.val * 256 + y.val * 16 + n.toNat := by
  have := n.isLt
  simp only [packXYN, BitVec.toNat_ofNat]
  omega

theorem fields_packNNN {t : Nat} (ht : t < 16) (nnn : Addr12) :
    (topNibble (packNNN t nnn)).toNat = t ∧ fieldNNN (packNNN t nnn) = nnn := by
  have h := packNNN_toNat ht nnn
  have := nnn.isLt
  refine ⟨?_, BitVec.eq_of_toNat_eq ?_⟩
  · rw [topNibble_toNat, h]; omega
  · rw [fieldNNN_toNat, h]; omega

theorem fields_packXNN {t : Nat} (ht : t < 16) (x : RegIdx) (nn : Byte) :
    (topNibble (packXNN t x nn)).toNat = t ∧ fieldX (packXNN t x nn) = x ∧
      fieldNN (packXNN t x nn) = nn := by
  have h := packXNN_toNat ht x nn
  have := nn.isLt
  refine ⟨?_, Fin.ext ?_, BitVec.eq_of_toNat_eq ?_⟩
  · rw [topNibble_toNat, h]; omega
  · rw [fieldX_val, h]; omega
  · rw [fieldNN_toNat, h]; omega

theorem fields_packXYN {t : Nat} (ht : t < 16) (x y : RegIdx) (n : Nibble) :
    (topNibble (packXYN t x y n)).toNat = t ∧ fieldX (packXYN t x y n) = x ∧
      fieldY (packXYN t x y n) = y ∧ fieldN (packXYN t x y n) = n := by
  have h := packXYN_toNat ht x y n
  have := n.isLt
  refine ⟨?_, Fin.ext ?_, Fin.ext ?_, BitVec.eq_of_toNat_eq ?_⟩
  · rw [topNibble_toNat, h]; omega
  · rw [fieldX_val, h]; omega
  · rw [fieldY_val, h]; omega
  · rw [fieldN_toNat, h]; omega

/-! ## Bytes of a word (R65) -/

theorem wordOfBytes_toNat (hi lo : Byte) : (wordOfBytes hi lo).toNat = hi.toNat * 256 + lo.toNat := by
  have := hi.isLt
  have := lo.isLt
  simp only [wordOfBytes, BitVec.toNat_ofNat]
  omega

theorem wordOfBytes_highByte_lowByte (w : Word) : wordOfBytes (highByte w) (lowByte w) = w := by
  have := w.isLt
  apply BitVec.eq_of_toNat_eq
  rw [wordOfBytes_toNat]
  simp only [highByte, lowByte, BitVec.extractLsb'_toNat, Nat.shiftRight_eq_div_pow]
  omega

end Sys2Proof
end

