-- ==== Sys2Proof/Laws/State.lean ====
section
/-! SUPPORT. What each update of the state does to each field: one lemma a field, true by rfl, so that
no proof unfolds a record update. -/

namespace Sys2Proof

/-! ## The sizes of this hardware (spec/00_scope.md R6) -/

@[simp] theorem nea_memSize : Config.nea.memSize = 4096 := rfl
@[simp] theorem nea_fontBase : Config.nea.fontBase = 0 := rfl
@[simp] theorem nea_fontEnd : Config.nea.fontEnd = 79 := rfl
@[simp] theorem nea_programBase : Config.nea.programBase = 512 := rfl
@[simp] theorem nea_programMax : Config.nea.programMax = 3584 := rfl
@[simp] theorem nea_nregs : Config.nea.nregs = 16 := rfl
@[simp] theorem nea_iWidth : Config.nea.iWidth = 16 := rfl
@[simp] theorem nea_pcWidth : Config.nea.pcWidth = 16 := rfl
@[simp] theorem nea_pcReset : Config.nea.pcReset = 512 := rfl
@[simp] theorem nea_displayW : Config.nea.displayW = 64 := rfl
@[simp] theorem nea_displayH : Config.nea.displayH = 32 := rfl
@[simp] theorem nea_nkeys : Config.nea.nkeys = 16 := rfl
@[simp] theorem nea_timerWidth : Config.nea.timerWidth = 8 := rfl
@[simp] theorem nea_cells : Config.nea.cells = 2048 := rfl

end Sys2Proof

namespace Sys2Proof.Machine

variable (s : State)

/-! ## setReg -/

@[simp] theorem setReg_i (x : RegIdx) (b : Byte) : (s.setReg x b).i = s.i := rfl
@[simp] theorem setReg_pc (x : RegIdx) (b : Byte) : (s.setReg x b).pc = s.pc := rfl
@[simp] theorem setReg_stack (x : RegIdx) (b : Byte) : (s.setReg x b).stack = s.stack := rfl
@[simp] theorem setReg_sp (x : RegIdx) (b : Byte) : (s.setReg x b).sp = s.sp := rfl
@[simp] theorem setReg_dt (x : RegIdx) (b : Byte) : (s.setReg x b).dt = s.dt := rfl
@[simp] theorem setReg_st (x : RegIdx) (b : Byte) : (s.setReg x b).st = s.st := rfl
@[simp] theorem setReg_mem (x : RegIdx) (b : Byte) : (s.setReg x b).mem = s.mem := rfl
@[simp] theorem setReg_disp (x : RegIdx) (b : Byte) : (s.setReg x b).disp = s.disp := rfl
@[simp] theorem setReg_key (x : RegIdx) (b : Byte) : (s.setReg x b).key = s.key := rfl
@[simp] theorem setReg_drawFlag (x : RegIdx) (b : Byte) : (s.setReg x b).drawFlag = s.drawFlag := rfl
@[simp] theorem setReg_status (x : RegIdx) (b : Byte) : (s.setReg x b).status = s.status := rfl
@[simp] theorem setReg_rng (x : RegIdx) (b : Byte) : (s.setReg x b).rng = s.rng := rfl
@[simp] theorem setReg_params (x : RegIdx) (b : Byte) : (s.setReg x b).params = s.params := rfl

/-! ## setIndex -/

@[simp] theorem setIndex_v (w : Nat) : (s.setIndex w).v = s.v := rfl
@[simp] theorem setIndex_i (w : Nat) : (s.setIndex w).i = w % 2 ^ s.params.sizes.iWidth := rfl
@[simp] theorem setIndex_pc (w : Nat) : (s.setIndex w).pc = s.pc := rfl
@[simp] theorem setIndex_stack (w : Nat) : (s.setIndex w).stack = s.stack := rfl
@[simp] theorem setIndex_sp (w : Nat) : (s.setIndex w).sp = s.sp := rfl
@[simp] theorem setIndex_dt (w : Nat) : (s.setIndex w).dt = s.dt := rfl
@[simp] theorem setIndex_st (w : Nat) : (s.setIndex w).st = s.st := rfl
@[simp] theorem setIndex_mem (w : Nat) : (s.setIndex w).mem = s.mem := rfl
@[simp] theorem setIndex_disp (w : Nat) : (s.setIndex w).disp = s.disp := rfl
@[simp] theorem setIndex_key (w : Nat) : (s.setIndex w).key = s.key := rfl
@[simp] theorem setIndex_drawFlag (w : Nat) : (s.setIndex w).drawFlag = s.drawFlag := rfl
@[simp] theorem setIndex_status (w : Nat) : (s.setIndex w).status = s.status := rfl
@[simp] theorem setIndex_rng (w : Nat) : (s.setIndex w).rng = s.rng := rfl
@[simp] theorem setIndex_params (w : Nat) : (s.setIndex w).params = s.params := rfl

/-! ## setPc -/

@[simp] theorem setPc_v (a : Nat) : (s.setPc a).v = s.v := rfl
@[simp] theorem setPc_i (a : Nat) : (s.setPc a).i = s.i := rfl
@[simp] theorem setPc_pc (a : Nat) : (s.setPc a).pc = a % 2 ^ s.params.sizes.pcWidth := rfl
@[simp] theorem setPc_stack (a : Nat) : (s.setPc a).stack = s.stack := rfl
@[simp] theorem setPc_sp (a : Nat) : (s.setPc a).sp = s.sp := rfl
@[simp] theorem setPc_dt (a : Nat) : (s.setPc a).dt = s.dt := rfl
@[simp] theorem setPc_st (a : Nat) : (s.setPc a).st = s.st := rfl
@[simp] theorem setPc_mem (a : Nat) : (s.setPc a).mem = s.mem := rfl
@[simp] theorem setPc_disp (a : Nat) : (s.setPc a).disp = s.disp := rfl
@[simp] theorem setPc_key (a : Nat) : (s.setPc a).key = s.key := rfl
@[simp] theorem setPc_drawFlag (a : Nat) : (s.setPc a).drawFlag = s.drawFlag := rfl
@[simp] theorem setPc_status (a : Nat) : (s.setPc a).status = s.status := rfl
@[simp] theorem setPc_rng (a : Nat) : (s.setPc a).rng = s.rng := rfl
@[simp] theorem setPc_params (a : Nat) : (s.setPc a).params = s.params := rfl

/-! ## setDt -/

@[simp] theorem setDt_v (b : Nat) : (s.setDt b).v = s.v := rfl
@[simp] theorem setDt_i (b : Nat) : (s.setDt b).i = s.i := rfl
@[simp] theorem setDt_pc (b : Nat) : (s.setDt b).pc = s.pc := rfl
@[simp] theorem setDt_stack (b : Nat) : (s.setDt b).stack = s.stack := rfl
@[simp] theorem setDt_sp (b : Nat) : (s.setDt b).sp = s.sp := rfl
@[simp] theorem setDt_dt (b : Nat) : (s.setDt b).dt = b % 2 ^ s.params.sizes.timerWidth := rfl
@[simp] theorem setDt_st (b : Nat) : (s.setDt b).st = s.st := rfl
@[simp] theorem setDt_mem (b : Nat) : (s.setDt b).mem = s.mem := rfl
@[simp] theorem setDt_disp (b : Nat) : (s.setDt b).disp = s.disp := rfl
@[simp] theorem setDt_key (b : Nat) : (s.setDt b).key = s.key := rfl
@[simp] theorem setDt_drawFlag (b : Nat) : (s.setDt b).drawFlag = s.drawFlag := rfl
@[simp] theorem setDt_status (b : Nat) : (s.setDt b).status = s.status := rfl
@[simp] theorem setDt_rng (b : Nat) : (s.setDt b).rng = s.rng := rfl
@[simp] theorem setDt_params (b : Nat) : (s.setDt b).params = s.params := rfl

/-! ## setSt -/

@[simp] theorem setSt_v (b : Nat) : (s.setSt b).v = s.v := rfl
@[simp] theorem setSt_i (b : Nat) : (s.setSt b).i = s.i := rfl
@[simp] theorem setSt_pc (b : Nat) : (s.setSt b).pc = s.pc := rfl
@[simp] theorem setSt_stack (b : Nat) : (s.setSt b).stack = s.stack := rfl
@[simp] theorem setSt_sp (b : Nat) : (s.setSt b).sp = s.sp := rfl
@[simp] theorem setSt_dt (b : Nat) : (s.setSt b).dt = s.dt := rfl
@[simp] theorem setSt_st (b : Nat) : (s.setSt b).st = b % 2 ^ s.params.sizes.timerWidth := rfl
@[simp] theorem setSt_mem (b : Nat) : (s.setSt b).mem = s.mem := rfl
@[simp] theorem setSt_disp (b : Nat) : (s.setSt b).disp = s.disp := rfl
@[simp] theorem setSt_key (b : Nat) : (s.setSt b).key = s.key := rfl
@[simp] theorem setSt_drawFlag (b : Nat) : (s.setSt b).drawFlag = s.drawFlag := rfl
@[simp] theorem setSt_status (b : Nat) : (s.setSt b).status = s.status := rfl
@[simp] theorem setSt_rng (b : Nat) : (s.setSt b).rng = s.rng := rfl
@[simp] theorem setSt_params (b : Nat) : (s.setSt b).params = s.params := rfl

/-! ## setMemByte -/

@[simp] theorem setMemByte_v (a : Nat) (b : Byte) : (s.setMemByte a b).v = s.v := rfl
@[simp] theorem setMemByte_i (a : Nat) (b : Byte) : (s.setMemByte a b).i = s.i := rfl
@[simp] theorem setMemByte_pc (a : Nat) (b : Byte) : (s.setMemByte a b).pc = s.pc := rfl
@[simp] theorem setMemByte_stack (a : Nat) (b : Byte) : (s.setMemByte a b).stack = s.stack := rfl
@[simp] theorem setMemByte_sp (a : Nat) (b : Byte) : (s.setMemByte a b).sp = s.sp := rfl
@[simp] theorem setMemByte_dt (a : Nat) (b : Byte) : (s.setMemByte a b).dt = s.dt := rfl
@[simp] theorem setMemByte_st (a : Nat) (b : Byte) : (s.setMemByte a b).st = s.st := rfl
@[simp] theorem setMemByte_mem (a : Nat) (b : Byte) : (s.setMemByte a b).mem = Memory.write s.params s.mem a b := rfl
@[simp] theorem setMemByte_disp (a : Nat) (b : Byte) : (s.setMemByte a b).disp = s.disp := rfl
@[simp] theorem setMemByte_key (a : Nat) (b : Byte) : (s.setMemByte a b).key = s.key := rfl
@[simp] theorem setMemByte_drawFlag (a : Nat) (b : Byte) : (s.setMemByte a b).drawFlag = s.drawFlag := rfl
@[simp] theorem setMemByte_status (a : Nat) (b : Byte) : (s.setMemByte a b).status = s.status := rfl
@[simp] theorem setMemByte_rng (a : Nat) (b : Byte) : (s.setMemByte a b).rng = s.rng := rfl
@[simp] theorem setMemByte_params (a : Nat) (b : Byte) : (s.setMemByte a b).params = s.params := rfl

/-! ## flipPixel -/

@[simp] theorem flipPixel_v (k : Nat) : (s.flipPixel k).v = s.v := rfl
@[simp] theorem flipPixel_i (k : Nat) : (s.flipPixel k).i = s.i := rfl
@[simp] theorem flipPixel_pc (k : Nat) : (s.flipPixel k).pc = s.pc := rfl
@[simp] theorem flipPixel_stack (k : Nat) : (s.flipPixel k).stack = s.stack := rfl
@[simp] theorem flipPixel_sp (k : Nat) : (s.flipPixel k).sp = s.sp := rfl
@[simp] theorem flipPixel_dt (k : Nat) : (s.flipPixel k).dt = s.dt := rfl
@[simp] theorem flipPixel_st (k : Nat) : (s.flipPixel k).st = s.st := rfl
@[simp] theorem flipPixel_mem (k : Nat) : (s.flipPixel k).mem = s.mem := rfl
@[simp] theorem flipPixel_disp (k : Nat) : (s.flipPixel k).disp = s.disp ^^^ 2 ^ k := rfl
@[simp] theorem flipPixel_key (k : Nat) : (s.flipPixel k).key = s.key := rfl
@[simp] theorem flipPixel_drawFlag (k : Nat) : (s.flipPixel k).drawFlag = s.drawFlag := rfl
@[simp] theorem flipPixel_status (k : Nat) : (s.flipPixel k).status = s.status := rfl
@[simp] theorem flipPixel_rng (k : Nat) : (s.flipPixel k).rng = s.rng := rfl
@[simp] theorem flipPixel_params (k : Nat) : (s.flipPixel k).params = s.params := rfl

/-! ## clearDisplay -/

@[simp] theorem clearDisplay_v : s.clearDisplay.v = s.v := rfl
@[simp] theorem clearDisplay_i : s.clearDisplay.i = s.i := rfl
@[simp] theorem clearDisplay_pc : s.clearDisplay.pc = s.pc := rfl
@[simp] theorem clearDisplay_stack : s.clearDisplay.stack = s.stack := rfl
@[simp] theorem clearDisplay_sp : s.clearDisplay.sp = s.sp := rfl
@[simp] theorem clearDisplay_dt : s.clearDisplay.dt = s.dt := rfl
@[simp] theorem clearDisplay_st : s.clearDisplay.st = s.st := rfl
@[simp] theorem clearDisplay_mem : s.clearDisplay.mem = s.mem := rfl
@[simp] theorem clearDisplay_disp : s.clearDisplay.disp = 0 := rfl
@[simp] theorem clearDisplay_key : s.clearDisplay.key = s.key := rfl
@[simp] theorem clearDisplay_drawFlag : s.clearDisplay.drawFlag = s.drawFlag := rfl
@[simp] theorem clearDisplay_status : s.clearDisplay.status = s.status := rfl
@[simp] theorem clearDisplay_rng : s.clearDisplay.rng = s.rng := rfl
@[simp] theorem clearDisplay_params : s.clearDisplay.params = s.params := rfl

/-! ## setDrawFlag -/

@[simp] theorem setDrawFlag_v (b : Bool) : (s.setDrawFlag b).v = s.v := rfl
@[simp] theorem setDrawFlag_i (b : Bool) : (s.setDrawFlag b).i = s.i := rfl
@[simp] theorem setDrawFlag_pc (b : Bool) : (s.setDrawFlag b).pc = s.pc := rfl
@[simp] theorem setDrawFlag_stack (b : Bool) : (s.setDrawFlag b).stack = s.stack := rfl
@[simp] theorem setDrawFlag_sp (b : Bool) : (s.setDrawFlag b).sp = s.sp := rfl
@[simp] theorem setDrawFlag_dt (b : Bool) : (s.setDrawFlag b).dt = s.dt := rfl
@[simp] theorem setDrawFlag_st (b : Bool) : (s.setDrawFlag b).st = s.st := rfl
@[simp] theorem setDrawFlag_mem (b : Bool) : (s.setDrawFlag b).mem = s.mem := rfl
@[simp] theorem setDrawFlag_disp (b : Bool) : (s.setDrawFlag b).disp = s.disp := rfl
@[simp] theorem setDrawFlag_key (b : Bool) : (s.setDrawFlag b).key = s.key := rfl
@[simp] theorem setDrawFlag_drawFlag (b : Bool) : (s.setDrawFlag b).drawFlag = b := rfl
@[simp] theorem setDrawFlag_status (b : Bool) : (s.setDrawFlag b).status = s.status := rfl
@[simp] theorem setDrawFlag_rng (b : Bool) : (s.setDrawFlag b).rng = s.rng := rfl
@[simp] theorem setDrawFlag_params (b : Bool) : (s.setDrawFlag b).params = s.params := rfl

/-! ## faultEntry -/

@[simp] theorem faultEntry_v (k : FaultKind) (info : Option Nat) : (s.faultEntry k info).v = s.v := rfl
@[simp] theorem faultEntry_i (k : FaultKind) (info : Option Nat) : (s.faultEntry k info).i = s.i := rfl
@[simp] theorem faultEntry_pc (k : FaultKind) (info : Option Nat) : (s.faultEntry k info).pc = s.pc := rfl
@[simp] theorem faultEntry_stack (k : FaultKind) (info : Option Nat) : (s.faultEntry k info).stack = s.stack := rfl
@[simp] theorem faultEntry_sp (k : FaultKind) (info : Option Nat) : (s.faultEntry k info).sp = s.sp := rfl
@[simp] theorem faultEntry_dt (k : FaultKind) (info : Option Nat) : (s.faultEntry k info).dt = s.dt := rfl
@[simp] theorem faultEntry_st (k : FaultKind) (info : Option Nat) : (s.faultEntry k info).st = s.st := rfl
@[simp] theorem faultEntry_mem (k : FaultKind) (info : Option Nat) : (s.faultEntry k info).mem = s.mem := rfl
@[simp] theorem faultEntry_disp (k : FaultKind) (info : Option Nat) : (s.faultEntry k info).disp = s.disp := rfl
@[simp] theorem faultEntry_key (k : FaultKind) (info : Option Nat) : (s.faultEntry k info).key = s.key := rfl
@[simp] theorem faultEntry_drawFlag (k : FaultKind) (info : Option Nat) : (s.faultEntry k info).drawFlag = s.drawFlag := rfl
@[simp] theorem faultEntry_status (k : FaultKind) (info : Option Nat) : (s.faultEntry k info).status = .halted k info := rfl
@[simp] theorem faultEntry_rng (k : FaultKind) (info : Option Nat) : (s.faultEntry k info).rng = s.rng := rfl
@[simp] theorem faultEntry_params (k : FaultKind) (info : Option Nat) : (s.faultEntry k info).params = s.params := rfl

/-! ## advance -/

@[simp] theorem advance_v : s.advance.v = s.v := rfl
@[simp] theorem advance_i : s.advance.i = s.i := rfl
@[simp] theorem advance_pc : s.advance.pc = (s.pc + 2) % 2 ^ s.params.sizes.pcWidth := rfl
@[simp] theorem advance_stack : s.advance.stack = s.stack := rfl
@[simp] theorem advance_sp : s.advance.sp = s.sp := rfl
@[simp] theorem advance_dt : s.advance.dt = s.dt := rfl
@[simp] theorem advance_st : s.advance.st = s.st := rfl
@[simp] theorem advance_mem : s.advance.mem = s.mem := rfl
@[simp] theorem advance_disp : s.advance.disp = s.disp := rfl
@[simp] theorem advance_key : s.advance.key = s.key := rfl
@[simp] theorem advance_drawFlag : s.advance.drawFlag = s.drawFlag := rfl
@[simp] theorem advance_status : s.advance.status = s.status := rfl
@[simp] theorem advance_rng : s.advance.rng = s.rng := rfl
@[simp] theorem advance_params : s.advance.params = s.params := rfl

/-! ## tick -/

@[simp] theorem tick_v : s.tick.v = s.v := rfl
@[simp] theorem tick_i : s.tick.i = s.i := rfl
@[simp] theorem tick_pc : s.tick.pc = s.pc := rfl
@[simp] theorem tick_stack : s.tick.stack = s.stack := rfl
@[simp] theorem tick_sp : s.tick.sp = s.sp := rfl
@[simp] theorem tick_dt : s.tick.dt = tickTimer s.dt := rfl
@[simp] theorem tick_st : s.tick.st = tickTimer s.st := rfl
@[simp] theorem tick_mem : s.tick.mem = s.mem := rfl
@[simp] theorem tick_disp : s.tick.disp = s.disp := rfl
@[simp] theorem tick_key : s.tick.key = s.key := rfl
@[simp] theorem tick_drawFlag : s.tick.drawFlag = s.drawFlag := rfl
@[simp] theorem tick_status : s.tick.status = s.status := rfl
@[simp] theorem tick_rng : s.tick.rng = s.rng := rfl
@[simp] theorem tick_params : s.tick.params = s.params := rfl

/-! ## keyWrite -/

@[simp] theorem keyWrite_v (k : Nat) (b : Bool) : (s.keyWrite k b).v = s.v := rfl
@[simp] theorem keyWrite_i (k : Nat) (b : Bool) : (s.keyWrite k b).i = s.i := rfl
@[simp] theorem keyWrite_pc (k : Nat) (b : Bool) : (s.keyWrite k b).pc = s.pc := rfl
@[simp] theorem keyWrite_stack (k : Nat) (b : Bool) : (s.keyWrite k b).stack = s.stack := rfl
@[simp] theorem keyWrite_sp (k : Nat) (b : Bool) : (s.keyWrite k b).sp = s.sp := rfl
@[simp] theorem keyWrite_dt (k : Nat) (b : Bool) : (s.keyWrite k b).dt = s.dt := rfl
@[simp] theorem keyWrite_st (k : Nat) (b : Bool) : (s.keyWrite k b).st = s.st := rfl
@[simp] theorem keyWrite_mem (k : Nat) (b : Bool) : (s.keyWrite k b).mem = s.mem := rfl
@[simp] theorem keyWrite_disp (k : Nat) (b : Bool) : (s.keyWrite k b).disp = s.disp := rfl
@[simp] theorem keyWrite_drawFlag (k : Nat) (b : Bool) : (s.keyWrite k b).drawFlag = s.drawFlag := rfl
@[simp] theorem keyWrite_status (k : Nat) (b : Bool) : (s.keyWrite k b).status = s.status := rfl
@[simp] theorem keyWrite_rng (k : Nat) (b : Bool) : (s.keyWrite k b).rng = s.rng := rfl
@[simp] theorem keyWrite_params (k : Nat) (b : Bool) : (s.keyWrite k b).params = s.params := rfl

/-! ## drawByte -/

@[simp] theorem drawByte_state_v : s.drawByte.2.v = s.v := rfl
@[simp] theorem drawByte_state_i : s.drawByte.2.i = s.i := rfl
@[simp] theorem drawByte_state_pc : s.drawByte.2.pc = s.pc := rfl
@[simp] theorem drawByte_state_stack : s.drawByte.2.stack = s.stack := rfl
@[simp] theorem drawByte_state_sp : s.drawByte.2.sp = s.sp := rfl
@[simp] theorem drawByte_state_dt : s.drawByte.2.dt = s.dt := rfl
@[simp] theorem drawByte_state_st : s.drawByte.2.st = s.st := rfl
@[simp] theorem drawByte_state_mem : s.drawByte.2.mem = s.mem := rfl
@[simp] theorem drawByte_state_disp : s.drawByte.2.disp = s.disp := rfl
@[simp] theorem drawByte_state_key : s.drawByte.2.key = s.key := rfl
@[simp] theorem drawByte_state_drawFlag : s.drawByte.2.drawFlag = s.drawFlag := rfl
@[simp] theorem drawByte_state_status : s.drawByte.2.status = s.status := rfl
@[simp] theorem drawByte_state_rng : s.drawByte.2.rng = s.rng + 1 := rfl
@[simp] theorem drawByte_state_params : s.drawByte.2.params = s.params := rfl

/-! ## Registers and keys -/

@[simp] theorem setReg_regCount (x : RegIdx) (b : Byte) : (s.setReg x b).v.length = s.v.length :=
  List.length_set

@[simp] theorem keyWrite_keyCount (k : Nat) (b : Bool) : (s.keyWrite k b).key.length = s.key.length :=
  List.length_set

/-- Reading a register after a write of a register. -/
theorem reg_setReg (x y : RegIdx) (b : Byte) :
    (s.setReg x b).reg y = if x = y ∧ x.val < s.v.length then b else s.reg y := by
  simp only [State.reg, State.setReg, List.getElem?_set, Fin.ext_iff]
  by_cases h : x.val = y.val
  · by_cases hl : x.val < s.v.length
    · simp [h, h ▸ hl]
    · have hy : ¬ y.val < s.v.length := h ▸ hl
      simp [h, hy]
  · simp [h]

theorem reg_setReg_same {x : RegIdx} (h : x.val < s.v.length) (b : Byte) :
    (s.setReg x b).reg x = b := by
  simp [reg_setReg, h]

theorem reg_setReg_ne {x y : RegIdx} (h : x ≠ y) (b : Byte) : (s.setReg x b).reg y = s.reg y := by
  simp [reg_setReg, h]

/-- A register that the machine does not have takes no value. -/
theorem setReg_absent {x : RegIdx} (h : s.v.length ≤ x.val) (b : Byte) : s.setReg x b = s := by
  simp [State.setReg, List.set_eq_of_length_le h]

/-- Reading a key after the host wrote a key. -/
theorem keyDown_keyWrite (k j : Nat) (b : Bool) :
    (s.keyWrite k b).keyDown j = if k = j ∧ k < s.key.length then b else s.keyDown j := by
  simp only [State.keyDown, State.keyWrite, List.getElem?_set]
  by_cases h : k = j
  · by_cases hl : k < s.key.length
    · simp [h, h ▸ hl]
    · have hj : ¬ j < s.key.length := h ▸ hl
      simp [h, hj]
  · simp [h]

/-! ## The accessors look at one field -/

theorem reg_congr {s t : State} (h : t.v = s.v) (x : RegIdx) : t.reg x = s.reg x := by
  simp [State.reg, h]

theorem memByte_congr {s t : State} (h : t.mem = s.mem) (hp : t.params = s.params) (a : Nat) :
    t.memByte a = s.memByte a := by
  simp [State.memByte, h, hp]

theorem pixel_congr {s t : State} (h : t.disp = s.disp) (k : Nat) : t.pixel k = s.pixel k := by
  simp [State.pixel, h]

theorem keyDown_congr {s t : State} (h : t.key = s.key) (k : Nat) : t.keyDown k = s.keyDown k := by
  simp [State.keyDown, h]

theorem stackEntry_congr {s t : State} (h : t.stack = s.stack) (j : Nat) :
    t.stackEntry j = s.stackEntry j := by
  simp [State.stackEntry, h]

/-! ## reg through the updates of other fields -/

@[simp] theorem setIndex_reg (w : Nat) (y : RegIdx) :
    (s.setIndex w).reg y = s.reg y := rfl
@[simp] theorem setPc_reg (a : Nat) (y : RegIdx) :
    (s.setPc a).reg y = s.reg y := rfl
@[simp] theorem setDt_reg (b : Nat) (y : RegIdx) :
    (s.setDt b).reg y = s.reg y := rfl
@[simp] theorem setSt_reg (b : Nat) (y : RegIdx) :
    (s.setSt b).reg y = s.reg y := rfl
@[simp] theorem setMemByte_reg (a : Nat) (b : Byte) (y : RegIdx) :
    (s.setMemByte a b).reg y = s.reg y := rfl
@[simp] theorem flipPixel_reg (k : Nat) (y : RegIdx) :
    (s.flipPixel k).reg y = s.reg y := rfl
@[simp] theorem clearDisplay_reg (y : RegIdx) :
    s.clearDisplay.reg y = s.reg y := rfl
@[simp] theorem setDrawFlag_reg (b : Bool) (y : RegIdx) :
    (s.setDrawFlag b).reg y = s.reg y := rfl
@[simp] theorem faultEntry_reg (k : FaultKind) (info : Option Nat) (y : RegIdx) :
    (s.faultEntry k info).reg y = s.reg y := rfl
@[simp] theorem advance_reg (y : RegIdx) :
    s.advance.reg y = s.reg y := rfl
@[simp] theorem tick_reg (y : RegIdx) :
    s.tick.reg y = s.reg y := rfl
@[simp] theorem keyWrite_reg (k : Nat) (b : Bool) (y : RegIdx) :
    (s.keyWrite k b).reg y = s.reg y := rfl
@[simp] theorem drawByte_state_reg (y : RegIdx) : s.drawByte.2.reg y = s.reg y := rfl

/-! ## memByte through the updates of other fields -/

@[simp] theorem setReg_memByte (x : RegIdx) (b : Byte) (c : Nat) :
    (s.setReg x b).memByte c = s.memByte c := rfl
@[simp] theorem setIndex_memByte (w : Nat) (c : Nat) :
    (s.setIndex w).memByte c = s.memByte c := rfl
@[simp] theorem setPc_memByte (a : Nat) (c : Nat) :
    (s.setPc a).memByte c = s.memByte c := rfl
@[simp] theorem setDt_memByte (b : Nat) (c : Nat) :
    (s.setDt b).memByte c = s.memByte c := rfl
@[simp] theorem setSt_memByte (b : Nat) (c : Nat) :
    (s.setSt b).memByte c = s.memByte c := rfl
@[simp] theorem flipPixel_memByte (k : Nat) (c : Nat) :
    (s.flipPixel k).memByte c = s.memByte c := rfl
@[simp] theorem clearDisplay_memByte (c : Nat) :
    s.clearDisplay.memByte c = s.memByte c := rfl
@[simp] theorem setDrawFlag_memByte (b : Bool) (c : Nat) :
    (s.setDrawFlag b).memByte c = s.memByte c := rfl
@[simp] theorem faultEntry_memByte (k : FaultKind) (info : Option Nat) (c : Nat) :
    (s.faultEntry k info).memByte c = s.memByte c := rfl
@[simp] theorem advance_memByte (c : Nat) :
    s.advance.memByte c = s.memByte c := rfl
@[simp] theorem tick_memByte (c : Nat) :
    s.tick.memByte c = s.memByte c := rfl
@[simp] theorem keyWrite_memByte (k : Nat) (b : Bool) (c : Nat) :
    (s.keyWrite k b).memByte c = s.memByte c := rfl
@[simp] theorem drawByte_state_memByte (c : Nat) : s.drawByte.2.memByte c = s.memByte c := rfl

/-! ## pixel through the updates of other fields -/

@[simp] theorem setReg_pixel (x : RegIdx) (b : Byte) (j : Nat) :
    (s.setReg x b).pixel j = s.pixel j := rfl
@[simp] theorem setIndex_pixel (w : Nat) (j : Nat) :
    (s.setIndex w).pixel j = s.pixel j := rfl
@[simp] theorem setPc_pixel (a : Nat) (j : Nat) :
    (s.setPc a).pixel j = s.pixel j := rfl
@[simp] theorem setDt_pixel (b : Nat) (j : Nat) :
    (s.setDt b).pixel j = s.pixel j := rfl
@[simp] theorem setSt_pixel (b : Nat) (j : Nat) :
    (s.setSt b).pixel j = s.pixel j := rfl
@[simp] theorem setMemByte_pixel (a : Nat) (b : Byte) (j : Nat) :
    (s.setMemByte a b).pixel j = s.pixel j := rfl
@[simp] theorem setDrawFlag_pixel (b : Bool) (j : Nat) :
    (s.setDrawFlag b).pixel j = s.pixel j := rfl
@[simp] theorem faultEntry_pixel (k : FaultKind) (info : Option Nat) (j : Nat) :
    (s.faultEntry k info).pixel j = s.pixel j := rfl
@[simp] theorem advance_pixel (j : Nat) :
    s.advance.pixel j = s.pixel j := rfl
@[simp] theorem tick_pixel (j : Nat) :
    s.tick.pixel j = s.pixel j := rfl
@[simp] theorem keyWrite_pixel (k : Nat) (b : Bool) (j : Nat) :
    (s.keyWrite k b).pixel j = s.pixel j := rfl
@[simp] theorem drawByte_state_pixel (j : Nat) : s.drawByte.2.pixel j = s.pixel j := rfl

/-! ## keyDown through the updates of other fields -/

@[simp] theorem setReg_keyDown (x : RegIdx) (b : Byte) (j : Nat) :
    (s.setReg x b).keyDown j = s.keyDown j := rfl
@[simp] theorem setIndex_keyDown (w : Nat) (j : Nat) :
    (s.setIndex w).keyDown j = s.keyDown j := rfl
@[simp] theorem setPc_keyDown (a : Nat) (j : Nat) :
    (s.setPc a).keyDown j = s.keyDown j := rfl
@[simp] theorem setDt_keyDown (b : Nat) (j : Nat) :
    (s.setDt b).keyDown j = s.keyDown j := rfl
@[simp] theorem setSt_keyDown (b : Nat) (j : Nat) :
    (s.setSt b).keyDown j = s.keyDown j := rfl
@[simp] theorem setMemByte_keyDown (a : Nat) (b : Byte) (j : Nat) :
    (s.setMemByte a b).keyDown j = s.keyDown j := rfl
@[simp] theorem flipPixel_keyDown (k : Nat) (j : Nat) :
    (s.flipPixel k).keyDown j = s.keyDown j := rfl
@[simp] theorem clearDisplay_keyDown (j : Nat) :
    s.clearDisplay.keyDown j = s.keyDown j := rfl
@[simp] theorem setDrawFlag_keyDown (b : Bool) (j : Nat) :
    (s.setDrawFlag b).keyDown j = s.keyDown j := rfl
@[simp] theorem faultEntry_keyDown (k : FaultKind) (info : Option Nat) (j : Nat) :
    (s.faultEntry k info).keyDown j = s.keyDown j := rfl
@[simp] theorem advance_keyDown (j : Nat) :
    s.advance.keyDown j = s.keyDown j := rfl
@[simp] theorem tick_keyDown (j : Nat) :
    s.tick.keyDown j = s.keyDown j := rfl
@[simp] theorem drawByte_state_keyDown (j : Nat) : s.drawByte.2.keyDown j = s.keyDown j := rfl

/-! ## stackEntry through the updates of other fields -/

@[simp] theorem setReg_stackEntry (x : RegIdx) (b : Byte) (j : Nat) :
    (s.setReg x b).stackEntry j = s.stackEntry j := rfl
@[simp] theorem setIndex_stackEntry (w : Nat) (j : Nat) :
    (s.setIndex w).stackEntry j = s.stackEntry j := rfl
@[simp] theorem setPc_stackEntry (a : Nat) (j : Nat) :
    (s.setPc a).stackEntry j = s.stackEntry j := rfl
@[simp] theorem setDt_stackEntry (b : Nat) (j : Nat) :
    (s.setDt b).stackEntry j = s.stackEntry j := rfl
@[simp] theorem setSt_stackEntry (b : Nat) (j : Nat) :
    (s.setSt b).stackEntry j = s.stackEntry j := rfl
@[simp] theorem setMemByte_stackEntry (a : Nat) (b : Byte) (j : Nat) :
    (s.setMemByte a b).stackEntry j = s.stackEntry j := rfl
@[simp] theorem flipPixel_stackEntry (k : Nat) (j : Nat) :
    (s.flipPixel k).stackEntry j = s.stackEntry j := rfl
@[simp] theorem clearDisplay_stackEntry (j : Nat) :
    s.clearDisplay.stackEntry j = s.stackEntry j := rfl
@[simp] theorem setDrawFlag_stackEntry (b : Bool) (j : Nat) :
    (s.setDrawFlag b).stackEntry j = s.stackEntry j := rfl
@[simp] theorem faultEntry_stackEntry (k : FaultKind) (info : Option Nat) (j : Nat) :
    (s.faultEntry k info).stackEntry j = s.stackEntry j := rfl
@[simp] theorem advance_stackEntry (j : Nat) :
    s.advance.stackEntry j = s.stackEntry j := rfl
@[simp] theorem tick_stackEntry (j : Nat) :
    s.tick.stackEntry j = s.stackEntry j := rfl
@[simp] theorem keyWrite_stackEntry (k : Nat) (b : Bool) (j : Nat) :
    (s.keyWrite k b).stackEntry j = s.stackEntry j := rfl
@[simp] theorem drawByte_state_stackEntry (j : Nat) : s.drawByte.2.stackEntry j = s.stackEntry j := rfl

end Sys2Proof.Machine
end

