-- ==== Sys2Proof/Laws/Memory.lean ====
section
/-! SUPPORT. The laws of memory: a read after a write, and the canonical form that every memory
operation keeps (spec/20_memory.md R60, R68, R73). -/

namespace Sys2Proof.Machine

/-! ## The canonical form, read off -/

theorem rising_cons (k : Nat) (c : Byte) (m : List Host.Cell) :
    Memory.rising ((k, c) :: m) = true ↔ (∀ p ∈ m, k < p.1) ∧ Memory.rising m = true := by
  simp [Memory.rising]

theorem memory_wf_iff (p : Config.Params) (m : List Host.Cell) :
    Memory.wf p m = true ↔ Memory.rising m = true ∧
      ∀ c ∈ m, c.1 < p.sizes.memSize ∧ c.2 ≠ Memory.unlisted p c.1 := by
  simp [Memory.wf]

@[simp] theorem memory_wf_nil (p : Config.Params) : Memory.wf p [] = true := rfl

theorem lookup_below {m : List Host.Cell} {a : Nat} (h : ∀ p ∈ m, a < p.1) : m.lookup a = none := by
  rw [List.lookup_eq_none_iff]
  intro p hp
  have := h p hp
  simp
  omega

theorem lookup_cell (m : List Host.Cell) (k c : Nat) (d : Byte) :
    List.lookup c ((k, d) :: m) = if c = k then some d else m.lookup c := by
  rw [List.lookup_cons]
  by_cases h : c = k
  · simp [h]
  · have : (c == k) = false := by simpa using h
    rw [this, if_neg h]

/-! ## Inserting and erasing a cell -/

theorem lookup_insert (m : List Host.Cell) (a c : Nat) (b : Byte) :
    (Memory.insert m a b).lookup c = if c = a then some b else m.lookup c := by
  induction m with
  | nil => by_cases h : c = a <;> simp [Memory.insert, lookup_cell, h]
  | cons p m ih =>
    obtain ⟨k, d⟩ := p
    simp only [Memory.insert]
    split
    · by_cases h : c = a <;> simp [lookup_cell, h]
    · split
      · rename_i h
        subst h
        by_cases h : c = a <;> simp [lookup_cell, h]
      · rw [lookup_cell, lookup_cell, ih]
        by_cases h : c = k
        · subst h
          have : ¬ c = a := by omega
          simp [this]
        · simp [h]

theorem lookup_erase {m : List Host.Cell} (hm : Memory.rising m = true) (a c : Nat) :
    (Memory.erase m a).lookup c = if c = a then none else m.lookup c := by
  induction m with
  | nil => simp [Memory.erase]
  | cons p m ih =>
    obtain ⟨k, d⟩ := p
    obtain ⟨hk, hr⟩ := (rising_cons k d m).1 hm
    simp only [Memory.erase]
    split
    · by_cases h : c = a
      · subst h
        rw [if_pos rfl]
        apply lookup_below
        intro p hp
        rcases List.mem_cons.1 hp with rfl | hp
        · assumption
        · have := hk p hp
          omega
      · simp [h]
    · split
      · rename_i h
        subst h
        by_cases h : c = a
        · subst h
          simpa using lookup_below hk
        · simp [lookup_cell, h]
      · rw [lookup_cell, lookup_cell, ih hr]
        by_cases h : c = k
        · subst h
          have : ¬ c = a := by omega
          simp [this]
        · simp [h]

theorem mem_insert {m : List Host.Cell} {a : Nat} {b : Byte} {p : Host.Cell}
    (h : p ∈ Memory.insert m a b) : p = (a, b) ∨ p ∈ m := by
  induction m with
  | nil => simpa [Memory.insert] using h
  | cons q m ih =>
    obtain ⟨k, d⟩ := q
    simp only [Memory.insert] at h
    split at h
    · simpa using h
    · split at h
      · rcases List.mem_cons.1 h with rfl | h
        · exact .inl rfl
        · exact .inr (List.mem_cons_of_mem _ h)
      · rcases List.mem_cons.1 h with rfl | h
        · exact .inr (List.mem_cons_self ..)
        · exact (ih h).imp_right (List.mem_cons_of_mem _)

theorem mem_erase {m : List Host.Cell} {a : Nat} {p : Host.Cell} (h : p ∈ Memory.erase m a) :
    p ∈ m := by
  induction m with
  | nil => simp [Memory.erase] at h
  | cons q m ih =>
    obtain ⟨k, d⟩ := q
    simp only [Memory.erase] at h
    split at h
    · exact h
    · split at h
      · exact List.mem_cons_of_mem _ h
      · rcases List.mem_cons.1 h with rfl | h
        · exact List.mem_cons_self ..
        · exact List.mem_cons_of_mem _ (ih h)

theorem rising_insert {m : List Host.Cell} (hm : Memory.rising m = true) (a : Nat) (b : Byte) :
    Memory.rising (Memory.insert m a b) = true := by
  induction m with
  | nil => rfl
  | cons q m ih =>
    obtain ⟨k, d⟩ := q
    obtain ⟨hk, hr⟩ := (rising_cons k d m).1 hm
    simp only [Memory.insert]
    split
    · refine (rising_cons a b _).2 ⟨fun p hp => ?_, hm⟩
      rcases List.mem_cons.1 hp with rfl | hp
      · assumption
      · have := hk p hp
        omega
    · split
      · rename_i h
        subst h
        exact (rising_cons a b m).2 ⟨hk, hr⟩
      · refine (rising_cons k d _).2 ⟨fun p hp => ?_, ih hr⟩
        rcases mem_insert hp with rfl | hp
        · simp only
          omega
        · exact hk p hp

theorem rising_erase {m : List Host.Cell} (hm : Memory.rising m = true) (a : Nat) :
    Memory.rising (Memory.erase m a) = true := by
  induction m with
  | nil => rfl
  | cons q m ih =>
    obtain ⟨k, d⟩ := q
    obtain ⟨hk, hr⟩ := (rising_cons k d m).1 hm
    simp only [Memory.erase]
    split
    · exact hm
    · split
      · exact hr
      · exact (rising_cons k d _).2 ⟨fun p hp => hk p (mem_erase hp), ih hr⟩

/-! ## Storing a byte -/

/-- A store keeps the canonical form (an address that exists). -/
theorem memory_write_wf {p : Config.Params} {m : List Host.Cell} (h : Memory.wf p m = true)
    {a : Nat} (ha : a < p.sizes.memSize) (b : Byte) :
    Memory.wf p (Memory.write p m a b) = true := by
  obtain ⟨hr, hc⟩ := (memory_wf_iff p m).1 h
  simp only [Memory.write]
  split
  · exact (memory_wf_iff _ _).2 ⟨rising_erase hr a, fun c hp => hc c (mem_erase hp)⟩
  · refine (memory_wf_iff _ _).2 ⟨rising_insert hr a b, fun c hp => ?_⟩
    rcases mem_insert hp with rfl | hp
    · exact ⟨ha, by assumption⟩
    · exact hc c hp

/-- A read after a store, of memory whose addresses rise. -/
theorem memory_read_write {p : Config.Params} {m : List Host.Cell} (h : Memory.rising m = true)
    (a c : Nat) (b : Byte) :
    Memory.read p (Memory.write p m a b) c = if c = a then b else Memory.read p m c := by
  simp only [Memory.read, Memory.write]
  split
  · rw [lookup_erase h]
    by_cases hc : c = a
    · subst hc
      simp_all
    · simp [hc]
  · rw [lookup_insert]
    by_cases hc : c = a <;> simp [hc]

/-- In canonical memory the listed cells are exactly those that differ from what reset installs, so
equal contents are equal lists. -/
theorem memory_lookup_eq {p : Config.Params} {m : List Host.Cell} (h : Memory.wf p m = true)
    (a : Nat) : m.lookup a =
      if Memory.read p m a = Memory.unlisted p a then none else some (Memory.read p m a) := by
  obtain ⟨-, hc⟩ := (memory_wf_iff p m).1 h
  simp only [Memory.read]
  by_cases hn : m.lookup a = none
  · simp [hn]
  · obtain ⟨b, hl⟩ := Option.ne_none_iff_exists'.1 hn
    have hm : (a, b) ∈ m := by
      clear h hc hn
      induction m with
      | nil => simp at hl
      | cons c m ih =>
        obtain ⟨k, d⟩ := c
        rw [lookup_cell] at hl
        by_cases hk : a = k
        · subst hk
          simp at hl
          simp [hl]
        · rw [if_neg hk] at hl
          exact List.mem_cons_of_mem _ (ih hl)
    simpa [hl] using (hc _ hm).2

theorem memByte_setMemByte {s : State} (h : Memory.rising s.mem = true) (a c : Nat) (b : Byte) :
    (s.setMemByte a b).memByte c = if c = a then b else s.memByte c :=
  memory_read_write h a c b

theorem rising_write {p : Config.Params} {m : List Host.Cell} (h : Memory.rising m = true)
    (a : Nat) (b : Byte) : Memory.rising (Memory.write p m a b) = true := by
  simp only [Memory.write]
  split
  · exact rising_erase h a
  · exact rising_insert h a b

/-! ## Storing bytes in address order -/

/-- Storing bytes changes memory alone. -/
theorem setMemBytes_eq (s : State) (a : Nat) (bs : List Byte) :
    s.setMemBytes a bs = { s with mem := (s.setMemBytes a bs).mem } := by
  induction bs generalizing s a with
  | nil => rfl
  | cons b bs ih =>
    rw [State.setMemBytes, ih]
    rfl

theorem rising_setMemBytes {s : State} (h : Memory.rising s.mem = true) (a : Nat) (bs : List Byte) :
    Memory.rising (s.setMemBytes a bs).mem = true := by
  induction bs generalizing s a with
  | nil => exact h
  | cons b bs ih => exact ih (rising_write h a b) (a + 1)

/-- What memory holds after bytes were stored at `a` and up. -/
theorem memByte_setMemBytes {s : State} (h : Memory.rising s.mem = true) (a : Nat) (bs : List Byte)
    (c : Nat) : (s.setMemBytes a bs).memByte c =
      if a ≤ c ∧ c < a + bs.length then (bs[c - a]?).getD 0#8 else s.memByte c := by
  induction bs generalizing s a with
  | nil =>
    have : ¬ (a ≤ c ∧ c < a + 0) := by omega
    simp only [State.setMemBytes, List.length_nil, this, if_false]
  | cons b bs ih =>
    rw [State.setMemBytes, ih (s := s.setMemByte a b) (rising_write h a b), memByte_setMemByte h]
    by_cases hc : c = a
    · subst hc
      simp
    · by_cases h1 : a + 1 ≤ c ∧ c < a + 1 + bs.length
      · have h2 : a ≤ c ∧ c < a + (b :: bs).length := by simp only [List.length_cons]; omega
        obtain ⟨d, rfl⟩ : ∃ d, c = a + 1 + d := ⟨c - (a + 1), by omega⟩
        have h3 : a + 1 + d - a = d + 1 := by omega
        rw [if_pos h1, if_pos h2, h3]
        simp
      · have h2 : ¬ (a ≤ c ∧ c < a + (b :: bs).length) := by simp only [List.length_cons]; omega
        rw [if_neg h1, if_neg h2, if_neg hc]

/-- Storing bytes at addresses that exist keeps the canonical form. -/
theorem setMemBytes_wf {s : State} (h : Memory.wf s.params s.mem = true) {a : Nat}
    {bs : List Byte} (hb : a + bs.length ≤ s.params.sizes.memSize) :
    Memory.wf s.params (s.setMemBytes a bs).mem = true := by
  induction bs generalizing s a with
  | nil => exact h
  | cons b bs ih =>
    simp only [List.length_cons] at hb
    have hs : (s.setMemByte a b).params = s.params := rfl
    exact ih (s := s.setMemByte a b) (memory_write_wf h (by omega) b) (by rw [hs]; omega)

end Sys2Proof.Machine
end

