-- ==== Sys2Proof/Laws/Ops.lean ====
section
/-! SUPPORT. One lemma for each shared operation that says once what it can do, for the proofs to cite
instead of unfolding it. -/

namespace Sys2Proof.Machine

/-! ## Address checks (spec/43_index_memory.md R200) -/

theorem firstFailing_eq_none {f : Nat → Bool} {base count : Nat} :
    firstFailing f base count = none ↔ ∀ k < count, f (base + k) = false := by
  simp [firstFailing, List.find?_eq_none]

/-- The first failing address of an access is the one that fails after all the lower ones passed. -/
theorem firstFailing_eq_some {f : Nat → Bool} {base count k : Nat} (hk : k < count)
    (hf : f (base + k) = true) (hl : ∀ j < k, f (base + j) = false) :
    firstFailing f base count = some (base + k) := by
  obtain ⟨d, rfl⟩ : ∃ d, count = k + (d + 1) := ⟨count - k - 1, by omega⟩
  have h1 : (List.range k).find? (fun j => f (base + j)) = none := by
    simpa [List.find?_eq_none] using hl
  simp [firstFailing, List.range_add, List.find?_map, List.find?_append, Function.comp_def, h1,
    List.range_succ_eq_map, hf]

theorem readFails_eq {s : State} {a : Nat} : s.readFails a = true ↔ s.params.sizes.memSize ≤ a := by
  simp [State.readFails]

theorem writeFails_eq {s : State} {a : Nat} : s.writeFails a = true ↔
    s.params.sizes.memSize ≤ a ∨ (s.params.fontWrite = .fault ∧ a ≤ s.params.sizes.fontEnd) := by
  simp [State.writeFails]

/-- A run of addresses of which those at `top` and above fail fails first at `top`, or at its base where
that is above `top`. -/
theorem firstFailing_top {f : Nat → Bool} {top base count : Nat} (hf : ∀ a, top ≤ a → f a = true)
    (hl : ∀ a, base ≤ a → a < top → f a = false) (h0 : count ≠ 0) (h : top < base + count) :
    firstFailing f base count = some (max base top) := by
  have hm : max base top = base + (top - base) := by omega
  rw [hm]
  exact firstFailing_eq_some (by omega) (hf _ (by omega)) fun j hj => hl _ (by omega) (by omega)

theorem firstBadRead_eq_none {s : State} {count : Nat} :
    s.firstBadRead count = none ↔ (count = 0 ∨ s.i + count ≤ s.params.sizes.memSize) := by
  simp only [State.firstBadRead, firstFailing_eq_none, ← Bool.not_eq_true, readFails_eq]
  constructor
  · intro h
    by_cases hc : count = 0
    · exact .inl hc
    · have := h (count - 1) (by omega)
      omega
  · intro h k hk
    omega

/-- Reading past the end of memory fails first at `MEM_SIZE`, or at `I` where that is above it. -/
theorem firstBadRead_eq_some {s : State} {count : Nat} (h0 : count ≠ 0)
    (h : s.params.sizes.memSize < s.i + count) :
    s.firstBadRead count = some (max s.i s.params.sizes.memSize) :=
  firstFailing_top (fun _ => readFails_eq.2)
    (fun a _ ha => by rw [← Bool.not_eq_true, readFails_eq]; omega) h0 h

theorem firstBadWrite_eq_none {s : State} {count : Nat} (h0 : count ≠ 0) :
    s.firstBadWrite count = none ↔ s.i + count ≤ s.params.sizes.memSize ∧
      (s.params.fontWrite = .fault → s.params.sizes.fontEnd < s.i) := by
  simp only [State.firstBadWrite, firstFailing_eq_none, ← Bool.not_eq_true, writeFails_eq]
  constructor
  · intro h
    have h1 := h 0 (by omega)
    have h2 := h (count - 1) (by omega)
    simp only [not_or, not_and, Nat.add_zero] at h1 h2
    refine ⟨by omega, fun hf => ?_⟩
    have := h1.2 hf
    omega
  · rintro ⟨h1, h2⟩ k hk
    simp only [not_or, not_and]
    refine ⟨by omega, fun hf => ?_⟩
    have := h2 hf
    omega

/-- Under `FONT_WRITE = Fault` a store that starts in the font table fails at its first address. -/
theorem firstBadWrite_font {s : State} {count : Nat} (h0 : count ≠ 0)
    (hf : s.params.fontWrite = .fault) (h : s.i ≤ s.params.sizes.fontEnd) :
    s.firstBadWrite count = some s.i :=
  firstFailing_eq_some (base := s.i) (k := 0) (by omega) (writeFails_eq.2 (.inr ⟨hf, h⟩))
    (by intro j hj; omega)

/-- A store past the end of memory that starts above the font table, or where stores into it are
allowed, fails first at `MEM_SIZE`, or at `I` where that is above it. -/
theorem firstBadWrite_end {s : State} {count : Nat} (h0 : count ≠ 0)
    (hf : s.params.fontWrite = .fault → s.params.sizes.fontEnd < s.i)
    (h : s.params.sizes.memSize < s.i + count) :
    s.firstBadWrite count = some (max s.i s.params.sizes.memSize) := by
  refine firstFailing_top (fun _ ha => writeFails_eq.2 (.inl ha)) (fun a hb ha => ?_) h0 h
  rw [← Bool.not_eq_true, writeFails_eq]
  rintro (h | ⟨hw, h⟩)
  · omega
  · have := hf hw
    omega

/-! ## Fetch (spec/20_memory.md R66, spec/40_cycle.md R122) -/

theorem fetch_ok {s : State} (h : s.pc + 1 < s.params.sizes.memSize) : s.fetch = .ok s.word := by
  have : firstFailing s.readFails s.pc 2 = none := by
    rw [firstFailing_eq_none]
    intro k hk
    rw [← Bool.not_eq_true, readFails_eq]
    omega
  simp [State.fetch, this, State.word]

theorem fetch_error {s : State} (h : s.params.sizes.memSize ≤ s.pc + 1) :
    s.fetch = .error (max s.pc s.params.sizes.memSize) := by
  have : firstFailing s.readFails s.pc 2 = some (max s.pc s.params.sizes.memSize) :=
    firstFailing_top (fun _ => readFails_eq.2)
      (fun a _ ha => by rw [← Bool.not_eq_true, readFails_eq]; omega) (by decide) (by omega)
  simp [State.fetch, this]

/-! ## Call stack (spec/10_state.md R33, R34) -/

theorem push_none {s : State} (h : s.params.stackCapacity ≤ s.sp) (a : Nat) : s.push a = none := by
  simp [State.push, h]

theorem push_some {s : State} (h : s.sp < s.params.stackCapacity) (a : Nat) :
    s.push a = some { s with stack := s.stack.set s.sp a, sp := s.sp + 1 } := by
  have : ¬ s.params.stackCapacity ≤ s.sp := by omega
  simp [State.push, this]

theorem pop_none {s : State} (h : s.sp = 0) : s.pop = none := by simp [State.pop, h]

theorem pop_some {s : State} (h : 0 < s.sp) :
    s.pop = some (s.stackEntry (s.sp - 1), { s with sp := s.sp - 1 }) := by
  have : ¬ s.sp = 0 := by omega
  simp [State.pop, this]

/-! ## Keys (spec/45_keys_timers.md R251, R254) -/

theorem keyOperand_some {s : State} {x : RegIdx} (h : (s.reg x).toNat < s.params.sizes.nkeys) :
    s.keyOperand x = some (s.reg x).toNat := by simp [State.keyOperand, h]

theorem keyOperand_none {s : State} {x : RegIdx} (h : s.params.sizes.nkeys ≤ (s.reg x).toNat) :
    s.keyOperand x = none := by simp [State.keyOperand, h]

/-- A scan that keeps the last hit of a list: it answers the start value when there is no hit. -/
theorem scan_none {α : Type} (p : α → Bool) (l : List α) (init : Option α)
    (h : ∀ a ∈ l, p a = false) :
    l.foldl (fun found k => if p k then some k else found) init = init := by
  induction l generalizing init with
  | nil => rfl
  | cons b l ih =>
    rw [List.foldl_cons, h b (List.mem_cons_self ..)]
    exact ih _ fun a ha => h a (List.mem_cons_of_mem _ ha)

theorem scan_last {α : Type} (p : α → Bool) (l₁ l₂ : List α) (a : α) (init : Option α)
    (ha : p a = true) (h : ∀ b ∈ l₂, p b = false) :
    (l₁ ++ a :: l₂).foldl (fun found k => if p k then some k else found) init = some a := by
  rw [List.foldl_append, List.foldl_cons, ha]
  exact scan_none p l₂ _ h

theorem highestKey_none {s : State} (h : ∀ k < s.params.sizes.nkeys, s.keyDown k = false) :
    s.highestKey = none :=
  scan_none _ _ _ fun k hk => h k (List.mem_range.1 hk)

/-- The pressed key with no pressed key above it is the one the scan keeps. -/
theorem highestKey_some {s : State} {k : Nat} (hn : k < s.params.sizes.nkeys)
    (hk : s.keyDown k = true) (h : ∀ j, k < j → j < s.params.sizes.nkeys → s.keyDown j = false) :
    s.highestKey = some k := by
  obtain ⟨d, hd⟩ : ∃ d, s.params.sizes.nkeys = k + (d + 1) := ⟨s.params.sizes.nkeys - k - 1, by omega⟩
  have hl : List.range s.params.sizes.nkeys =
      List.range k ++ k :: (List.range d).map (fun j => k + (j + 1)) := by
    simp [hd, List.range_add, List.range_succ_eq_map, Function.comp_def]
  rw [State.highestKey, hl]
  refine scan_last _ _ _ _ _ hk fun j hj => ?_
  obtain ⟨m, hm, rfl⟩ := List.mem_map.1 hj
  exact h _ (by omega) (by have := List.mem_range.1 hm; omega)

theorem highestKey_isNone {s : State} :
    s.highestKey.isNone = true ↔ ∀ k < s.params.sizes.nkeys, s.keyDown k = false := by
  constructor
  · intro h k hk
    by_contra hd
    have hex : ∀ n j : Nat, s.params.sizes.nkeys - j ≤ n → j < s.params.sizes.nkeys →
        s.keyDown j = true → False := by
      intro n
      induction n with
      | zero => intro j hj hl; omega
      | succ n ih =>
        intro j hj hl hd
        by_cases hm : ∀ m, j < m → m < s.params.sizes.nkeys → s.keyDown m = false
        · rw [highestKey_some hl hd hm] at h
          cases h
        · push Not at hm
          obtain ⟨m, h1, h2, h3⟩ := hm
          exact ih m (by omega) h2 (by simpa using h3)
    exact hex _ k le_rfl hk (by simpa using hd)
  · intro h
    rw [highestKey_none h]
    rfl

/-! ## Skips (spec/41_control_flow.md R140) -/

theorem skipIf_eq (s : State) (c : Bool) :
    s.skipIf c = { s with pc := if c then s.pcPlusTwo else s.pc } := by
  cases c <;> rfl

/-! ## Flag-setting writes (spec/42_alu.md R171) -/

/-- A flag-setting write changes registers alone. -/
theorem writeWithFlag_eq (s : State) (x : RegIdx) (f r : State → Byte) :
    s.writeWithFlag x f r = { s with v := (s.writeWithFlag x f r).v } := by
  simp only [State.writeWithFlag]
  split <;> rfl

@[simp] theorem writeWithFlag_regCount (s : State) (x : RegIdx) (f r : State → Byte) :
    (s.writeWithFlag x f r).v.length = s.v.length := by
  simp only [State.writeWithFlag]
  split <;> simp

theorem writeWithFlag_other {s : State} {x y : RegIdx} (f r : State → Byte) (hx : y ≠ x)
    (hf : y ≠ vf) : (s.writeWithFlag x f r).reg y = s.reg y := by
  simp only [State.writeWithFlag]
  split <;> simp [reg_setReg, hx.symm, hf.symm]

theorem writeWithFlag_sequential {s : State} (h : s.params.vfOrder = .sequential) (x : RegIdx)
    (f r : State → Byte) :
    s.writeWithFlag x f r = (s.setReg vf (f s)).setReg x (r (s.setReg vf (f s))) := by
  simp [State.writeWithFlag, h]

theorem writeWithFlag_flagLast {s : State} (h : s.params.vfOrder = .flagLast) (x : RegIdx)
    (f r : State → Byte) : s.writeWithFlag x f r = (s.setReg x (r s)).setReg vf (f s) := by
  simp [State.writeWithFlag, h]

/-! ## Register ranges (spec/43_index_memory.md R205, R206) -/

@[simp] theorem mem_regsUpTo {x k : RegIdx} : k ∈ regsUpTo x ↔ k ≤ x := by
  simp [regsUpTo]

theorem regsUpTo_length (x : RegIdx) : (regsUpTo x).length = x.val + 1 := by
  revert x; decide

theorem regsUpTo_get (x : RegIdx) (k : Nat) (h : k ≤ x.val) :
    (regsUpTo x)[k]? = some ⟨k, by omega⟩ := by
  have key : ∀ x k : RegIdx, k ≤ x → (regsUpTo x)[k.val]? = some k := by decide
  exact key x ⟨k, by omega⟩ h

/-- Loading registers from memory changes registers alone. -/
theorem loadFold_eq (l : List RegIdx) (s : State) :
    l.foldl (fun t k => t.setReg k (t.memByte (t.effAddr k.val))) s =
      { s with v := (l.foldl (fun t k => t.setReg k (t.memByte (t.effAddr k.val))) s).v } := by
  induction l generalizing s with
  | nil => rfl
  | cons k l ih =>
    rw [List.foldl_cons, ih]
    rfl

theorem loadFold_regCount (l : List RegIdx) (s : State) :
    (l.foldl (fun t k => t.setReg k (t.memByte (t.effAddr k.val))) s).v.length = s.v.length := by
  induction l generalizing s with
  | nil => rfl
  | cons k l ih => rw [List.foldl_cons, ih, setReg_regCount]

theorem loadFold_reg (l : List RegIdx) (s : State) (r : RegIdx) :
    (l.foldl (fun t k => t.setReg k (t.memByte (t.effAddr k.val))) s).reg r =
      if r ∈ l ∧ r.val < s.v.length then s.memByte (s.i + r.val) else s.reg r := by
  induction l generalizing s with
  | nil => simp
  | cons k l ih =>
    rw [List.foldl_cons, ih]
    simp only [setReg_memByte, setReg_i, reg_setReg, setReg_regCount, List.mem_cons, State.effAddr]
    by_cases hl : r.val < s.v.length
    · by_cases h : r ∈ l
      · simp [h, hl]
      · by_cases hk : k = r
        · subst hk
          simp [hl]
        · simp [h, hk, Ne.symm hk]
    · by_cases hk : k = r
      · subst hk
        simp [hl]
      · simp [hl, hk]

/-! ## Drawing (spec/44_display.md R233, R234) -/

theorem pixel_flipPixel (s : State) (k j : Nat) :
    (s.flipPixel k).pixel j = (s.pixel j ^^ decide (j = k)) := by
  simp [State.pixel, State.flipPixel, Nat.testBit_xor, Nat.testBit_two_pow, eq_comm]

/-- A display within its cells reads 0 beyond them. -/
theorem pixel_of_le {s : State} {n k : Nat} (hd : s.disp < 2 ^ n) (h : n ≤ k) : s.pixel k = false :=
  Nat.testBit_lt_two_pow (hd.trans_le (Nat.pow_le_pow_right (by decide) h))

theorem flipPixel_disp_lt {s : State} {n k : Nat} (hd : s.disp < 2 ^ n) (h : k < n) :
    (s.flipPixel k).disp < 2 ^ n :=
  Nat.xor_lt_two_pow hd (Nat.pow_lt_pow_right (by decide) h)

theorem pixel_togglePixel (s : State) (k j : Nat) :
    (s.togglePixel k).pixel j = (s.pixel j ^^ decide (j = k)) := by
  simp only [State.togglePixel]
  split <;> simp [pixel_flipPixel]

theorem reg_togglePixel (s : State) (k : Nat) (r : RegIdx) : (s.togglePixel k).reg r =
    if r = vf ∧ s.pixel k = true ∧ r.val < s.v.length then 1#8 else s.reg r := by
  simp only [State.togglePixel]
  split <;> rename_i h
  · by_cases hr : r = vf
    · subst hr
      simp [h, reg_setReg]
    · simp [reg_setReg, hr, Ne.symm hr]
  · simp [h]

/-- Toggling a cell changes registers and the display alone. -/
theorem togglePixel_eq (s : State) (k : Nat) : s.togglePixel k =
    { s with v := (s.togglePixel k).v, disp := (s.togglePixel k).disp } := by
  simp only [State.togglePixel]
  split <;> rfl

@[simp] theorem togglePixel_regCount (s : State) (k : Nat) :
    (s.togglePixel k).v.length = s.v.length := by
  simp only [State.togglePixel]
  split <;> simp

theorem togglePixel_disp (s : State) (k : Nat) : (s.togglePixel k).disp = (s.flipPixel k).disp := by
  simp only [State.togglePixel]
  split <;> rfl

/-- Plotting changes registers and the display alone. -/
theorem plot_eq (s : State) (px py : Nat) :
    s.plot px py = { s with v := (s.plot px py).v, disp := (s.plot px py).disp } := by
  simp only [State.plot]
  split
  · split
    · rfl
    · exact togglePixel_eq ..
  · exact togglePixel_eq ..

@[simp] theorem plot_regCount (s : State) (px py : Nat) : (s.plot px py).v.length = s.v.length := by
  simp only [State.plot]
  split
  · split <;> simp
  · simp

/-- Plotting keeps the display within its cells: beyond them `Clip` does not draw, and `LinearSpill` has
been checked. -/
theorem plot_disp_lt {s : State} {px py : Nat} (hd : s.disp < 2 ^ s.params.sizes.cells)
    (h : s.params.spriteEdge = .linearSpill → s.cellIndex px py < s.params.sizes.cells) :
    (s.plot px py).disp < 2 ^ s.params.sizes.cells := by
  simp only [State.plot]
  split
  · split
    · exact hd
    · rename_i hc
      rw [togglePixel_disp]
      refine flipPixel_disp_lt hd ?_
      have h1 : py + 1 ≤ s.params.sizes.displayH := by omega
      have h2 := Nat.mul_le_mul_right s.params.sizes.displayW h1
      rw [Nat.add_mul, Nat.mul_comm s.params.sizes.displayH] at h2
      show py * s.params.sizes.displayW + px < s.params.sizes.displayW * s.params.sizes.displayH
      omega
  · rw [togglePixel_disp]
    exact flipPixel_disp_lt hd (h (by assumption))

theorem plotFold_eq (l : List (Nat × Nat)) (s : State) :
    l.foldl (fun t p => t.plot p.1 p.2) s =
      { s with v := (l.foldl (fun t p => t.plot p.1 p.2) s).v
               disp := (l.foldl (fun t p => t.plot p.1 p.2) s).disp } := by
  induction l generalizing s with
  | nil => rfl
  | cons p l ih =>
    rw [List.foldl_cons, ih]
    rw [plot_eq s p.1 p.2]

theorem plotFold_regCount (l : List (Nat × Nat)) (s : State) :
    (l.foldl (fun t p => t.plot p.1 p.2) s).v.length = s.v.length := by
  induction l generalizing s with
  | nil => rfl
  | cons p l ih => rw [List.foldl_cons, ih, plot_regCount]

theorem plotFold_disp_lt (l : List (Nat × Nat)) {s : State} (hd : s.disp < 2 ^ s.params.sizes.cells)
    (h : s.params.spriteEdge = .linearSpill → ∀ p ∈ l, s.cellIndex p.1 p.2 < s.params.sizes.cells) :
    (l.foldl (fun t p => t.plot p.1 p.2) s).disp < 2 ^ s.params.sizes.cells := by
  induction l generalizing s with
  | nil => exact hd
  | cons p l ih =>
    have hs : (s.plot p.1 p.2).params = s.params := by rw [plot_eq]
    have h1 := ih (s := s.plot p.1 p.2)
    simp only [hs, State.cellIndex] at h1
    exact h1 (plot_disp_lt hd fun he => h he p (List.mem_cons_self ..))
      fun he q hq => h he q (List.mem_cons_of_mem _ hq)

/-- The set bits of a sprite: row `r`, column `c`, in the rows and columns of the sprite. -/
theorem mem_spriteTargets {s : State} {x0 y0 n : Nat} {p : Nat × Nat} :
    p ∈ s.spriteTargets x0 y0 n ↔ ∃ r < n, ∃ c < 8,
      spriteBit (s.memByte (s.i + r)) c = true ∧ p = (x0 + c, y0 + r) := by
  simp only [State.spriteTargets, State.rowTargets, State.effAddr, List.mem_flatMap, List.mem_range,
    List.mem_map, List.mem_filter]
  constructor
  · rintro ⟨r, hr, c, ⟨hc, hb⟩, rfl⟩
    exact ⟨r, hr, c, hc, hb, rfl⟩
  · rintro ⟨r, hr, c, hc, hb, rfl⟩
    exact ⟨r, hr, c, ⟨hc, hb⟩, rfl⟩

/-- No target is outside the display; under `Clip` none is looked at. -/
theorem firstBadCell_eq_none {s : State} {l : List (Nat × Nat)} : s.firstBadCell l = none ↔
    (s.params.spriteEdge = .linearSpill → ∀ p ∈ l, s.cellIndex p.1 p.2 < s.params.sizes.cells) := by
  cases h : s.params.spriteEdge <;> simp [State.firstBadCell, h, List.find?_eq_none]

/-- Under `LinearSpill` the first target outside the display is the one that follows targets inside it. -/
theorem firstBadCell_eq_some {s : State} {l₁ l₂ : List (Nat × Nat)} {p : Nat × Nat}
    (h : s.params.spriteEdge = .linearSpill)
    (hl : ∀ q ∈ l₁, s.cellIndex q.1 q.2 < s.params.sizes.cells)
    (hp : s.params.sizes.cells ≤ s.cellIndex p.1 p.2) :
    s.firstBadCell (l₁ ++ p :: l₂) = some (s.cellIndex p.1 p.2) := by
  have h1 : (l₁.map (fun t => s.cellIndex t.1 t.2)).find? (s.params.sizes.cells ≤ ·) = none := by
    simpa [List.find?_eq_none] using hl
  simp only [State.firstBadCell, h, List.map_append, List.map_cons, List.find?_append]
  rw [h1]
  simp [hp]

/-! ## A state of this hardware (spec/00_scope.md R6) -/

/-- A state of this hardware with the spec's numbers in place of the sizes. -/
theorem State.Nea.numbers {s : State} (h : s.Nea) :
    s.v.length = 16 ∧ s.i < 65536 ∧ s.pc < 65536 ∧ (∀ a ∈ s.stack, a < 65536) ∧ s.dt < 256 ∧
      s.st < 256 ∧ s.disp < 2 ^ 2048 ∧ s.key.length = 16 := by
  obtain ⟨hz, h1, h2, h3, h4, h5, h6, h7, h8⟩ := h
  simp only [hz, nea_nregs, nea_iWidth, nea_pcWidth, nea_timerWidth, nea_cells, nea_nkeys] at *
  exact ⟨h1, h2, h3, h4, h5, h6, h7, h8⟩

theorem State.Inv.nea {s : State} (h : s.Inv) : s.Nea := ⟨h.sizes, h.bounded.fits⟩

/-! ## The cycle (spec/40_cycle.md R132) -/

/-- All that a cycle can do: stop on a halted core, take the fault entry of a failed fetch, or run the
decoded instruction on the advanced `PC` and end the cycle. -/
theorem runCycle_cases (ex : Instr → State → Outcome) (s : State) :
    (∃ k info, s.status = .halted k info ∧ runCycle ex s = .fault (.halted k info)) ∨
    (s.status = .running ∧ s.params.sizes.memSize ≤ s.pc + 1 ∧ runCycle ex s =
      .next (s.faultEntry .addressOutOfRange (some (max s.pc s.params.sizes.memSize)))) ∨
    (s.ready ∧ runCycle ex s = endCycle (decode s.word) s.advance (ex (decode s.word) s.advance)) := by
  cases hs : s.status with
  | halted k info => exact .inl ⟨k, info, rfl, by simp [runCycle, hs]⟩
  | running =>
    by_cases h : s.pc + 1 < s.params.sizes.memSize
    · exact .inr (.inr ⟨⟨hs, h⟩, by simp [runCycle, hs, fetch_ok h]⟩)
    · exact .inr (.inl ⟨rfl, by omega, by
        simp [runCycle, hs, fetch_error (Nat.le_of_not_lt h), raiseFault]⟩)

/-- The end of a cycle after a next state: ticked when the instruction completed. -/
theorem endCycle_next (i : Instr) (s t : State) :
    endCycle i s (.next t) =
      .next (if t.status = .running ∧ noKeyReturn i s = false then t.tick else t) := by
  simp only [endCycle, endingOf]
  by_cases h1 : t.status = .running
  · by_cases h2 : noKeyReturn i s = true <;> simp [h1, h2]
  · simp [h1]

end Sys2Proof.Machine
end

