-- ==== Sys2Proof/Laws/Frame.lean ====
section
/-! SUPPORT. What each shared operation leaves unchanged, as a `Frame` (spec/40_cycle.md R129). -/

namespace Sys2Proof.Machine

theorem frame_refl (w : Writes) (s : State) : Frame w s s := by
  constructor <;> intros <;> rfl

theorem frame_setReg (s : State) (x : RegIdx) (b : Byte) : Frame { regs := [x] } s (s.setReg x b) := by
  constructor
  case regs => exact fun r hr => reg_setReg_ne s (fun h => hr (by simp [h])) b
  case regCount => exact setReg_regCount s x b
  all_goals intros; rfl

theorem frame_setIndex (s : State) (w : Nat) : Frame { index := true } s (s.setIndex w) := by
  constructor <;> intros <;> first | rfl | contradiction

theorem frame_setPc (s : State) (a : Nat) : Frame { pc := true } s (s.setPc a) := by
  constructor <;> intros <;> first | rfl | contradiction

theorem frame_setDt (s : State) (b : Nat) : Frame { dt := true } s (s.setDt b) := by
  constructor <;> intros <;> first | rfl | contradiction

theorem frame_setSt (s : State) (b : Nat) : Frame { st := true } s (s.setSt b) := by
  constructor <;> intros <;> first | rfl | contradiction

theorem frame_tick (s : State) : Frame { dt := true, st := true } s s.tick := by
  constructor <;> intros <;> first | rfl | contradiction

theorem frame_faultEntry (s : State) (k : FaultKind) (info : Option Nat) :
    Frame { status := true } s (s.faultEntry k info) := by
  constructor <;> intros <;> first | rfl | contradiction

/-- A state that differs in registers alone frames whatever registers agree. -/
theorem frame_regs {s t : State} (h : t = { s with v := t.v }) (l : List RegIdx)
    (hr : ∀ r, r ∉ l → t.reg r = s.reg r) (hc : t.v.length = s.v.length) :
    Frame { regs := l } s t := by
  rw [h] at hr hc ⊢
  constructor
  case regs => exact hr
  case regCount => exact hc
  all_goals intros; rfl

/-- Storing bytes changes the stored span of memory alone. -/
theorem frame_setMemBytes {s : State} (h : Memory.rising s.mem = true) (a : Nat) (bs : List Byte) :
    Frame { mem := span a bs.length } s (s.setMemBytes a bs) := by
  constructor
  case mem =>
    intro c hc
    rw [memByte_setMemBytes h, if_neg]
    rintro ⟨h1, h2⟩
    exact hc (by simp only [span, List.mem_map, List.mem_range]; exact ⟨c - a, by omega, by omega⟩)
  all_goals (intros; rw [setMemBytes_eq]; first | done | rfl)

end Sys2Proof.Machine
end

