-- ==== Sys2Proof/Laws/Exec.lean ====
section
/-! SUPPORT. What the execute step can do, said once for all instructions (spec/40_cycle.md R125, R129):
an inversion of `exec` into the few shapes that a next state has. A rule of the whole machine is then a
case analysis over these shapes and unfolds no meaning. -/

namespace Sys2Proof.Machine

theorem push_inv {s t : State} {a : Nat} (h : s.push a = some t) :
    s.sp < s.params.stackCapacity ∧ t = { s with stack := s.stack.set s.sp a, sp := s.sp + 1 } := by
  by_cases hc : s.sp < s.params.stackCapacity
  · rw [push_some hc] at h
    injection h with h
    exact ⟨hc, h.symm⟩
  · rw [push_none (by omega)] at h
    cases h

theorem pop_inv {s t : State} {a : Nat} (h : s.pop = some (a, t)) :
    0 < s.sp ∧ a = s.stackEntry (s.sp - 1) ∧ t = { s with sp := s.sp - 1 } := by
  by_cases hc : 0 < s.sp
  · rw [pop_some hc] at h
    injection h with h
    injection h with h1 h2
    exact ⟨hc, h1.symm, h2.symm⟩
  · rw [pop_none (by omega)] at h
    cases h

/-- The instructions that can raise a fault (spec/60_exceptions.md R273–R277). -/
def MayFault (i : Instr) : Prop :=
  i = .ret ∨ (∃ n, i = .call n) ∨
    (∃ x, i = .skp x ∨ i = .sknp x ∨ i = .ldB x ∨ i = .storeRegs x ∨ i = .loadRegs x) ∨
    ∃ x y n, i = .drw x y n

/-- The instructions whose only write, where they write at all, is `PC`. -/
def MayWritePcAlone (i : Instr) : Prop :=
  (∃ n, i = .jp n ∨ i = .jpV0 n) ∨ (∃ x n, i = .seByte x n ∨ i = .sneByte x n) ∨
    (∃ x y n, i = .seReg x y n ∨ i = .sneReg x y n) ∨ ∃ x, i = .skp x ∨ i = .sknp x ∨ i = .ldVxK x

/-- The instructions that can change nothing at all. -/
def MayDoNothing (i : Instr) : Prop :=
  (∃ x y n, i = .seReg x y n ∨ i = .sneReg x y n) ∨ (∃ n, i = .sys n) ∨
    (∃ x y n, i = .noopGroup8 x y n) ∨ (∃ x n, i = .noopGroupE x n ∨ i = .noopGroupF x n) ∨
    ∃ x, i = .ldVxK x

/-- The instructions that write one register, `x`, and no flag; FX0A does so with a key pressed. -/
def WritesRegister (s : State) (i : Instr) (x : RegIdx) : Prop :=
  (∃ nn, i = .ldByte x nn ∨ i = .addByte x nn) ∨
    (∃ y, i = .ldReg x y ∨ i = .orReg x y ∨ i = .andReg x y ∨ i = .xorReg x y) ∨ i = .ldVxDt x ∨
    (i = .ldVxK x ∧ ∃ k < s.params.sizes.nkeys, s.keyDown k = true)

/-- The instructions that write a result to `x` and a flag to VF in the order of `VF_ORDER`. -/
def WritesFlag (i : Instr) (x : RegIdx) : Prop :=
  ∃ y, i = .addReg x y ∨ i = .subReg x y ∨ i = .shrReg x y ∨ i = .subnReg x y ∨ i = .shlReg x y

/-- The next states of the execute step of an instruction in the state `s`. -/
inductive ExecCase (s : State) : Instr → State → Prop
  | fault (i : Instr) (k : FaultKind) (info : Option Nat)
      (kind : k ≠ .unknownInstruction ∧ k ≠ .programTooLarge)
      (display : k = .displayIndexOutOfRange → s.params.spriteEdge = .linearSpill)
      (who : MayFault i) : ExecCase s i (s.faultEntry k info)
  | cls : ExecCase s .cls (s.clearDisplay.setDrawFlag true)
  | ret (depth : 0 < s.sp) :
      ExecCase s .ret (State.setPc { s with sp := s.sp - 1 } (s.stackEntry (s.sp - 1)))
  | call (nnn : Addr12) (depth : s.sp < s.params.stackCapacity) :
      ExecCase s (.call nnn)
        (State.setPc { s with stack := s.stack.set s.sp s.pc, sp := s.sp + 1 } (addrOperand nnn))
  | pcAlone (i : Instr) (a : Nat) (target : a = pcAfter i s)
      (width : s.pc < 2 ^ s.params.sizes.pcWidth → a < 2 ^ s.params.sizes.pcWidth)
      (range : s.params.sizes = Config.nea → s.pc ≤ 0x1000 → 2 ≤ s.pc → a ≤ 0x10FE)
      (who : MayWritePcAlone i) : ExecCase s i { s with pc := a }
  | nothing (i : Instr) (who : MayDoNothing i) (target : pcAfter i s = s.pc) : ExecCase s i s
  | register (i : Instr) (x : RegIdx) (b : Byte) (who : WritesRegister s i x) :
      ExecCase s i (s.setReg x b)
  | flag (i : Instr) (x : RegIdx) (f r : State → Byte) (who : WritesFlag i x) :
      ExecCase s i (s.writeWithFlag x f r)
  | rnd (x : RegIdx) (nn b : Byte) : ExecCase s (.rnd x nn) (s.drawByte.2.setReg x b)
  | index (i : Instr) (n : Nat) (who : (∃ n, i = .ldI n) ∨ ∃ x, i = .ldF x) :
      ExecCase s i (s.setIndex n)
  | addI (x : RegIdx) (n : Nat) (b : Byte) : ExecCase s (.addI x) ((s.setIndex n).setReg vf b)
  | ldDtVx (x : RegIdx) (n : Nat) : ExecCase s (.ldDtVx x) (s.setDt n)
  | ldStVx (x : RegIdx) (n : Nat) : ExecCase s (.ldStVx x) (s.setSt n)
  | ldB (x : RegIdx) (bs : List Byte) (length : bs.length = 3)
      (range : s.i + 3 ≤ s.params.sizes.memSize) : ExecCase s (.ldB x) (s.setMemBytes s.i bs)
  | storeRegs (x : RegIdx) (bs : List Byte) (length : bs.length = x.val + 1)
      (range : s.i + (x.val + 1) ≤ s.params.sizes.memSize) :
      ExecCase s (.storeRegs x) (s.setMemBytes s.i bs)
  | loadRegs (x : RegIdx) : ExecCase s (.loadRegs x)
      ((regsUpTo x).foldl (fun t k => t.setReg k (t.memByte (t.effAddr k.val))) s)
  | drw (x y : RegIdx) (n : Nibble) (l : List (Nat × Nat))
      (cells : s.params.spriteEdge = .linearSpill →
        ∀ p ∈ l, s.cellIndex p.1 p.2 < s.params.sizes.cells) : ExecCase s (.drw x y n)
      ((l.foldl (fun t p => t.plot p.1 p.2) (s.setReg vf 0#8)).setDrawFlag true)

/-- A value of `PC` in `PC_WIDTH` bits has that width. -/
theorem pc_width (s : State) (n : Nat) :
    n % 2 ^ s.params.sizes.pcWidth < 2 ^ s.params.sizes.pcWidth :=
  Nat.mod_lt _ (Nat.two_pow_pos _)

/-- A skip keeps `PC` within its width. -/
theorem skip_width (s : State) (c : Prop) [Decidable c] : s.pc < 2 ^ s.params.sizes.pcWidth →
    (if c then s.pcPlusTwo else s.pc) < 2 ^ s.params.sizes.pcWidth := by
  intro h
  split
  · exact pc_width s _
  · exact h

/-- A skip keeps `PC` in the range of `PC` (spec/10_state.md R28). -/
theorem skip_range (s : State) (c : Prop) [Decidable c] : s.params.sizes = Config.nea →
    s.pc ≤ 0x1000 → 2 ≤ s.pc → (if c then s.pcPlusTwo else s.pc) ≤ 0x10FE := by
  intro hz h _
  split
  · simp only [State.pcPlusTwo, hz, nea_pcWidth]
    omega
  · omega

/-- A next state that a skip gives is one of the shapes. -/
theorem skip_case {i : Instr} {s : State} (c : Bool)
    (h : pcAfter i s = if c then s.pcPlusTwo else s.pc) (who : MayWritePcAlone i) :
    ExecCase s i (s.skipIf c) := by
  rw [skipIf_eq]
  exact .pcAlone _ _ h.symm (skip_width _ _) (skip_range _ _) who

/-- The execute step answers a next state in one of these shapes, and in no other way. -/
theorem exec_cases {i : Instr} {s t : State} (h : exec i s = .next t) : ExecCase s i t := by
  cases i
  case cls => cases h; exact .cls
  case ret =>
    simp only [exec, execRet] at h
    split at h
    · cases h
      exact .fault _ _ _ (by decide) (by simp) (by simp [MayFault])
    · rename_i a s1 hp
      cases h
      obtain ⟨h1, rfl, rfl⟩ := pop_inv hp
      exact .ret h1
  case call n =>
    simp only [exec, execCall] at h
    split at h
    · cases h
      exact .fault _ _ _ (by decide) (by simp) (by simp [MayFault])
    · rename_i s1 hp
      cases h
      obtain ⟨h1, rfl⟩ := push_inv hp
      exact .call n h1
  case jp n =>
    cases h
    refine .pcAlone _ _ rfl (fun _ => pc_width s _) (fun hz _ _ => ?_) (by simp [MayWritePcAlone])
    have := n.isLt
    simp only [addrOperand, hz, nea_pcWidth]
    omega
  case jpV0 n =>
    cases h
    refine .pcAlone _ _ rfl (fun _ => pc_width s _) (fun hz _ _ => ?_) (by simp [MayWritePcAlone])
    have := n.isLt
    have := (s.reg 0).isLt
    simp only [addrOperand, hz, nea_pcWidth]
    omega
  case seByte x n =>
    cases h
    exact skip_case _ (by simp [pcAfter]) (by simp [MayWritePcAlone])
  case sneByte x n =>
    cases h
    exact skip_case _ (by simp [pcAfter]) (by simp [MayWritePcAlone])
  case seReg x y n =>
    simp only [exec, execSeReg] at h
    by_cases hh : s.nibbleSelectsSkip n = true
    · rw [if_pos hh] at h
      cases h
      refine skip_case _ ?_ (by simp [MayWritePcAlone])
      unfold State.nibbleSelectsSkip at hh
      cases hp : s.params.skipNibble <;> simp_all [pcAfter]
    · rw [if_neg hh] at h
      cases h
      refine .nothing _ (by simp [MayDoNothing]) ?_
      unfold State.nibbleSelectsSkip at hh
      cases hp : s.params.skipNibble <;> simp_all [pcAfter]
  case sneReg x y n =>
    simp only [exec, execSneReg] at h
    by_cases hh : s.nibbleSelectsSkip n = true
    · rw [if_pos hh] at h
      cases h
      refine skip_case _ ?_ (by simp [MayWritePcAlone])
      unfold State.nibbleSelectsSkip at hh
      cases hp : s.params.skipNibble <;> simp_all [pcAfter]
    · rw [if_neg hh] at h
      cases h
      refine .nothing _ (by simp [MayDoNothing]) ?_
      unfold State.nibbleSelectsSkip at hh
      cases hp : s.params.skipNibble <;> simp_all [pcAfter]
  case skp x =>
    simp only [exec, execSkp] at h
    split at h
    · cases h
      exact .fault _ _ _ (by decide) (by simp) (by simp [MayFault])
    · rename_i k hk
      cases h
      simp only [State.keyOperand, Option.ite_none_right_eq_some, Option.some.injEq] at hk
      obtain ⟨-, rfl⟩ := hk
      exact skip_case _ (by simp [pcAfter]) (by simp [MayWritePcAlone])
  case sknp x =>
    simp only [exec, execSknp] at h
    split at h
    · cases h
      exact .fault _ _ _ (by decide) (by simp) (by simp [MayFault])
    · rename_i k hk
      cases h
      simp only [State.keyOperand, Option.ite_none_right_eq_some, Option.some.injEq] at hk
      obtain ⟨-, rfl⟩ := hk
      exact skip_case _ (by simp [pcAfter]) (by simp [MayWritePcAlone])
  case ldVxK x =>
    simp only [exec, execLdVxK] at h
    split at h
    · cases h
      rename_i k hk
      refine .register _ _ _ (.inr (.inr (.inr ⟨rfl, ?_⟩)))
      by_contra hc
      have : s.highestKey.isNone = true :=
        highestKey_isNone.2 (fun k hn => by simpa using fun h => hc ⟨k, hn, h⟩)
      rw [hk] at this
      cases this
    · rename_i hk
      have hall : ∀ k < s.params.sizes.nkeys, s.keyDown k = false :=
        highestKey_isNone.1 (by simp [hk])
      split at h <;> cases h <;> rename_i hw
      · exact .nothing _ (by simp [MayDoNothing]) (by simp [pcAfter, hw])
      · refine .pcAlone _ _ (by rw [pcAfter, if_pos ⟨hall, hw⟩]) (fun _ => pc_width s _)
          (fun hz _ _ => ?_) (by simp [MayWritePcAlone])
        simp only [hz, nea_pcWidth]
        omega
  case sys => cases h; exact .nothing _ (by simp [MayDoNothing]) rfl
  case noopGroup8 => cases h; exact .nothing _ (by simp [MayDoNothing]) rfl
  case noopGroupE => cases h; exact .nothing _ (by simp [MayDoNothing]) rfl
  case noopGroupF => cases h; exact .nothing _ (by simp [MayDoNothing]) rfl
  case ldByte => cases h; exact .register _ _ _ (by simp [WritesRegister])
  case addByte => cases h; exact .register _ _ _ (by simp [WritesRegister])
  case ldReg => cases h; exact .register _ _ _ (by simp [WritesRegister])
  case orReg => cases h; exact .register _ _ _ (by simp [WritesRegister])
  case andReg => cases h; exact .register _ _ _ (by simp [WritesRegister])
  case xorReg => cases h; exact .register _ _ _ (by simp [WritesRegister])
  case ldVxDt => cases h; exact .register _ _ _ (by simp [WritesRegister])
  case addReg x y => cases h; exact .flag _ _ _ _ (by simp [WritesFlag])
  case subReg x y => cases h; exact .flag _ _ _ _ (by simp [WritesFlag])
  case shrReg x y => cases h; exact .flag _ _ _ _ (by simp [WritesFlag])
  case subnReg x y => cases h; exact .flag _ _ _ _ (by simp [WritesFlag])
  case shlReg x y => cases h; exact .flag _ _ _ _ (by simp [WritesFlag])
  case rnd => cases h; exact .rnd _ _ _
  case ldI => cases h; exact .index _ _ (by simp)
  case ldF => cases h; exact .index _ _ (by simp)
  case addI => cases h; exact .addI _ _ _
  case ldDtVx => cases h; exact .ldDtVx _ _
  case ldStVx => cases h; exact .ldStVx _ _
  case ldB x =>
    simp only [exec, execLdB] at h
    split at h <;> cases h
    · exact .fault _ _ _ (by decide) (by simp) (by simp [MayFault])
    · rename_i hn
      exact .ldB _ _ rfl (((firstBadWrite_eq_none (by decide)).1 hn).1)
  case storeRegs x =>
    simp only [exec, execStoreRegs] at h
    split at h <;> cases h
    · exact .fault _ _ _ (by decide) (by simp) (by simp [MayFault])
    · rename_i hn
      exact .storeRegs _ _ (by simp [regsUpTo_length]) (((firstBadWrite_eq_none (by omega)).1 hn).1)
  case loadRegs x =>
    simp only [exec, execLoadRegs] at h
    split at h <;> cases h
    · exact .fault _ _ _ (by decide) (by simp) (by simp [MayFault])
    · exact .loadRegs _
  case drw x y n =>
    simp only [exec, execDrw] at h
    split at h
    · cases h
      exact .fault _ _ _ (by decide) (by simp) (by simp [MayFault])
    split at h
    · cases h
      rename_i hc
      refine .fault _ _ _ (by decide) (fun _ => ?_) (by simp [MayFault])
      simp only [State.firstBadCell] at hc
      split at hc
      · cases hc
      · assumption
    · cases h
      rename_i hc
      exact .drw _ _ _ _ (firstBadCell_eq_none.1 hc)

end Sys2Proof.Machine
end

