-- ==== Sys2Proof/Laws/PerInstr.lean ====
section
/-! SUPPORT. What the host's case split asks of every constructor: the top nibble of the word of an
instruction is the number of the instruction's group (spec/30_encoding.md R94, R103). -/

namespace Sys2Proof.Laws.TopNibble

/-- The group of an instruction: the leading digit of its row in the opcode map (R103). -/
def group : Instr → Nat
  | .cls | .ret | .sys _ => 0x0
  | .jp _ => 0x1
  | .call _ => 0x2
  | .seByte _ _ => 0x3
  | .sneByte _ _ => 0x4
  | .seReg _ _ _ => 0x5
  | .ldByte _ _ => 0x6
  | .addByte _ _ => 0x7
  | .ldReg _ _ | .orReg _ _ | .andReg _ _ | .xorReg _ _ | .addReg _ _ | .subReg _ _
  | .shrReg _ _ | .subnReg _ _ | .shlReg _ _ | .noopGroup8 _ _ _ => 0x8
  | .sneReg _ _ _ => 0x9
  | .ldI _ => 0xA
  | .jpV0 _ => 0xB
  | .rnd _ _ => 0xC
  | .drw _ _ _ => 0xD
  | .skp _ | .sknp _ | .noopGroupE _ _ => 0xE
  | .ldVxDt _ | .ldVxK _ | .ldDtVx _ | .ldStVx _ | .addI _ | .ldF _ | .ldB _ | .storeRegs _
  | .loadRegs _ | .noopGroupF _ _ => 0xF

/-- The word of `i` has the group of `i` as its top nibble, whatever its fields are. -/
def Statement (i : Instr) : Prop := (topNibble (encode i)).toNat = group i

theorem cls : Statement (.cls) :=
  rfl
theorem ret : Statement (.ret) :=
  rfl
theorem sys (nnn : Addr12) : Statement (.sys nnn) :=
  (fields_packNNN (t := 0x0) (by decide) nnn).1
theorem jp (nnn : Addr12) : Statement (.jp nnn) :=
  (fields_packNNN (t := 0x1) (by decide) nnn).1
theorem call (nnn : Addr12) : Statement (.call nnn) :=
  (fields_packNNN (t := 0x2) (by decide) nnn).1
theorem seByte (x : RegIdx) (nn : Byte) : Statement (.seByte x nn) :=
  (fields_packXNN (t := 0x3) (by decide) x nn).1
theorem sneByte (x : RegIdx) (nn : Byte) : Statement (.sneByte x nn) :=
  (fields_packXNN (t := 0x4) (by decide) x nn).1
theorem seReg (x y : RegIdx) (n : Nibble) : Statement (.seReg x y n) :=
  (fields_packXYN (t := 0x5) (by decide) x y n).1
theorem ldByte (x : RegIdx) (nn : Byte) : Statement (.ldByte x nn) :=
  (fields_packXNN (t := 0x6) (by decide) x nn).1
theorem addByte (x : RegIdx) (nn : Byte) : Statement (.addByte x nn) :=
  (fields_packXNN (t := 0x7) (by decide) x nn).1
theorem ldReg (x y : RegIdx) : Statement (.ldReg x y) :=
  (fields_packXYN (t := 0x8) (by decide) x y 0x0#4).1
theorem orReg (x y : RegIdx) : Statement (.orReg x y) :=
  (fields_packXYN (t := 0x8) (by decide) x y 0x1#4).1
theorem andReg (x y : RegIdx) : Statement (.andReg x y) :=
  (fields_packXYN (t := 0x8) (by decide) x y 0x2#4).1
theorem xorReg (x y : RegIdx) : Statement (.xorReg x y) :=
  (fields_packXYN (t := 0x8) (by decide) x y 0x3#4).1
theorem addReg (x y : RegIdx) : Statement (.addReg x y) :=
  (fields_packXYN (t := 0x8) (by decide) x y 0x4#4).1
theorem subReg (x y : RegIdx) : Statement (.subReg x y) :=
  (fields_packXYN (t := 0x8) (by decide) x y 0x5#4).1
theorem shrReg (x y : RegIdx) : Statement (.shrReg x y) :=
  (fields_packXYN (t := 0x8) (by decide) x y 0x6#4).1
theorem subnReg (x y : RegIdx) : Statement (.subnReg x y) :=
  (fields_packXYN (t := 0x8) (by decide) x y 0x7#4).1
theorem shlReg (x y : RegIdx) : Statement (.shlReg x y) :=
  (fields_packXYN (t := 0x8) (by decide) x y 0xE#4).1
theorem noopGroup8 (x y : RegIdx) (n : Nibble) : Statement (.noopGroup8 x y n) :=
  (fields_packXYN (t := 0x8) (by decide) x y n).1
theorem sneReg (x y : RegIdx) (n : Nibble) : Statement (.sneReg x y n) :=
  (fields_packXYN (t := 0x9) (by decide) x y n).1
theorem ldI (nnn : Addr12) : Statement (.ldI nnn) :=
  (fields_packNNN (t := 0xA) (by decide) nnn).1
theorem jpV0 (nnn : Addr12) : Statement (.jpV0 nnn) :=
  (fields_packNNN (t := 0xB) (by decide) nnn).1
theorem rnd (x : RegIdx) (nn : Byte) : Statement (.rnd x nn) :=
  (fields_packXNN (t := 0xC) (by decide) x nn).1
theorem drw (x y : RegIdx) (n : Nibble) : Statement (.drw x y n) :=
  (fields_packXYN (t := 0xD) (by decide) x y n).1
theorem skp (x : RegIdx) : Statement (.skp x) :=
  (fields_packXNN (t := 0xE) (by decide) x 0x9E#8).1
theorem sknp (x : RegIdx) : Statement (.sknp x) :=
  (fields_packXNN (t := 0xE) (by decide) x 0xA1#8).1
theorem noopGroupE (x : RegIdx) (nn : Byte) : Statement (.noopGroupE x nn) :=
  (fields_packXNN (t := 0xE) (by decide) x nn).1
theorem ldVxDt (x : RegIdx) : Statement (.ldVxDt x) :=
  (fields_packXNN (t := 0xF) (by decide) x 0x07#8).1
theorem ldVxK (x : RegIdx) : Statement (.ldVxK x) :=
  (fields_packXNN (t := 0xF) (by decide) x 0x0A#8).1
theorem ldDtVx (x : RegIdx) : Statement (.ldDtVx x) :=
  (fields_packXNN (t := 0xF) (by decide) x 0x15#8).1
theorem ldStVx (x : RegIdx) : Statement (.ldStVx x) :=
  (fields_packXNN (t := 0xF) (by decide) x 0x18#8).1
theorem addI (x : RegIdx) : Statement (.addI x) :=
  (fields_packXNN (t := 0xF) (by decide) x 0x1E#8).1
theorem ldF (x : RegIdx) : Statement (.ldF x) :=
  (fields_packXNN (t := 0xF) (by decide) x 0x29#8).1
theorem ldB (x : RegIdx) : Statement (.ldB x) :=
  (fields_packXNN (t := 0xF) (by decide) x 0x33#8).1
theorem storeRegs (x : RegIdx) : Statement (.storeRegs x) :=
  (fields_packXNN (t := 0xF) (by decide) x 0x55#8).1
theorem loadRegs (x : RegIdx) : Statement (.loadRegs x) :=
  (fields_packXNN (t := 0xF) (by decide) x 0x65#8).1
theorem noopGroupF (x : RegIdx) (nn : Byte) : Statement (.noopGroupF x nn) :=
  (fields_packXNN (t := 0xF) (by decide) x nn).1

end Sys2Proof.Laws.TopNibble
end

