-- ==== Sys2Proof/Tests/Slice0.lean ====
section
/-! SUPPORT. The model's own tests. Expected results are those of spec/95_test_vectors.md, named in each
docstring, or are read off the rule named there; one instruction each, on small states. The witnesses
show that the hypotheses of each statement can be met, each clause at a boundary of its range. -/

namespace Sys2Proof.Tests

open Sys2Proof Sys2Proof.Machine

-- One theorem after another: many kernel evaluations at once would each hold a thread.
set_option Elab.async false

/-! ## Helpers -/

/-- The next state that an outcome answers, and the state after reset where it answers none. -/
def after : Outcome → State
  | .next t => t
  | .fault _ => State.reset
  | .refused _ => State.reset

/-- Whether an outcome is a next state. -/
def isNext : Outcome → Bool
  | .next _ => true
  | .fault _ => false
  | .refused _ => false

theorem next_after {o : Outcome} (h : isNext o = true) : o = .next (after o) := by
  cases o with
  | next t => rfl
  | fault f => exact absurd h Bool.false_ne_true
  | refused r => exact absurd h Bool.false_ne_true

/-- The state after reset with some registers written. -/
def regs (l : List (RegIdx × Byte)) : State := l.foldl (fun s p => s.setReg p.1 p.2) State.reset

/-- One cycle of `s` with the word `w` at `PC`. -/
def cycle (s : State) (w : Word) : State := after (step (s.placeWord w))

/-- `s` under other parameters. -/
def under (s : State) (p : Config.Params) : State := { s with params := p }

/-- The defaults but for `VF_ORDER = FlagLast`. -/
def flagLast : Config.Params := { paramsDefault with vfOrder := .flagLast }

/-- The defaults but for `KEY_WAIT = Blocking`. -/
def blocking : Config.Params := { paramsDefault with keyWait := .blocking }

/-- The defaults but for `SPRITE_EDGE = LinearSpill`. -/
def spill : Config.Params := { paramsDefault with spriteEdge := .linearSpill }

/-- The defaults but for `FONT_WRITE = Fault`. -/
def fontFault : Config.Params := { paramsDefault with fontWrite := .fault }

/-- The defaults but for `SKIP_NIBBLE = NoOp`. -/
def nibbleNoOp : Config.Params := { paramsDefault with skipNibble := .noOp }

/-! ## Well-formedness: an ill-formed term for each check -/

/-- A no-op that carries the fields of a named class is refused (R95, R98, R99, R100). -/
theorem test_wf_refuses_named_no_ops :
    (Instr.sys 0x0E0#12).wf = false ∧ (Instr.sys 0x0EE#12).wf = false ∧
    (Instr.noopGroup8 1 2 0x7#4).wf = false ∧ (Instr.noopGroup8 1 2 0xE#4).wf = false ∧
    (Instr.noopGroupE 3 0x9E#8).wf = false ∧ (Instr.noopGroupE 3 0xA1#8).wf = false ∧
    (Instr.noopGroupF 4 0x07#8).wf = false ∧ (Instr.noopGroupF 4 0x65#8).wf = false := by decide

/-- Their neighbours are accepted (R95, R98, R99, R100). -/
theorem test_wf_accepts_no_ops :
    (Instr.sys 0x0E1#12).wf = true ∧ (Instr.noopGroup8 1 2 0x8#4).wf = true ∧
    (Instr.noopGroup8 1 2 0xF#4).wf = true ∧ (Instr.noopGroupE 3 0x9F#8).wf = true ∧
    (Instr.noopGroupF 4 0x66#8).wf = true := by decide

/-- The defaults fit one another; a stack of capacity 0 (D33), and a font that does not fill its table,
are refused. -/
theorem test_wf_refuses_parameters :
    paramsDefault.wf = true ∧ Config.Params.wf { paramsDefault with stackCapacity := 0 } = false ∧
    Config.Params.wf { paramsDefault with font := fontDigits0to7 } = false ∧
    Config.Params.wf { paramsDefault with sizes := { fontEnd := 0x04E } } = false := by decide +kernel

/-- Sizes that do not fit one another are refused: a font that ends before it starts, a font or a program
area outside memory, a `PC_RESET` wider than `PC`, fewer registers than a field names, no column, no row. -/
theorem test_wf_refuses_sizes :
    Config.nea.wf = true ∧ Config.Sizes.wf { fontBase := 0x050 } = false ∧
    Config.Sizes.wf { fontEnd := 4096 } = false ∧ Config.Sizes.wf { programMax := 3585 } = false ∧
    Config.Sizes.wf { memSize := 4095 } = false ∧ Config.Sizes.wf { pcReset := 0x10000 } = false ∧
    Config.Sizes.wf { pcWidth := 9 } = false ∧ Config.Sizes.wf { nregs := 15 } = false ∧
    Config.Sizes.wf { displayW := 0 } = false ∧ Config.Sizes.wf { displayH := 0 } = false := by
  decide +kernel

/-- Memories out of order, with an address twice, past 0xFFF, or listing what an unlisted cell reads as
are refused. -/
theorem test_wf_refuses_memories :
    Memory.wf paramsDefault [(0x301, 1#8), (0x300, 1#8)] = false ∧
    Memory.wf paramsDefault [(0x300, 1#8), (0x300, 2#8)] = false ∧
    Memory.wf paramsDefault [(0x1000, 1#8)] = false ∧ Memory.wf paramsDefault [(0x300, 0#8)] = false ∧
    Memory.wf paramsDefault [(0x000, 0xF0#8)] = false ∧ Memory.wf paramsDefault [(0x000, 0#8)] = true ∧
    Memory.wf paramsDefault [(0x300, 1#8), (0xFFF, 2#8)] = true := by decide +kernel

/-! ## Decoding: a word of every constructor, written out from the opcode map (R103) -/

theorem test_decode_group0_to_2 :
    decode 0x00E0#16 = .cls ∧ decode 0x00EE#16 = .ret ∧ decode 0x0123#16 = .sys 0x123#12 ∧
    decode 0x1ABC#16 = .jp 0xABC#12 ∧ decode 0x2345#16 = .call 0x345#12 := by decide

theorem test_decode_skips :
    decode 0x3A42#16 = .seByte 0xA 0x42#8 ∧ decode 0x4B43#16 = .sneByte 0xB 0x43#8 ∧
    decode 0x5123#16 = .seReg 1 2 3#4 ∧ decode 0x9120#16 = .sneReg 1 2 0#4 := by decide

theorem test_decode_loads_and_alu :
    decode 0x6A42#16 = .ldByte 0xA 0x42#8 ∧ decode 0x71FF#16 = .addByte 1 0xFF#8 ∧
    decode 0x8CD0#16 = .ldReg 0xC 0xD ∧ decode 0x8CD1#16 = .orReg 0xC 0xD ∧
    decode 0x8CD2#16 = .andReg 0xC 0xD ∧ decode 0x8CD3#16 = .xorReg 0xC 0xD ∧
    decode 0x8CD4#16 = .addReg 0xC 0xD ∧ decode 0x8CD5#16 = .subReg 0xC 0xD ∧
    decode 0x8CD6#16 = .shrReg 0xC 0xD ∧ decode 0x8CD7#16 = .subnReg 0xC 0xD ∧
    decode 0x8CDE#16 = .shlReg 0xC 0xD ∧ decode 0x8CD8#16 = .noopGroup8 0xC 0xD 8#4 ∧
    decode 0x8CDF#16 = .noopGroup8 0xC 0xD 0xF#4 ∧ decode 0xC30F#16 = .rnd 3 0x0F#8 := by decide

theorem test_decode_groups_A_B_D_E :
    decode 0xA300#16 = .ldI 0x300#12 ∧ decode 0xBFFF#16 = .jpV0 0xFFF#12 ∧
    decode 0xD125#16 = .drw 1 2 5#4 ∧ decode 0xE29E#16 = .skp 2 ∧ decode 0xE2A1#16 = .sknp 2 ∧
    decode 0xE1FF#16 = .noopGroupE 1 0xFF#8 := by decide

theorem test_decode_group_F :
    decode 0xF107#16 = .ldVxDt 1 ∧ decode 0xF50A#16 = .ldVxK 5 ∧ decode 0xF015#16 = .ldDtVx 0 ∧
    decode 0xFE18#16 = .ldStVx 0xE ∧ decode 0xF11E#16 = .addI 1 ∧ decode 0xF029#16 = .ldF 0 ∧
    decode 0xF533#16 = .ldB 5 ∧ decode 0xFF55#16 = .storeRegs 0xF ∧ decode 0xF265#16 = .loadRegs 2 ∧
    decode 0xF1FF#16 = .noopGroupF 1 0xFF#8 ∧ decode 0xF100#16 = .noopGroupF 1 0x00#8 := by decide

/-- The first byte is the high one, and one byte is no word (R65, R66, R90). -/
theorem test_decode_bytes :
    decodeBytes [0x60#8, 0x42#8, 0x99#8] = .ok (.ldByte 0 0x42#8, [0x99#8]) ∧
    decodeBytes [0x60#8] = .error .truncated ∧ encodeBytes (.ldByte 0 0x42#8) = [0x60#8, 0x42#8] ∧
    decodeTableWord 16 0x6042 = some (.ldByte 0 0x42#8) := ⟨rfl, rfl, by decide, by decide⟩

/-! ## The cycle -/

/-- CY1, CY2: a group-0 word is a no-op that ticks, 0x0000 among them. -/
theorem test_sys :
    let t := cycle (State.reset.setDt 3) 0x0123#16
    t.pc = 0x202 ∧ t.dt = 2 ∧ (cycle State.reset 0x0000#16).drawFlag = false := by decide +kernel

/-- CY3, CY4: the no-ops of groups 8, E and F. -/
theorem test_no_ops :
    let t := cycle (regs [(1, 5#8), (2, 9#8)]) 0x8128#16
    t.reg 1 = 5#8 ∧ t.reg 15 = 0#8 ∧ t.pc = 0x202 ∧
    (cycle State.reset 0xE1FF#16).pc = 0x202 ∧ (cycle State.reset 0xF1FF#16).pc = 0x202 := by
  decide +kernel

/-- CY5: the last word of memory executes, and the next fetch faults. -/
theorem test_fetch_at_the_end_of_memory :
    let t := cycle (State.reset.setPc 0xFFE) 0x6042#16
    t.reg 0 = 0x42#8 ∧ t.pc = 0x1000 ∧
    (after (step t)).status = .halted .addressOutOfRange (some 0x1000) ∧
    (after (step t)).pc = 0x1000 := by decide +kernel

/-- CY6, CY10: a word that straddles the end faults at 0x1000, an odd address elsewhere does not. -/
theorem test_fetch_odd :
    (after (step (State.reset.setPc 0xFFF))).status =
      .halted .addressOutOfRange (some 0x1000) ∧
    (cycle (State.reset.setPc 0x201) 0x6A07#16).reg 10 = 7#8 := by decide +kernel

/-- CY7: a halted core answers its fault. -/
theorem test_halted :
    step (State.reset.faultEntry .addressOutOfRange (some 0x1000)) =
      .fault (.halted .addressOutOfRange (some 0x1000)) := rfl

/-- From reset, with nothing loaded, the word at 0x200 is 0x0000, a no-op (R49, R95). -/
theorem test_first_cycle_from_reset : (after (step State.reset)).pc = 0x202 := by decide +kernel

/-! ## Control flow -/

/-- CF4, CF5. -/
theorem test_ret :
    let s := { State.reset with sp := 1, stack := State.reset.stack.set 0 0x202, pc := 0x300 }
    (cycle s 0x00EE#16).pc = 0x202 ∧ (cycle s 0x00EE#16).sp = 0 ∧
    (cycle State.reset 0x00EE#16).status = .halted .stackUnderflow none ∧
    (cycle State.reset 0x00EE#16).pc = 0x202 := by decide +kernel

/-- CF1, CF2: a jump, and a jump to itself, which ticks. -/
theorem test_jp :
    (cycle State.reset 0x1208#16).pc = 0x208 ∧
    (cycle (State.reset.setDt 2) 0x1200#16).pc = 0x200 ∧
    (cycle (State.reset.setDt 2) 0x1200#16).dt = 1 := by decide +kernel

/-- CF3. -/
theorem test_call :
    let t := cycle State.reset 0x2300#16
    t.stackEntry 0 = 0x202 ∧ t.sp = 1 ∧ t.pc = 0x300 := by decide +kernel

/-- CF6. -/
theorem test_call_full :
    let t := cycle { State.reset with sp := 16 } 0x2300#16
    t.status = .halted .stackOverflow (some 0x202) ∧ t.sp = 16 ∧ t.pc = 0x202 := by decide +kernel

/-- CF7, CF15. -/
theorem test_se_byte :
    (cycle (regs [(3, 0x10#8)]) 0x3310#16).pc = 0x204 ∧
    (cycle (regs [(3, 0x10#8)]) 0x3311#16).pc = 0x202 ∧
    (cycle (regs [(15, 0x01#8)]) 0x3F01#16).pc = 0x204 := by decide +kernel

/-- CF8. -/
theorem test_sne_byte :
    (cycle (regs [(3, 0x10#8)]) 0x4310#16).pc = 0x202 ∧
    (cycle (regs [(3, 0x10#8)]) 0x4311#16).pc = 0x204 := by decide +kernel

/-- CY8, CY9, CF10. -/
theorem test_se_reg :
    let s := regs [(1, 0x11#8), (2, 0x11#8)]
    (cycle s 0x5123#16).pc = 0x204 ∧ (cycle (under s nibbleNoOp) 0x5123#16).pc = 0x202 ∧
    (cycle (regs [(1, 7#8), (2, 8#8)]) 0x5120#16).pc = 0x202 := by decide +kernel

/-- CF10, CF11. -/
theorem test_sne_reg :
    (cycle (regs [(1, 7#8), (2, 8#8)]) 0x9120#16).pc = 0x204 ∧
    (cycle (regs [(1, 7#8)]) 0x9110#16).pc = 0x202 := by decide +kernel

/-- CF12, CF13. -/
theorem test_jp_v0 :
    (cycle (regs [(0, 0x04#8)]) 0xB300#16).pc = 0x304 ∧
    (cycle (regs [(0, 0xFF#8)]) 0xBFFF#16).pc = 0x10FE := by decide +kernel

/-! ## Loads and ALU -/

/-- AL1. -/
theorem test_ld_byte : (cycle State.reset 0x6A42#16).reg 10 = 0x42#8 := by decide +kernel

/-- AL2, FL12. -/
theorem test_add_byte :
    let t := cycle (regs [(1, 0xFF#8), (15, 0x07#8)]) 0x7101#16
    t.reg 1 = 0x00#8 ∧ t.reg 15 = 0x07#8 ∧
    (cycle (regs [(15, 0x05#8)]) 0x7F01#16).reg 15 = 0x06#8 := by decide +kernel

/-- AL4. -/
theorem test_ld_reg : (cycle (regs [(2, 0x33#8)]) 0x8120#16).reg 1 = 0x33#8 := by decide +kernel

/-- AL5. -/
theorem test_or_reg :
    let t := cycle (regs [(1, 0x0F#8), (2, 0xF0#8), (15, 0x05#8)]) 0x8121#16
    t.reg 1 = 0xFF#8 ∧ t.reg 15 = 0x05#8 := by decide +kernel

/-- AL6. -/
theorem test_and_reg : (cycle (regs [(1, 0x3C#8), (2, 0x0F#8)]) 0x8122#16).reg 1 = 0x0C#8 := by
  decide +kernel

/-- AL6, AL7. -/
theorem test_xor_reg :
    (cycle (regs [(1, 0x3C#8), (2, 0x0F#8)]) 0x8123#16).reg 1 = 0x33#8 ∧
    (cycle (regs [(1, 0x3C#8)]) 0x8113#16).reg 1 = 0x00#8 := by decide +kernel

/-- AL8, AL10. -/
theorem test_add_reg :
    let t := cycle (regs [(1, 0x80#8), (2, 0x80#8)]) 0x8124#16
    let u := cycle (regs [(1, 0x7F#8), (2, 0x80#8)]) 0x8124#16
    t.reg 1 = 0x00#8 ∧ t.reg 15 = 1#8 ∧ u.reg 1 = 0xFF#8 ∧ u.reg 15 = 0#8 := by decide +kernel

/-- FL1. -/
theorem test_add_reg_to_vf :
    let s := regs [(15, 0xFF#8), (1, 0x01#8)]
    (cycle s 0x8F14#16).reg 15 = 0x00#8 ∧ (cycle (under s flagLast) 0x8F14#16).reg 15 = 0x01#8 := by
  decide +kernel

/-- S3, AL11. -/
theorem test_sub_reg :
    let t := cycle (regs [(1, 0x05#8), (2, 0x0A#8)]) 0x8125#16
    let u := cycle (regs [(1, 0x05#8), (2, 0x05#8)]) 0x8125#16
    t.reg 1 = 0xFB#8 ∧ t.reg 15 = 0#8 ∧ u.reg 1 = 0x00#8 ∧ u.reg 15 = 1#8 := by decide +kernel

/-- FL4, FL5. -/
theorem test_sub_reg_with_vf :
    let s := regs [(15, 0x05#8), (1, 0x0A#8)]
    let u := regs [(1, 0x05#8), (15, 0x0A#8)]
    (cycle s 0x8F15#16).reg 15 = 0xF6#8 ∧ (cycle (under s flagLast) 0x8F15#16).reg 15 = 0x00#8 ∧
    (cycle u 0x81F5#16).reg 1 = 0x05#8 ∧ (cycle (under u flagLast) 0x81F5#16).reg 1 = 0xFB#8 := by
  decide +kernel

/-- AL15, AL16. -/
theorem test_shr_reg :
    let t := cycle (regs [(1, 0xFE#8), (2, 0x01#8)]) 0x8126#16
    let u := cycle (regs [(1, 0x01#8)]) 0x8106#16
    t.reg 1 = 0x7F#8 ∧ t.reg 15 = 0#8 ∧ u.reg 1 = 0x00#8 ∧ u.reg 15 = 1#8 := by decide +kernel

/-- FL7. -/
theorem test_shr_vf :
    (cycle (regs [(15, 0x03#8)]) 0x8F06#16).reg 15 = 0x00#8 ∧
    (cycle (under (regs [(15, 0x03#8)]) flagLast) 0x8F06#16).reg 15 = 0x01#8 := by decide +kernel

/-- AL12, AL13. -/
theorem test_subn_reg :
    let t := cycle (regs [(1, 0x05#8), (2, 0x0A#8)]) 0x8127#16
    let u := cycle (regs [(1, 0x0A#8), (2, 0x05#8)]) 0x8127#16
    t.reg 1 = 0x05#8 ∧ t.reg 15 = 1#8 ∧ u.reg 1 = 0xFB#8 ∧ u.reg 15 = 0#8 := by decide +kernel

/-- FL8, FL9. -/
theorem test_subn_reg_with_vf :
    let s := regs [(15, 0x05#8), (1, 0x0A#8)]
    let u := regs [(1, 0x05#8), (15, 0x0A#8)]
    (cycle s 0x8F17#16).reg 15 = 0x09#8 ∧ (cycle (under s flagLast) 0x8F17#16).reg 15 = 0x01#8 ∧
    (cycle u 0x81F7#16).reg 1 = 0xFC#8 ∧ (cycle (under u flagLast) 0x81F7#16).reg 1 = 0x05#8 := by
  decide +kernel

/-- AL17, AL18. -/
theorem test_shl_reg :
    let t := cycle (regs [(1, 0x7F#8)]) 0x810E#16
    let u := cycle (regs [(1, 0x80#8)]) 0x810E#16
    t.reg 1 = 0xFE#8 ∧ t.reg 15 = 0#8 ∧ u.reg 1 = 0x00#8 ∧ u.reg 15 = 1#8 := by decide +kernel

/-- FL11. -/
theorem test_shl_vf :
    (cycle (regs [(15, 0x81#8)]) 0x8F0E#16).reg 15 = 0x02#8 ∧
    (cycle (under (regs [(15, 0x81#8)]) flagLast) 0x8F0E#16).reg 15 = 0x01#8 := by decide +kernel

/-- AL20 and R190: with NN = 0 the result is 0 whatever the draw is, and the draw still happens. -/
theorem test_rnd :
    let s := (regs [(3, 0x55#8)]).placeWord 0xC300#16
    (after (step s)).reg 3 = 0x00#8 ∧ (after (step s)).rng = s.rng + 1 :=
  ⟨by
    show Config.draw 0 &&& 0#8 = 0#8
    simp, by rfl⟩

/-! ## Index register and memory -/

/-- MX1. -/
theorem test_ld_i : (cycle State.reset 0xA300#16).i = 0x300 := by decide +kernel

/-- MX3, MX4. -/
theorem test_add_i :
    let t := cycle ((regs [(1, 0x01#8)]).setIndex 0xFFF) 0xF11E#16
    let u := cycle ((regs [(1, 0x02#8)]).setIndex 0xFFFF) 0xF11E#16
    t.i = 0x1000 ∧ t.reg 15 = 1#8 ∧ u.i = 0x0001 ∧ u.reg 15 = 0#8 := by decide +kernel

/-- MX5. -/
theorem test_add_i_vf :
    let t := cycle ((regs [(15, 0x20#8)]).setIndex 0x100) 0xFF1E#16
    t.i = 0x120 ∧ t.reg 15 = 0#8 := by decide +kernel

/-- MX6, MX8. -/
theorem test_ld_f :
    (cycle (regs [(0, 0x0A#8)]) 0xF029#16).i = 0x032 ∧
    (cycle (regs [(0, 0xFF#8)]) 0xF029#16).i = 0x4FB := by decide +kernel

/-- MX9. -/
theorem test_ld_b :
    let t := cycle ((regs [(5, 234#8)]).setIndex 0x300) 0xF533#16
    t.memByte 0x300 = 2#8 ∧ t.memByte 0x301 = 3#8 ∧ t.memByte 0x302 = 4#8 := by decide +kernel

/-- MX12, MX13: the first failing address, and nothing stored. -/
theorem test_ld_b_faults :
    let t := cycle ((regs [(5, 111#8)]).setIndex 0xFFE) 0xF533#16
    let u := cycle (under ((regs [(5, 111#8)]).setIndex 0x04E) fontFault) 0xF533#16
    t.status = .halted .addressOutOfRange (some 0x1000) ∧ t.memByte 0xFFE = 0#8 ∧
    u.status = .halted .addressOutOfRange (some 0x04E) ∧ u.memByte 0x050 = 0#8 := by decide +kernel

/-- MX15. -/
theorem test_store_regs :
    let t := cycle ((regs [(0, 1#8), (1, 2#8), (2, 3#8)]).setIndex 0x300) 0xF155#16
    t.memByte 0x300 = 1#8 ∧ t.memByte 0x301 = 2#8 ∧ t.memByte 0x302 = 0#8 ∧ t.i = 0x300 := by
  decide +kernel

/-- MX17. -/
theorem test_store_regs_faults :
    let t := cycle ((regs [(0, 1#8)]).setIndex 0xFFE) 0xF255#16
    t.status = .halted .addressOutOfRange (some 0x1000) ∧ t.memByte 0xFFE = 0#8 := by decide +kernel

/-- MX18. -/
theorem test_load_regs :
    let t := cycle ((State.reset.setMemBytes 0x300 [2#8, 3#8, 4#8, 5#8]).setIndex 0x300) 0xF265#16
    t.reg 0 = 2#8 ∧ t.reg 1 = 3#8 ∧ t.reg 2 = 4#8 ∧ t.reg 3 = 0#8 ∧ t.i = 0x300 := by
  decide +kernel

/-- MX19, MX20. -/
theorem test_load_regs_font_and_fault :
    (cycle State.reset 0xF065#16).reg 0 = 0xF0#8 ∧
    (cycle ((regs [(0, 9#8)]).setIndex 0x1000) 0xF065#16).status =
      .halted .addressOutOfRange (some 0x1000) ∧
    (cycle ((regs [(0, 9#8)]).setIndex 0x1000) 0xF065#16).reg 0 = 9#8 := by decide +kernel

/-- R64: the digit A, as program P4 prints it, and the last glyph's last byte. -/
theorem test_font :
    (List.range 5).map (fun k => State.reset.memByte (0x032 + k)) = [0xF0#8, 0x90#8, 0xF0#8, 0x90#8, 0x90#8] ∧
    State.reset.memByte 0x04F = 0x80#8 ∧ State.reset.memByte 0x050 = 0#8 := by decide +kernel

/-! ## Display -/

/-- DS1. -/
theorem test_cls :
    let t := cycle (({ regs [(15, 7#8)] with disp := 5 })) 0x00E0#16
    t.disp = 0 ∧ t.drawFlag = true ∧ t.reg 15 = 7#8 := by decide +kernel

/-- DS6, DS7: pixels past the right edge. -/
theorem test_drw_edge :
    let s := ((regs [(0, 62#8)]).setMemBytes 0x300 [0xF0#8]).setIndex 0x300
    (cycle s 0xD011#16).disp = 2 ^ 62 ||| 2 ^ 63 ∧
    (cycle s 0xD011#16).reg 15 = 0#8 ∧
    (cycle (under s spill) 0xD011#16).disp = 0xF <<< 62 := by decide +kernel

/-- DS12, DS9: the start is read before VF is reset; a spill past the last cell faults. -/
theorem test_drw_collision_and_fault :
    let s := { (State.reset.setMemBytes 0x300 [0x80#8, 0x80#8]).setIndex 0x300 with disp := 1 }
    (cycle s 0xDFF1#16).disp = 0 ∧ (cycle s 0xDFF1#16).reg 15 = 1#8 ∧
    (cycle (under (s.setReg 1 31#8) spill) 0xD012#16).status =
      .halted .displayIndexOutOfRange (some 2048) ∧
    (cycle (under (s.setReg 1 31#8) spill) 0xD012#16).disp = 1 := by decide +kernel

/-! ## Keys and timers -/

/-- KT1, KT2, KT3. -/
theorem test_skp :
    let s := regs [(2, 5#8)]
    (cycle (s.keyWrite 5 true) 0xE29E#16).pc = 0x204 ∧ (cycle s 0xE29E#16).pc = 0x202 ∧
    (cycle (regs [(2, 0x10#8)]) 0xE29E#16).status = .halted .keyIndexOutOfRange (some 0x10) := by
  decide +kernel

/-- KT1, KT2. -/
theorem test_sknp :
    let s := regs [(2, 5#8)]
    (cycle (s.keyWrite 5 true) 0xE2A1#16).pc = 0x202 ∧ (cycle s 0xE2A1#16).pc = 0x204 := by
  decide +kernel

/-- KT4. -/
theorem test_ld_vx_dt :
    let t := cycle (State.reset.setDt 4) 0xF107#16
    t.reg 1 = 4#8 ∧ t.dt = 3 := by decide +kernel

/-- KT6. -/
theorem test_ld_vx_k :
    let t := cycle (((State.reset.keyWrite 3 true).keyWrite 9 true).setDt 5) 0xF50A#16
    t.reg 5 = 9#8 ∧ t.pc = 0x202 ∧ t.dt = 4 := by decide +kernel

/-- KT7, KT8. -/
theorem test_ld_vx_k_no_key :
    let s := (regs [(5, 0x77#8)]).setDt 5
    let t := cycle s 0xF50A#16
    let u := cycle (under s blocking) 0xF50A#16
    t.pc = 0x202 ∧ t.reg 5 = 0x77#8 ∧ t.dt = 5 ∧ u.pc = 0x200 ∧ u.dt = 5 := by decide +kernel

/-- KT9, KT10. -/
theorem test_ld_dt_vx :
    (cycle (regs [(0, 5#8)]) 0xF015#16).dt = 4 ∧ (cycle State.reset 0xF015#16).dt = 0 := by
  decide +kernel

/-- KT11. -/
theorem test_ld_st_vx : (cycle (regs [(0, 5#8)]) 0xF018#16).st = 4 := by decide +kernel

/-! ## Host operations -/

/-- SR7: a second, shorter image leaves the rest of the first. -/
theorem test_load_twice :
    let t := ((State.reset.serve (.load [0xAA#8, 0xBB#8, 0xCC#8])).1.serve (.load [0x11#8])).1
    t.memByte 0x200 = 0x11#8 ∧ t.memByte 0x201 = 0xBB#8 ∧ t.memByte 0x202 = 0xCC#8 := by
  decide +kernel

/-- SR6: reset leaves the halted state. -/
theorem test_reset_restarts :
    ((State.reset.faultEntry .stackUnderflow none).serve (.reset 7)).1.status = .running := rfl

/-- R32, R51: the queries of the stack. -/
theorem test_peek :
    State.reset.peek = .error .stackUnderflow ∧
    ({ State.reset with sp := 1, stack := State.reset.stack.set 0 0x202 }).peek = .ok 0x202 ∧
    State.reset.depth = 0 := ⟨rfl, rfl, rfl⟩

/-! ## Other sizes than R6's: each is an argument of the machine -/

/-- The state after reset of a machine of the sizes `z`. -/
def sized (z : Config.Sizes) : State := State.resetWith { paramsDefault with sizes := z } 0

/-- MEM_SIZE, PC_RESET and PC_WIDTH: a cycle at the last address faults, and a jump keeps 12 bits. -/
theorem test_other_memory_and_pc :
    (after (step ((sized { memSize := 0x800 }).setPc 0x7FF))).status =
      .halted .addressOutOfRange (some 0x800) ∧ (sized { pcReset := 0x600 }).pc = 0x600 ∧
    (cycle ((sized { pcWidth := 12 }).setReg 0 1#8) 0xBFFF#16).pc = 0x000 := by decide +kernel

/-- NREGS, NKEYS, I_WIDTH and TIMER_WIDTH: 32 registers, a keypad of 8 keys, a 12-bit I, 4-bit timers. -/
theorem test_other_registers :
    (sized { nregs := 32 }).v.length = 32 ∧
    (cycle ((sized { nkeys := 8 }).setReg 2 8#8) 0xE29E#16).status =
      .halted .keyIndexOutOfRange (some 8) ∧
    (cycle (((sized { iWidth := 12 }).setReg 1 2#8).setIndex 0xFFF) 0xF11E#16).i = 0x001 ∧
    (cycle ((sized { timerWidth := 4 }).setReg 0 0x15#8) 0xF015#16).dt = 4 := by decide +kernel

/-- DISPLAY_W and DISPLAY_H: on a grid of 8 columns and 4 rows, column 9 and row 5 are cell 9. -/
theorem test_other_display :
    let s := (((sized { displayW := 8, displayH := 4 }).setReg 0 9#8).setReg 1 5#8).setMemBytes 0x300 [0x80#8]
    (cycle (s.setIndex 0x300) 0xD011#16).disp = 2 ^ 9 := by decide +kernel

/-- FONT_BASE, PROGRAM_BASE and PROGRAM_MAX. -/
theorem test_other_font_and_program :
    (sized { fontBase := 0x010, fontEnd := 0x05F }).memByte 0x010 = 0xF0#8 ∧
    (sized { fontBase := 0x010, fontEnd := 0x05F }).memByte 0x00F = 0#8 ∧
    ((sized { programBase := 0x600 }).serve (.load [7#8])).1.memByte 0x600 = 7#8 ∧
    ((sized { programMax := 1 }).serve (.load [7#8, 8#8])).2 = .fault .programTooLarge (some 2) := by
  decide +kernel

/-! ## Memory -/

/-- Storing what an unlisted cell reads as removes the cell, and equal memories are equal lists. -/
theorem test_memory_is_canonical :
    let s := (State.reset.setMemByte 0x301 5#8).setMemByte 0x300 7#8
    s.mem = [(0x300, 7#8), (0x301, 5#8)] ∧ (s.setMemByte 0x300 0#8).mem = [(0x301, 5#8)] ∧
    (State.reset.setMemByte 0x000 0xF0#8).mem = [] ∧
    (State.reset.setMemByte 0x000 0#8).mem = [(0x000, 0#8)] := by decide +kernel

/-! ## Witnesses: states and operands that meet the hypotheses of each statement -/

/-- Whether a state is one of this hardware, every field of its size. -/
def isNea (s : State) : Bool :=
  s.params.sizes = Config.nea && s.v.length = 16 && s.i < 65536 && s.pc < 65536 &&
  s.stack.all (· < 65536) && s.dt < 256 && s.st < 256 && s.disp < 2 ^ Config.nea.cells && s.key.length = 16

theorem nea_of {s : State} (h : isNea s = true) : s.Nea := by
  simp only [isNea, Bool.and_eq_true, decide_eq_true_eq, List.all_eq_true] at h
  obtain ⟨⟨⟨⟨⟨⟨⟨⟨hz, h1⟩, h2⟩, h3⟩, h4⟩, h5⟩, h6⟩, h7⟩, h8⟩ := h
  refine ⟨hz, ?_, ?_, ?_, ?_, ?_, ?_, ?_, ?_⟩ <;> rw [hz] <;> assumption

/-- With no key pressed among the 16, no number reads as a pressed key. -/
theorem no_key {s : State} (h : s.key = List.replicate 16 false) (k : Nat) : s.keyDown k = false := by
  rw [State.keyDown, h, List.getElem?_replicate]
  split <;> rfl

/-- With 16 keys, a key above the last one pressed reads as not pressed. -/
theorem no_key_above {s : State} {k : Nat} (hl : s.key.length = 16)
    (h : ∀ j < 16, k < j → s.keyDown j = false) (j : Nat) (hj : k < j) : s.keyDown j = false := by
  by_cases hn : j < 16
  · exact h j hn hj
  · have : s.key.length ≤ j := by omega
    simp [State.keyDown, this]

/-- A core halted as CY6 leaves it. -/
def haltedCore : State := State.reset.faultEntry .addressOutOfRange (some 0x1000)

/-- A full stack, as SR1 leaves it, with the advanced `PC` of the next 0x2200. -/
def fullStack : State :=
  { State.reset with sp := 16, stack := List.replicate 16 0x202, pc := 0x202 }

/-- A ready core about to execute `w` at the last address a word can start at. -/
def atLast (w : Word) : State := (State.reset.setPc 0xFFE).placeWord w

/-- GroupZeroDecodesOnTheWholeWord: the ends of the range and the neighbours of the two exceptions. -/
theorem witness_group_zero :
    [0x0000#16, 0x00DF#16, 0x00E1#16, 0x00ED#16, 0x00EF#16, 0x0FFF#16].all (fun w =>
      w.toNat ≤ 0x0FFF && w ≠ 0x00E0#16 && w ≠ 0x00EE#16) = true := by decide

/-- TopNibbleSelectsTheClass: a word for each top nibble, its other bits all ones. -/
theorem witness_top_nibble : (0x1FFF#16).toNat / 4096 = 0x1 ∧ (0x2FFF#16).toNat / 4096 = 0x2 ∧
    (0x3FFF#16).toNat / 4096 = 0x3 ∧ (0x4FFF#16).toNat / 4096 = 0x4 ∧
    (0x6FFF#16).toNat / 4096 = 0x6 ∧ (0x7FFF#16).toNat / 4096 = 0x7 ∧
    (0xAFFF#16).toNat / 4096 = 0xA ∧ (0xBFFF#16).toNat / 4096 = 0xB ∧
    (0xCFFF#16).toNat / 4096 = 0xC ∧ (0xDFFF#16).toNat / 4096 = 0xD := by decide

/-- SubCodesSelectTheClassOrTheNoOp: each sub-code has a word, and so has each no-op. -/
theorem witness_sub_codes :
    (∀ n < 16, (0x8FF0 + n) / 4096 = 0x8 ∧ (0x8FF0 + n) % 16 = n) ∧
    (∀ n < 256, (0xEF00 + n) / 4096 = 0xE ∧ (0xEF00 + n) % 256 = n) ∧
    (∀ n < 256, (0xFF00 + n) / 4096 = 0xF ∧ (0xFF00 + n) % 256 = n) := by decide +kernel

/-- DecodeOfEncodeIsTheInstruction. -/
theorem witness_well_formed : (Instr.drw 15 15 0xF#4).wf = true ∧ (Instr.sys 0xFFF#12).wf = true ∧
    (Instr.noopGroupF 15 0xFF#8).wf = true := by decide

/-- StepRunsTheDecodedInstruction: a ready core at the last word of memory. -/
theorem witness_ready : (atLast 0x6042#16).ready ∧ decode (atLast 0x6042#16).word = .ldByte 0 0x42#8 :=
  ⟨⟨by decide +kernel, by decide +kernel⟩, by decide +kernel⟩

/-- HaltedCoreReturnsTheRecordedFault, OnlyResetLeavesTheHaltedState, and the last clause of
TimersTickExactlyOnCompletion. -/
theorem witness_halted : haltedCore.status = .halted .addressOutOfRange (some 0x1000) ∧
    haltedCore.status ≠ .running ∧
    (∀ seed, Request.drawFlagClear ≠ .reset seed) ∧ (∀ seed, Request.cycle ≠ .reset seed) :=
  ⟨rfl, by decide, fun _ h => Request.noConfusion h, fun _ h => Request.noConfusion h⟩

/-- The premise Nea, alone: the statements about an instruction that hold in every state of this hardware. -/
theorem witness_nea : State.reset.Nea ∧ (under (regs [(15, 0xFF#8), (14, 0xFF#8)]) flagLast).Nea :=
  ⟨nea_of (by decide +kernel), nea_of (by decide +kernel)⟩

/-- FetchReadsBigEndianOrFaults: the last address of the first clause and the first of the second. -/
theorem witness_fetch : (State.reset.setPc 0xFFE).Nea ∧ (State.reset.setPc 0xFFE).pc ≤ 0xFFE ∧
    (State.reset.setPc 0xFFF).Nea ∧ (State.reset.setPc 0xFFF).status = .running ∧
    0xFFE < (State.reset.setPc 0xFFF).pc :=
  ⟨nea_of (by decide +kernel), by decide, nea_of (by decide +kernel), by decide, by decide⟩

/-- TimersTickExactlyOnCompletion: a fault, an FX0A with no key, and a completing instruction. -/
theorem witness_timers :
    (∃ t, (atLast 0x00EE#16).ready ∧ t.status ≠ .running ∧
      exec (decode (atLast 0x00EE#16).word) { atLast 0x00EE#16 with pc := (atLast 0x00EE#16).pcPlusTwo } =
        .next t) ∧
    ((atLast 0xF50A#16).ready ∧ decode (atLast 0xF50A#16).word = .ldVxK 5 ∧
      ∀ k < (atLast 0xF50A#16).params.sizes.nkeys, (atLast 0xF50A#16).keyDown k = false) ∧
    (∃ t, (atLast 0x6042#16).ready ∧ t.status = .running ∧
      exec (decode (atLast 0x6042#16).word) { atLast 0x6042#16 with pc := (atLast 0x6042#16).pcPlusTwo } =
        .next t) :=
  ⟨⟨_, ⟨by decide +kernel, by decide +kernel⟩, by decide +kernel, next_after (by decide +kernel)⟩,
    ⟨⟨by decide +kernel, by decide +kernel⟩, by decide +kernel, fun k _ => no_key (by decide +kernel) k⟩,
    ⟨_, ⟨by decide +kernel, by decide +kernel⟩, by decide +kernel, next_after (by decide +kernel)⟩⟩

/-- EveryInstructionAnswersNext. -/
theorem witness_running : State.reset.status = .running := rfl

/-- The invariant holds right after reset: the premise of StepKeepsTheBlockInvariant and of
EveryRequestKeepsTheBlockInvariant. -/
theorem witness_inv : State.reset.Inv where
  sizes := rfl
  bounded := ⟨witness_nea.1.fits, by decide, by decide, by decide⟩
  pcRange := by decide
  stackRange := fun a h => by rw [List.eq_of_mem_replicate (n := 16) (a := 0) h]; decide
  status := by decide

/-- `PC` at the end of its range and the stack full of the highest entry. -/
def atTheBounds : State :=
  { fullStack with pc := 0x10FE, stack := List.replicate 16 0x1000, mem := [(0xFFF, 1#8)] }

/-- The invariant holds there. -/
theorem witness_inv_at_the_bounds : atTheBounds.Inv where
  sizes := rfl
  bounded := ⟨(nea_of (s := atTheBounds) (by decide +kernel)).fits, by decide +kernel, by decide, by decide⟩
  pcRange := by decide
  stackRange := fun a h => by rw [List.eq_of_mem_replicate (n := 16) (a := 0x1000) h]
  status := by decide

/-- ResetStateMeetsTheInvariant, ResetGivesTheListedValues, RequestsKeepEveryFieldInItsParameters: the
defaults, and another font and another choice. -/
theorem witness_parameters : paramsDefault.wf = true ∧ paramsDefault.sizes = Config.nea ∧
    Config.Params.wf { paramsDefault with font := List.replicate 80 1#8, vfOrder := .flagLast } = true := by
  decide +kernel

/-- A machine of other sizes, at the ends of its fields. -/
def small : State :=
  { sized { memSize := 0x800, programMax := 0x600, pcWidth := 12, iWidth := 12, displayW := 8,
            displayH := 4, nkeys := 8, timerWidth := 4, nregs := 17 } with
    v := List.replicate 17 8#8, i := 0x7FF, pc := 0x7FF, dt := 15, st := 15, disp := 2 ^ 32 - 1, mem := [(0x7FF, 0x80#8)] }

/-- `I` at the end of the font table, which stores may not reach. -/
def inFont : State := (under State.reset fontFault).setIndex 0x04F

/-- StepKeepsEveryFieldInItsParameters, RequestsKeepEveryFieldInItsParameters, EachSizeGovernsTheMachine:
other sizes than R6's, and the conditions of the clauses at the ends of their ranges. -/
theorem witness_other_sizes : small.params.wf = true ∧ small.Bounded ∧
    (∃ t, step small = .next t) ∧ small.status = .running ∧
    small.params.sizes.memSize ≤ small.pc + 1 ∧
    small.params.sizes.memSize ≤ small.i + (1 : RegIdx).val ∧
    inFont.Bounded ∧ inFont.params.fontWrite = .fault ∧ inFont.i ≤ inFont.params.sizes.fontEnd ∧
    small.params.sizes.programMax < (List.replicate 0x601 0#8).length ∧
    (List.replicate 0x600 0#8).length ≤ small.params.sizes.programMax ∧
    (15 : RegIdx).val < small.params.sizes.nregs ∧ small.i < small.params.sizes.memSize ∧
    small.memByte small.i = 0x80#8 ∧
    small.params.sizes.nkeys ≤ (small.reg 0).toNat := by
  refine ⟨by decide +kernel, ⟨⟨?_, ?_, ?_, fun a h => ?_, ?_, ?_, ?_, ?_⟩, by decide +kernel, by decide +kernel,
    by decide +kernel⟩, ⟨after (step small), next_after (by decide +kernel)⟩, by decide +kernel,
    by decide +kernel, by decide +kernel,
    ⟨(nea_of (s := inFont) (by decide +kernel)).fits, by decide +kernel, by decide +kernel, by decide +kernel⟩,
    by decide +kernel, by decide +kernel, ?_, ?_, by decide +kernel, by decide +kernel, by decide +kernel,
    by decide +kernel⟩
  all_goals try (decide +kernel)
  · rw [List.eq_of_mem_replicate (n := 16) (a := 0) h]
    decide +kernel

/-- StepKeepsTheBlockInvariant, NoCycleRaisesUnknownInstruction: a step of the state after reset. -/
theorem witness_step : ∃ t, step State.reset = .next t := ⟨after (step State.reset), next_after (by decide +kernel)⟩

/-- ResetIsIdempotentAndRestarts: two states with the same parameters. -/
theorem witness_same_parameters : haltedCore.params = State.reset.params ∧ haltedCore ≠ State.reset :=
  ⟨rfl, by decide +kernel⟩

/-- LoadCopiesTheImageOrRefusesIt: the longest image, and one byte more. -/
theorem witness_load : State.reset.Nea ∧ 3584 < (List.replicate 3585 0#8).length ∧
    (List.replicate 3584 0#8).length ≤ 3584 ∧
    Memory.wf State.reset.params State.reset.mem = true :=
  ⟨witness_nea.1, by rw [List.length_replicate]; decide, by rw [List.length_replicate], by decide⟩

/-- KeyAndDrawFlagPortsTouchOneFieldEach: the last key. -/
theorem witness_other_key : State.reset.Nea ∧ 15 ≤ 15 ∧ 0 ≠ 15 := ⟨witness_nea.1, by decide, by decide⟩

/-- FaultingCycleChangesOnlyPcAndStatus: a failed fetch, and a return from an empty stack. -/
theorem witness_faulting_cycle :
    (∃ t, step (State.reset.setPc 0xFFF) = .next t ∧
      t.status = .halted .addressOutOfRange (some 0x1000)) ∧
    (∃ t, step (State.reset.placeWord 0x00EE#16) = .next t ∧ t.status = .halted .stackUnderflow none) ∧
    (State.reset.placeWord 0x00EE#16).status = .running ∧ (State.reset.placeWord 0x00EE#16).Nea ∧
    (State.reset.setPc 0xFFF).Nea :=
  ⟨⟨after (step (State.reset.setPc 0xFFF)), next_after (by decide +kernel), by decide +kernel⟩,
    ⟨cycle State.reset 0x00EE#16, next_after (by decide +kernel), by decide +kernel⟩, by decide +kernel,
    nea_of (by decide +kernel), nea_of (by decide +kernel)⟩

/-- PcAfterEachInstruction: a skip, an FX0A and a return that leave the core running. -/
theorem witness_pc_after :
    (∃ t, exec (.seByte 0 0#8) State.reset = .next t ∧ t.status = .running) ∧
    (∃ t, exec (.ldVxK 0) (under State.reset blocking) = .next t ∧ t.status = .running) ∧
    (∃ t, exec .ret fullStack = .next t ∧ t.status = .running) :=
  ⟨⟨_, rfl, rfl⟩, ⟨_, rfl, rfl⟩, ⟨_, rfl, rfl⟩⟩

/-- OnlyThreeInstructionsWriteIndex. -/
theorem witness_index_changes : ∃ t, exec (.ldI 0xFFF#12) State.reset = .next t ∧ t.i ≠ State.reset.i :=
  ⟨_, rfl, by decide⟩

/-- OnlyTwoInstructionsWriteMemory: the last byte of memory, by FX33 and by FX55. -/
theorem witness_memory_changes :
    let s := (regs [(0, 0xFF#8)]).setIndex 0xFFD
    let u := (regs [(0, 0xFF#8)]).setIndex 0xFFF
    Memory.wf s.params s.mem = true ∧ Memory.wf u.params u.mem = true ∧
    (∃ t, exec (.ldB 0) s = .next t ∧ t.memByte 0xFFF ≠ s.memByte 0xFFF) ∧
    (∃ t, exec (.storeRegs 0) u = .next t ∧ t.memByte 0xFFF ≠ u.memByte 0xFFF) :=
  ⟨by decide, by decide,
    ⟨after (exec (.ldB 0) ((regs [(0, 0xFF#8)]).setIndex 0xFFD)), next_after (by decide +kernel), by decide +kernel⟩,
    ⟨after (exec (.storeRegs 0) ((regs [(0, 0xFF#8)]).setIndex 0xFFF)), next_after (by decide +kernel), by decide +kernel⟩⟩

/-- OnlyTwoInstructionsTouchTheDisplay. -/
theorem witness_display_changes : ∃ t, exec .cls { State.reset with disp := 1 } = .next t ∧
    t.disp ≠ 1 ∧ t.drawFlag ≠ false := ⟨_, rfl, by decide +kernel, by decide⟩

/-- StackKeysAndTimersHaveTheirOwnWriters. -/
theorem witness_stack_and_timers_change :
    (∃ t, exec (.call 0x300#12) State.reset = .next t ∧ t.sp ≠ State.reset.sp ∧
      t.stack ≠ State.reset.stack) ∧
    (∃ t, exec (.ldDtVx 0) (regs [(0, 1#8)]) = .next t ∧ t.dt ≠ 0) ∧
    (∃ t, exec (.ldStVx 0) (regs [(0, 1#8)]) = .next t ∧ t.st ≠ 0) :=
  ⟨⟨_, rfl, by decide, by decide⟩, ⟨_, rfl, by decide⟩, ⟨_, rfl, by decide⟩⟩

/-- VfIsWrittenOnlyAsFlagOrDestination. -/
theorem witness_vf_changes :
    (∃ t, exec (.addReg 1 2) (regs [(1, 0x80#8), (2, 0x80#8)]) = .next t ∧ t.reg 15 ≠ 0#8) ∧
    (∃ t, exec (.ldByte 15 1#8) State.reset = .next t ∧ t.reg 15 ≠ State.reset.reg 15) :=
  ⟨⟨_, rfl, by decide⟩, ⟨_, rfl, by decide⟩⟩

/-- EntriesAboveTheTopAreUnobservable: two states that differ in an entry above the top, and a step. -/
theorem witness_above_the_top :
    let s := State.reset
    let t := { State.reset with stack := State.reset.stack.set 0 0x202 }
    SameBelowTop s t ∧ s ≠ t ∧ ∃ s', step s = .next s' :=
  ⟨⟨rfl, rfl, fun _ h => absurd h (Nat.not_lt_zero _)⟩, by decide +kernel, witness_step⟩

/-- SoundTimerIsReadByNoInstruction: FX18, and an instruction that is not FX18. -/
theorem witness_sound_timer : (∃ t, exec .cls State.reset = .next t) ∧ (∀ x, Instr.cls ≠ .ldStVx x) ∧
    ∃ t, exec (.ldStVx 0) State.reset = .next t :=
  ⟨⟨_, rfl⟩, fun _ h => Instr.noConfusion h, ⟨_, rfl⟩⟩

/-- FlagOrdersAgreeAwayFromVf: the highest registers below VF. -/
theorem witness_flag_orders : (14 : RegIdx) ≠ 15 ∧ (13 : RegIdx) ≠ 15 ∧
    Instr.subReg 14 13 ∈
      [Instr.addReg 14 13, .subReg 14 13, .shrReg 14 13, .subnReg 14 13, .shlReg 14 13] ∧
    ∃ t, exec (.subReg 14 13) (regs [(13, 1#8)]) = .next t :=
  ⟨by decide, by decide, by decide, ⟨_, rfl⟩⟩

/-- NoOpsChangeNothing: a cycle of each of the four, and N = 1 and 15 under `NoOp`. -/
theorem witness_no_ops :
    (atLast 0x0FFF#16).ready ∧ decode (atLast 0x0FFF#16).word = .sys 0xFFF#12 ∧
    (atLast 0x8FFF#16).ready ∧ decode (atLast 0x8FFF#16).word = .noopGroup8 15 15 0xF#4 ∧
    (atLast 0xEFFF#16).ready ∧ decode (atLast 0xEFFF#16).word = .noopGroupE 15 0xFF#8 ∧
    (atLast 0xFFFF#16).ready ∧ decode (atLast 0xFFFF#16).word = .noopGroupF 15 0xFF#8 ∧
    (under (atLast 0x5FF1#16) nibbleNoOp).ready ∧
    decode (under (atLast 0x5FF1#16) nibbleNoOp).word = .seReg 15 15 1#4 ∧
    (under State.reset nibbleNoOp).params.skipNibble = .noOp ∧ 1#4 ≠ 0#4 ∧ 0xF#4 ≠ 0#4 :=
  ⟨⟨by decide +kernel, by decide +kernel⟩, by decide +kernel,
    ⟨by decide +kernel, by decide +kernel⟩, by decide +kernel,
    ⟨by decide +kernel, by decide +kernel⟩, by decide +kernel,
    ⟨by decide +kernel, by decide +kernel⟩, by decide +kernel,
    ⟨by decide +kernel, by decide +kernel⟩, by decide +kernel, rfl, by decide, by decide⟩

/-- ReturnPopsThePcOrUnderflows: a full stack, and none. -/
theorem witness_return : 0 < fullStack.sp ∧ fullStack.Nea ∧ State.reset.sp = 0 :=
  ⟨by decide, nea_of (by decide +kernel), by decide⟩

/-- CallPushesThePcOrOverflows, CallThenReturnComesBack: one entry left, and none. -/
theorem witness_call :
    (0x2FFF#16 : Word) &&& 0xF000#16 = 0x2000#16 ∧
    ({ fullStack with sp := 15 }).sp < fullStack.params.stackCapacity ∧
    fullStack.stack.length = fullStack.params.stackCapacity ∧
    fullStack.sp = fullStack.params.stackCapacity ∧ State.Nea { fullStack with sp := 15 } ∧
    ∃ t, exec (.call 0x300#12) { fullStack with sp := 15 } = .next t :=
  ⟨by decide, by decide, by decide, by decide, nea_of (by decide +kernel), ⟨_, rfl⟩⟩

/-- StackHoldsExactlyItsCapacity. -/
theorem witness_stack_capacity : State.reset.sp = 0 ∧
    (List.replicate 16 0x202).length = State.reset.params.stackCapacity := by decide

/-- JumpsSetThePc: the target 0xFFF, and the least sum that is not below it. -/
theorem witness_jumps :
    (0x1FFF#16 : Word) &&& 0xF000#16 = 0x1000#16 ∧ (0xBFFF#16 : Word) &&& 0xF000#16 = 0xB000#16 ∧
    State.reset.Nea ∧ State.reset.status = .running ∧ (regs [(0, 1#8)]).Nea ∧
    ∃ t, exec (.jpV0 0xFFE#12) (regs [(0, 1#8)]) = .next t ∧ 0xFFE < t.pc ∧
      (regs [(0, 1#8)]).status = .running :=
  ⟨by decide, by decide, witness_nea.1, rfl, nea_of (by decide +kernel), _, rfl, by decide, rfl⟩

/-- ImmediateSkips. -/
theorem witness_immediate_skips :
    (0x3FFF#16 : Word) &&& 0xF000#16 = 0x3000#16 ∧ (0x4FFF#16 : Word) &&& 0xF000#16 = 0x4000#16 ∧
    (State.reset.setPc 0x1002).Nea ∧ (State.reset.setPc 0x1002).status = .running ∧
    (State.reset.setPc 0x1002).pc = 0x1002 :=
  ⟨by decide, by decide, nea_of (by decide +kernel), by decide, by decide⟩

/-- RegisterSkipsUnderEitherNibbleRule: `Ignore`, and `NoOp` with N = 0 and with N = 1. -/
theorem witness_register_skips :
    State.reset.Nea ∧ (under State.reset nibbleNoOp).Nea ∧
    (0x5FFF#16 : Word) &&& 0xF000#16 = 0x5000#16 ∧ (0x9FFF#16 : Word) &&& 0xF000#16 = 0x9000#16 ∧
    (State.reset.params.skipNibble = .ignore ∨ 0xF#4 = 0#4) ∧
    ((under State.reset nibbleNoOp).params.skipNibble = .ignore ∨ 0#4 = 0#4) ∧
    (under State.reset nibbleNoOp).params.skipNibble = .noOp ∧ 1#4 ≠ 0#4 :=
  ⟨witness_nea.1, nea_of (by decide +kernel), by decide⟩

/-- LoadsAndImmediateAddWriteVx, BitwiseOperationsKeepVf, the flag-setting statements and
RandomByteIsOneFreshDrawMasked: a word of each class, every free bit a one. -/
theorem witness_alu_words :
    (0x6FFF#16 : Word) &&& 0xF000#16 = 0x6000#16 ∧ (0x7FFF#16 : Word) &&& 0xF000#16 = 0x7000#16 ∧
    (0x8FF0#16 : Word) &&& 0xF00F#16 = 0x8000#16 ∧ (0x8FF1#16 : Word) &&& 0xF00F#16 = 0x8001#16 ∧
    (0x8FF2#16 : Word) &&& 0xF00F#16 = 0x8002#16 ∧ (0x8FF3#16 : Word) &&& 0xF00F#16 = 0x8003#16 ∧
    (0x8FF4#16 : Word) &&& 0xF00F#16 = 0x8004#16 ∧ (0x8FF5#16 : Word) &&& 0xF00F#16 = 0x8005#16 ∧
    (0x8FF6#16 : Word) &&& 0xF00F#16 = 0x8006#16 ∧ (0x8FF7#16 : Word) &&& 0xF00F#16 = 0x8007#16 ∧
    (0x8FFE#16 : Word) &&& 0xF00F#16 = 0x800E#16 ∧ (0xCFFF#16 : Word) &&& 0xF000#16 = 0xC000#16 := by
  decide

/-- AddWritesSumAndCarry, SubtractWritesDifferenceAndNotBorrow,
ReverseSubtractWritesDifferenceAndNotBorrow, ShiftsWriteTheBitShiftedOut: both orders, and X and Y on
either side of VF. -/
theorem witness_flag_clauses : State.reset.Nea ∧ (under State.reset flagLast).Nea ∧
    State.reset.params.vfOrder = .sequential ∧ (under State.reset flagLast).params.vfOrder = .flagLast ∧
    ¬ ((15 : RegIdx) = 15 ∧ State.reset.params.vfOrder = .flagLast) ∧
    ¬ ((15 : RegIdx) = 15 ∧ (under State.reset flagLast).params.vfOrder = .sequential) ∧
    ((14 : RegIdx) ≠ 15 ∧ (0 : RegIdx) ≠ 15) :=
  ⟨witness_nea.1, nea_of (by decide +kernel), by decide⟩

/-- The statements of spec/43_index_memory.md: a word of each class. -/
theorem witness_index_words :
    (0xAFFF#16 : Word) &&& 0xF000#16 = 0xA000#16 ∧ (0xFF29#16 : Word) &&& 0xF0FF#16 = 0xF029#16 ∧
    (0xFF1E#16 : Word) &&& 0xF0FF#16 = 0xF01E#16 ∧ (0xFF33#16 : Word) &&& 0xF0FF#16 = 0xF033#16 ∧
    (0xFF55#16 : Word) &&& 0xF0FF#16 = 0xF055#16 ∧ (0xFF65#16 : Word) &&& 0xF0FF#16 = 0xF065#16 := by
  decide

/-- DecimalDigitsGoToThreeBytes: the last address that is in range, the first that is not, and the
ends of the font table under `FONT_WRITE = Fault`. -/
theorem witness_decimal_digits :
    (State.reset.setIndex 0xFFD).Nea ∧ ((under State.reset fontFault).setIndex 0x050).Nea ∧
    (State.reset.setIndex 0xFFE).Nea ∧ ((under State.reset fontFault).setIndex 0x04F).Nea ∧
    Memory.wf (State.reset.setIndex 0xFFD).params (State.reset.setIndex 0xFFD).mem = true ∧
    (State.reset.setIndex 0xFFD).i + 2 ≤ 0xFFF ∧
    ((under State.reset fontFault).setIndex 0x050).params.fontWrite = .fault ∧
    0x04F < ((under State.reset fontFault).setIndex 0x050).i ∧
    0xFFF < (State.reset.setIndex 0xFFE).i + 2 ∧
    ((under State.reset fontFault).setIndex 0x04F).i ≤ 0x04F :=
  ⟨nea_of (by decide +kernel), nea_of (by decide +kernel), nea_of (by decide +kernel),
    nea_of (by decide +kernel), by decide⟩

/-- StoreRegistersCopiesV0ToVx, LoadRegistersCopiesToV0ToVx: X = F at the last address in range and
at the first that is not; a store that a load can follow. -/
theorem witness_register_ranges :
    (State.reset.setIndex 0xFF0).Nea ∧ (State.reset.setIndex 0xFF1).Nea ∧
    Memory.wf (State.reset.setIndex 0xFF0).params (State.reset.setIndex 0xFF0).mem = true ∧
    (State.reset.setIndex 0xFF0).i + (15 : RegIdx).val ≤ 0xFFF ∧
    ((State.reset.setIndex 0xFF0).params.fontWrite = .fault →
      0x04F < (State.reset.setIndex 0xFF0).i) ∧
    0xFFF < (State.reset.setIndex 0xFF1).i + (15 : RegIdx).val ∧
    ((under State.reset fontFault).setIndex 0x04F).i ≤ 0x04F ∧
    (0 : RegIdx) ≤ 15 ∧ (14 : RegIdx) < 15 ∧
    ∃ t, exec (.storeRegs 15) (State.reset.setIndex 0xFF0) = .next t ∧ t.Nea :=
  ⟨nea_of (by decide +kernel), nea_of (by decide +kernel), by decide, by decide, by decide, by decide,
    by decide, by decide, by decide, after (exec (.storeRegs 15) (State.reset.setIndex 0xFF0)),
    next_after (by decide +kernel), nea_of (by decide +kernel)⟩

/-- A sprite of one set bit whose cell is the last of the display, at the last byte of memory. -/
def lastCell : State :=
  ((under (regs [(1, 56#8), (2, 31#8)]) spill).setMemBytes 0xFFF [0x01#8]).setIndex 0xFFF

/-- DrawTogglesTheSpriteAndReportsCollision, the completing clause: N = 0 anywhere, and under
`LinearSpill` a sprite at the last byte of memory that reaches the last cell, 2047. -/
theorem witness_draw_completes :
    (0xDFFF#16 : Word) &&& 0xF000#16 = 0xD000#16 ∧
    (0#4 = 0#4 ∨ (State.reset.setIndex 0xFFFF).i + (0#4).toNat ≤ 0x1000) ∧
    State.reset.params.spriteEdge = .clip ∧ (State.reset.setIndex 0xFFFF).Nea ∧ lastCell.Nea ∧
    lastCell.i + (1#4).toNat ≤ 0x1000 ∧ lastCell.params.spriteEdge = .linearSpill ∧
    spillCovers lastCell 1 2 1 2047 ∧ ∀ k, spillCovers lastCell 1 2 1 k → k < 2048 := by
  refine ⟨by decide, by decide, by decide, nea_of (by decide +kernel), nea_of (by decide +kernel),
    by decide +kernel, by decide +kernel, ⟨0, 7, by decide, by decide, ?_, by decide +kernel⟩, ?_⟩
  · unfold spriteHas
    decide +kernel
  · rintro k ⟨r, c, hr, hc, -, rfl⟩
    have key : ∀ r < 1, ∀ c < 8, spriteCell lastCell 1 2 r c < 2048 := by decide +kernel
    exact key r hr c hc

/-- Its fault clauses: one row past the last byte, and under `LinearSpill` the first set bit outside
the display, cell 2048, after one inside it. -/
theorem witness_draw_faults :
    let s := (under (regs [(1, 57#8), (2, 31#8)]) spill).setMemBytes 0x300 [0x03#8] |>.setIndex 0x300
    s.Nea ∧ (State.reset.setIndex 0xFFF).Nea ∧ 2#4 ≠ 0#4 ∧ 0x1000 < (State.reset.setIndex 0xFFF).i + (2#4).toNat ∧
    s.params.spriteEdge = .linearSpill ∧ s.i + (1#4).toNat ≤ 0x1000 ∧
    spriteHas s 0 7 ∧ 2048 ≤ spriteCell s 1 2 0 7 ∧
    ∀ r' c', r' < (1#4).toNat → c' < 8 → spriteHas s r' c' → (r' < 0 ∨ (r' = 0 ∧ c' < 7)) →
      spriteCell s 1 2 r' c' < 2048 := by
  refine ⟨nea_of (by decide +kernel), nea_of (by decide +kernel), by decide, by decide, by decide +kernel,
    by decide +kernel, ?_, by decide +kernel, ?_⟩
  · unfold spriteHas
    decide +kernel
  · intro r c hr hc _ h
    have key : ∀ c < 7, spriteCell
      ((under (regs [(1, 57#8), (2, 31#8)]) spill).setMemBytes 0x300 [0x03#8] |>.setIndex 0x300)
      1 2 0 c < 2048 := by decide +kernel
    obtain rfl : r = 0 := by simpa using hr
    exact key c (by omega)

/-- DrawingTwiceRestoresTheDisplay: from a blank display, a sprite that turns a cell on. -/
theorem witness_draw_twice : lastCell.Nea ∧ lastCell.status = .running ∧ lastCell.disp = 0 ∧
    ∃ t, exec (.drw 1 2 1#4) lastCell = .next t ∧ t.status = .running ∧ t.disp ≠ 0 :=
  ⟨nea_of (by decide +kernel), by decide +kernel, by decide +kernel, after (exec (.drw 1 2 1#4) lastCell), next_after (by decide +kernel),
    by decide +kernel, by decide +kernel⟩

/-- KeySkipsReadTheNumberedKey: the last key, and the first number that is none. -/
theorem witness_key_skips :
    (0xEF9E#16 : Word) &&& 0xF0FF#16 = 0xE09E#16 ∧ (0xEFA1#16 : Word) &&& 0xF0FF#16 = 0xE0A1#16 ∧
    (regs [(2, 15#8)]).Nea ∧ ((regs [(2, 15#8)]).reg 2).toNat = 15 ∧
    (regs [(2, 16#8)]).Nea ∧ 15 < ((regs [(2, 16#8)]).reg 2).toNat :=
  ⟨by decide, by decide, nea_of (by decide +kernel), by decide, nea_of (by decide +kernel), by decide⟩

/-- Two keys pressed, the higher of them 9. -/
def twoKeys : State := (State.reset.keyWrite 3 true).keyWrite 9 true

/-- A ready core about to execute FX0A at the last address a word can start at, key 15 pressed. -/
def lastKey : State := (atLast 0xF50A#16).keyWrite 15 true

/-- WaitForKeyTakesTheHighestKey: two keys pressed, the last key pressed, and none. -/
theorem witness_wait_for_key :
    (0xFF0A#16 : Word) &&& 0xF0FF#16 = 0xF00A#16 ∧
    twoKeys.Nea ∧ twoKeys.keyDown 9 = true ∧ (∀ j, 9 < j → twoKeys.keyDown j = false) ∧
    lastKey.Nea ∧ lastKey.keyDown 15 = true ∧ (∀ j, 15 < j → lastKey.keyDown j = false) ∧
    lastKey.ready ∧ decode lastKey.word = .ldVxK 5 ∧
    (atLast 0xF50A#16).Nea ∧ (atLast 0xF50A#16).ready ∧ decode (atLast 0xF50A#16).word = .ldVxK 5 ∧
    ∀ k, (atLast 0xF50A#16).keyDown k = false :=
  ⟨by decide, nea_of (by decide +kernel), by decide, no_key_above (by decide) (by decide),
    nea_of (by decide +kernel), by decide +kernel, no_key_above (by decide +kernel) (by decide +kernel),
    ⟨by decide +kernel, by decide +kernel⟩, by decide +kernel, nea_of (by decide +kernel),
    ⟨by decide +kernel, by decide +kernel⟩, by decide +kernel, no_key (by decide +kernel)⟩

/-- TimerTransfersAndTheirTick: a word of each class, and a ready core that executes each. -/
theorem witness_timer_transfers :
    (0xFF07#16 : Word) &&& 0xF0FF#16 = 0xF007#16 ∧ (0xFF15#16 : Word) &&& 0xF0FF#16 = 0xF015#16 ∧
    (0xFF18#16 : Word) &&& 0xF0FF#16 = 0xF018#16 ∧
    (atLast 0xF107#16).Nea ∧ (atLast 0xF115#16).Nea ∧ (atLast 0xF118#16).Nea ∧
    (atLast 0xF107#16).ready ∧ decode (atLast 0xF107#16).word = .ldVxDt 1 ∧
    (atLast 0xF115#16).ready ∧ decode (atLast 0xF115#16).word = .ldDtVx 1 ∧
    (atLast 0xF118#16).ready ∧ decode (atLast 0xF118#16).word = .ldStVx 1 :=
  ⟨by decide, by decide, by decide, nea_of (by decide +kernel), nea_of (by decide +kernel),
    nea_of (by decide +kernel), ⟨by decide +kernel, by decide +kernel⟩, by decide +kernel,
    ⟨by decide +kernel, by decide +kernel⟩, by decide +kernel,
    ⟨by decide +kernel, by decide +kernel⟩, by decide +kernel⟩

end Sys2Proof.Tests
end

section
/-! PROOFS. Every field stays within its size, whatever the sizes are (spec/00_scope.md R6, R8): each
operation on the state keeps `State.Bounded`, so the execute step does, so a step does. -/

namespace Sys2Proof.Machine

section
variable {s : State}

/-! ## The operations on the state -/

/-- Other values in the registers, as many of them as before (R21). -/
theorem State.Bounded.withRegs (h : s.Bounded) {v : List Byte} (hv : v.length = s.v.length) :
    State.Bounded { s with v := v } :=
  { h with fits := { h.fits with regs := hv.trans h.fits.regs } }

theorem State.Bounded.setReg (h : s.Bounded) (x : RegIdx) (b : Byte) : (s.setReg x b).Bounded :=
  h.withRegs (setReg_regCount s x b)

theorem State.Bounded.writeWithFlag (h : s.Bounded) (x : RegIdx) (f r : State → Byte) :
    (s.writeWithFlag x f r).Bounded := by
  rw [writeWithFlag_eq]
  exact h.withRegs (writeWithFlag_regCount s x f r)

theorem State.Bounded.loadFold (h : s.Bounded) (l : List RegIdx) :
    (l.foldl (fun t k => t.setReg k (t.memByte (t.effAddr k.val))) s).Bounded := by
  rw [loadFold_eq]
  exact h.withRegs (loadFold_regCount l s)

theorem State.Bounded.setIndex (h : s.Bounded) (n : Nat) : (s.setIndex n).Bounded :=
  { h with fits := { h.fits with index := Nat.mod_lt _ (Nat.two_pow_pos _) } }

theorem State.Bounded.withPc (h : s.Bounded) {a : Nat} (ha : a < 2 ^ s.params.sizes.pcWidth) :
    State.Bounded { s with pc := a } :=
  { h with fits := { h.fits with pc := ha } }

theorem State.Bounded.setPc (h : s.Bounded) (a : Nat) : (s.setPc a).Bounded :=
  h.withPc (pc_width s a)

theorem State.Bounded.advance (h : s.Bounded) : s.advance.Bounded := h.setPc _

theorem State.Bounded.setDt (h : s.Bounded) (n : Nat) : (s.setDt n).Bounded :=
  { h with fits := { h.fits with dt := Nat.mod_lt _ (Nat.two_pow_pos _) } }

theorem State.Bounded.setSt (h : s.Bounded) (n : Nat) : (s.setSt n).Bounded :=
  { h with fits := { h.fits with st := Nat.mod_lt _ (Nat.two_pow_pos _) } }

theorem tickTimer_le (n : Nat) : tickTimer n ≤ n := by
  simp only [tickTimer]
  split <;> omega

theorem State.Bounded.tick (h : s.Bounded) : s.tick.Bounded :=
  { h with fits := { h.fits with
      dt := (tickTimer_le _).trans_lt h.fits.dt
      st := (tickTimer_le _).trans_lt h.fits.st } }

theorem State.Bounded.faultEntry (h : s.Bounded) (k : FaultKind) (info : Option Nat) :
    (s.faultEntry k info).Bounded :=
  { h with fits := { h.fits with } }

theorem State.Bounded.setDrawFlag (h : s.Bounded) (b : Bool) : (s.setDrawFlag b).Bounded :=
  { h with fits := { h.fits with } }

theorem State.Bounded.drawByte (h : s.Bounded) : s.drawByte.2.Bounded :=
  { h with fits := { h.fits with } }

theorem State.Bounded.clearDisplay (h : s.Bounded) : s.clearDisplay.Bounded :=
  { h with fits := { h.fits with disp := Nat.two_pow_pos _ } }

theorem State.Bounded.keyWrite (h : s.Bounded) (k : Nat) (b : Bool) : (s.keyWrite k b).Bounded :=
  { h with fits := { h.fits with keys := (keyWrite_keyCount s k b).trans h.fits.keys } }

/-- `PC`, or any value of its width, pushed on a stack that is not full (R33). -/
theorem State.Bounded.pushed (h : s.Bounded) {a : Nat} (ha : a < 2 ^ s.params.sizes.pcWidth)
    (depth : s.sp < s.params.stackCapacity) :
    State.Bounded { s with stack := s.stack.set s.sp a, sp := s.sp + 1 } :=
  { h with
    fits := { h.fits with entries := fun e he =>
      (List.mem_or_eq_of_mem_set he).elim (h.fits.entries e) (fun hea => hea ▸ ha) }
    stackLength := List.length_set.trans h.stackLength
    depth := depth }

theorem State.Bounded.popped (h : s.Bounded) : State.Bounded { s with sp := s.sp - 1 } :=
  { h with fits := { h.fits with }, depth := (Nat.sub_le ..).trans h.depth }

theorem State.Bounded.setMemBytes (h : s.Bounded) {a : Nat} {bs : List Byte}
    (range : a + bs.length ≤ s.params.sizes.memSize) : (s.setMemBytes a bs).Bounded := by
  rw [setMemBytes_eq]
  exact { h with fits := { h.fits with }, memory := setMemBytes_wf h.memory range }

/-- Cells plotted, each inside the display where `LinearSpill` draws it as it stands (R233, R234). -/
theorem State.Bounded.plotFold (h : s.Bounded) {l : List (Nat × Nat)}
    (cells : s.params.spriteEdge = .linearSpill →
      ∀ p ∈ l, s.cellIndex p.1 p.2 < s.params.sizes.cells) :
    (l.foldl (fun t p => t.plot p.1 p.2) s).Bounded := by
  rw [plotFold_eq]
  exact { h with fits := { h.fits with
    regs := (plotFold_regCount l s).trans h.fits.regs
    disp := plotFold_disp_lt l h.fits.disp cells } }

end

/-! ## The execute step and the step -/

/-- No shape of a next state changes the parameters (R6). -/
theorem ExecCase.params_eq {s t : State} {i : Instr} (h : ExecCase s i t) : t.params = s.params := by
  cases h
  case flag => rw [writeWithFlag_eq]
  case ldB => rw [setMemBytes_eq]
  case storeRegs => rw [setMemBytes_eq]
  case loadRegs => rw [loadFold_eq]
  case drw => rw [setDrawFlag_params, plotFold_eq, setReg_params]
  all_goals rfl

/-- Every shape of a next state has its fields within their sizes. -/
theorem ExecCase.bounded {s t : State} {i : Instr} (h : ExecCase s i t) (hs : s.Bounded) :
    t.Bounded := by
  cases h with
  | fault => exact hs.faultEntry _ _
  | cls => exact hs.clearDisplay.setDrawFlag _
  | ret => exact hs.popped.setPc _
  | call _ depth => exact (hs.pushed hs.fits.pc depth).setPc _
  | pcAlone _ _ _ width => exact hs.withPc (width hs.fits.pc)
  | nothing => exact hs
  | register => exact hs.setReg _ _
  | flag => exact hs.writeWithFlag _ _ _
  | rnd => exact hs.drawByte.setReg _ _
  | index => exact hs.setIndex _
  | addI => exact (hs.setIndex _).setReg _ _
  | ldDtVx => exact hs.setDt _
  | ldStVx => exact hs.setSt _
  | ldB _ _ length range => exact hs.setMemBytes (length ▸ range)
  | storeRegs _ _ length range => exact hs.setMemBytes (length ▸ range)
  | loadRegs => exact hs.loadFold _
  | drw _ _ _ _ cells => exact ((hs.setReg _ _).plotFold cells).setDrawFlag _

/-- A cycle that ends in a next state had one from its execute step, and ticked it or not. -/
theorem endCycle_inv {i : Instr} {s t : State} {o : Outcome} (h : endCycle i s o = .next t) :
    ∃ u, o = .next u ∧ t = if u.status = .running ∧ noKeyReturn i s = false then u.tick else u := by
  cases o with
  | next u =>
    rw [endCycle_next] at h
    injection h with h
    exact ⟨u, rfl, h.symm⟩
  | fault => cases h
  | refused => cases h

/-- A step that answers a next state took the fault entry of a failed fetch, or executed the word at
`PC` on the advanced `PC` and ended the cycle (R132). -/
theorem step_cases {s t : State} (h : step s = .next t) :
    (s.status = .running ∧ s.params.sizes.memSize ≤ s.pc + 1 ∧
      t = s.faultEntry .addressOutOfRange (some (max s.pc s.params.sizes.memSize))) ∨
    (s.ready ∧ ∃ u, exec (decode s.word) s.advance = .next u ∧
      t = if u.status = .running ∧ noKeyReturn (decode s.word) s.advance = false then u.tick else u) := by
  rw [step] at h
  obtain ⟨k, info, -, hc⟩ | ⟨hr, hm, hc⟩ | ⟨hr, hc⟩ := runCycle_cases exec s <;> rw [hc] at h
  · cases h
  · injection h with h
    exact .inl ⟨hr, hm, h.symm⟩
  · exact .inr ⟨hr, endCycle_inv h⟩

theorem step_params {s t : State} (h : step s = .next t) : t.params = s.params := by
  obtain ⟨-, -, rfl⟩ | ⟨-, u, hu, rfl⟩ := step_cases h
  · rfl
  · have hp : u.params = s.params := (exec_cases hu).params_eq
    split <;> exact hp

theorem step_bounded {s t : State} (hs : s.Bounded) (h : step s = .next t) : t.Bounded := by
  obtain ⟨-, -, rfl⟩ | ⟨-, u, hu, rfl⟩ := step_cases h
  · exact hs.faultEntry _ _
  · have hb : u.Bounded := (exec_cases hu).bounded hs.advance
    split
    · exact hb.tick
    · exact hb

/-- Settles O58: the fault entry, the advance, every shape that the execute step can leave, and the tick
keep each field within its size and the parameters as they are. -/
theorem stepKeepsEveryFieldInItsParameters : Obligations.StepKeepsEveryFieldInItsParameters :=
  fun _ _ hs h => ⟨step_bounded hs h, step_params h⟩

end Sys2Proof.Machine
end

section
/-! PROOFS. Reset and the requests of the host keep every field within its size, under parameters that
fit one another (spec/00_scope.md R6, spec/10_state.md R49, R50). -/

namespace Sys2Proof.Machine

/-- Parameters that fit one another, read off: where `PC` starts, and where a program image ends. -/
theorem params_wf_bounds {p : Config.Params} (h : p.wf = true) :
    p.sizes.pcReset < 2 ^ p.sizes.pcWidth ∧
      p.sizes.programBase + p.sizes.programMax ≤ p.sizes.memSize := by
  simp only [Config.Params.wf, Config.Sizes.wf, Bool.and_eq_true, decide_eq_true_eq] at h
  tauto

/-- The state after reset has every field within its size as soon as `PC` can hold `PC_RESET`. -/
theorem resetWith_bounded {p : Config.Params} (h : p.sizes.pcReset < 2 ^ p.sizes.pcWidth)
    (seed : Nat) : (State.resetWith p seed).Bounded where
  fits :=
    { regs := List.length_replicate
      index := Nat.two_pow_pos _
      pc := h
      entries := fun _ ha => List.eq_of_mem_replicate ha ▸ Nat.two_pow_pos _
      dt := Nat.two_pow_pos _
      st := Nat.two_pow_pos _
      disp := Nat.two_pow_pos _
      keys := List.length_replicate }
  memory := memory_wf_nil p
  stackLength := List.length_replicate
  depth := Nat.zero_le _

theorem load_error {s : State} {bytes : List Byte} (h : s.params.sizes.programMax < bytes.length) :
    s.load bytes = .error bytes.length := if_pos h

theorem load_ok {s : State} {bytes : List Byte} (h : bytes.length ≤ s.params.sizes.programMax) :
    s.load bytes = .ok (s.setMemBytes s.params.sizes.programBase bytes) := if_neg (by omega)

/-- A requested cycle leaves the next state of the step, or a core that takes no step as it was (R121). -/
theorem serve_cycle_cases (s : State) :
    step s = .next (s.serve .cycle).1 ∨ (s.serve .cycle).1 = s := by
  cases h : step s with
  | next t => left; simp [State.serve, h]
  | fault r => right; simp [State.serve, h]
  | refused r => right; simp [State.serve, h]

/-- A requested load leaves the bytes at `PROGRAM_BASE`, or a too long image the state as it was. -/
theorem serve_load_cases (s : State) (bytes : List Byte) :
    (bytes.length ≤ s.params.sizes.programMax ∧
      (s.serve (.load bytes)).1 = s.setMemBytes s.params.sizes.programBase bytes) ∨
    (s.serve (.load bytes)).1 = s := by
  by_cases h : bytes.length ≤ s.params.sizes.programMax
  · exact .inl ⟨h, by simp [State.serve, load_ok h]⟩
  · exact .inr (by simp [State.serve, load_error (Nat.lt_of_not_le h)])

theorem serve_params (s : State) (r : Request) : (s.serve r).1.params = s.params := by
  cases r with
  | cycle =>
    obtain h | h := serve_cycle_cases s
    · exact step_params h
    · rw [h]
  | load bytes =>
    obtain ⟨-, h⟩ | h := serve_load_cases s bytes
    · rw [h, setMemBytes_eq]
    · rw [h]
  | reset => rfl
  | keyWrite => rfl
  | drawFlagClear => rfl

theorem serve_bounded {s : State} (hp : s.params.wf = true) (hs : s.Bounded) (r : Request) :
    (s.serve r).1.Bounded := by
  obtain ⟨hpc, hprogram⟩ := params_wf_bounds hp
  cases r with
  | cycle =>
    obtain h | h := serve_cycle_cases s
    · exact step_bounded hs h
    · rwa [h]
  | load bytes =>
    obtain ⟨hl, h⟩ | h := serve_load_cases s bytes
    · rw [h]
      exact hs.setMemBytes (by omega)
    · rwa [h]
  | reset seed => exact resetWith_bounded hpc seed
  | keyWrite k pressed => exact hs.keyWrite k pressed
  | drawFlagClear => exact hs.setDrawFlag false

/-- Settles O59: reset, because `PC` can hold `PC_RESET`; cycle as a step; load, because the program area
lies in memory; the key and draw-flag ports, because they keep the number of keys. -/
theorem requestsKeepEveryFieldInItsParameters :
    Obligations.RequestsKeepEveryFieldInItsParameters :=
  ⟨fun _ seed hp => resetWith_bounded (params_wf_bounds hp).1 seed,
    fun s r hp hs => ⟨serve_bounded hp hs r, serve_params s r⟩⟩

end Sys2Proof.Machine
end

section
/-! PROOFS. What each size governs (spec/00_scope.md R6, R8): one lemma for each operation that reads a
size, for every value of it. -/

namespace Sys2Proof.Machine

section
variable {s : State}

/-! ## `MEM_SIZE` and `FONT_END` -/

theorem step_fetch_past_end (hr : s.status = .running) (h : s.params.sizes.memSize ≤ s.pc + 1) :
    step s = .next
      (s.faultEntry .addressOutOfRange (some (max s.pc s.params.sizes.memSize))) := by
  simp [step, runCycle, hr, fetch_error h, raiseFault]

theorem exec_loadRegs_past_end {x : RegIdx} (h : s.params.sizes.memSize ≤ s.i + x.val) :
    exec (.loadRegs x) s = .next
      (s.faultEntry .addressOutOfRange (some (max s.i s.params.sizes.memSize))) := by
  have bad : s.firstBadRead (x.val + 1) = some (max s.i s.params.sizes.memSize) :=
    firstBadRead_eq_some (by omega) (by omega)
  simp [exec, execLoadRegs, bad, raiseFault]

theorem exec_ldB_in_font (x : RegIdx) (hf : s.params.fontWrite = .fault)
    (h : s.i ≤ s.params.sizes.fontEnd) :
    exec (.ldB x) s = .next (s.faultEntry .addressOutOfRange (some s.i)) := by
  have bad : s.firstBadWrite 3 = some s.i := firstBadWrite_font (by decide) hf h
  simp [exec, execLdB, bad, raiseFault]

/-! ## `FONT_BASE`, `FONT_END`, `PROGRAM_BASE` -/

/-- Memory after reset holds the font table and is zero elsewhere. -/
theorem memByte_resetWith (p : Config.Params) (seed a : Nat) :
    (State.resetWith p seed).memByte a = Memory.unlisted p a := rfl

/-- After a load the bytes stand at `PROGRAM_BASE` and up. -/
theorem memByte_loaded (h : Memory.rising s.mem = true) (bytes : List Byte) (j : Nat)
    (hj : j < bytes.length) :
    (s.setMemBytes s.params.sizes.programBase bytes).memByte (s.params.sizes.programBase + j) =
      bytes[j] := by
  rw [memByte_setMemBytes h, if_pos (by omega), Nat.add_sub_cancel_left,
    List.getElem?_eq_getElem hj, Option.getD_some]

/-! ## `DISPLAY_W` and `DISPLAY_H` -/

/-- The cell of a column and a row inside the grid is a cell of the display. -/
theorem cellIndex_lt_cells {px py : Nat} (hx : px < s.params.sizes.displayW)
    (hy : py < s.params.sizes.displayH) : s.cellIndex px py < s.params.sizes.cells :=
  calc py * s.params.sizes.displayW + px
    _ < (py + 1) * s.params.sizes.displayW := by rw [Nat.succ_mul]; omega
    _ ≤ s.params.sizes.displayH * s.params.sizes.displayW := Nat.mul_le_mul_right _ hy
    _ = s.params.sizes.cells := Nat.mul_comm ..

/-- Inside the grid both values of `SPRITE_EDGE` toggle the cell. -/
theorem plot_inside {px py : Nat} (hx : px < s.params.sizes.displayW)
    (hy : py < s.params.sizes.displayH) : s.plot px py = s.togglePixel (s.cellIndex px py) := by
  simp only [State.plot]
  split
  · rw [if_neg (by omega)]
  · rfl

/-- The one target of a one-row sprite whose only set bit is the leftmost. -/
theorem spriteTargets_one_cell (h : s.memByte s.i = 0x80#8) (x0 y0 : Nat) :
    s.spriteTargets x0 y0 1 = [(x0, y0)] := by
  have leftmost : (List.range 8).filter (spriteBit 0x80#8) = [0] := by decide
  simp [State.spriteTargets, State.rowTargets, State.effAddr, h, leftmost]

/-- DXY1 with that sprite plots the cell of the start coordinates, which are inside the grid. -/
theorem exec_drw_one_cell (x y : RegIdx) (hw : 0 < s.params.sizes.displayW)
    (hh : 0 < s.params.sizes.displayH) (hi : s.i < s.params.sizes.memSize)
    (hb : s.memByte s.i = 0x80#8) :
    exec (.drw x y 1#4) s = .next (((s.setReg vf 0#8).togglePixel
      (s.cellIndex (s.spriteX x) (s.spriteY y))).setDrawFlag true) := by
  have hx : s.spriteX x < s.params.sizes.displayW := Nat.mod_lt _ hw
  have hy : s.spriteY y < s.params.sizes.displayH := Nat.mod_lt _ hh
  have hread : s.firstBadRead 1 = none := firstBadRead_eq_none.2 (.inr hi)
  have hcell : s.firstBadCell [(s.spriteX x, s.spriteY y)] = none :=
    firstBadCell_eq_none.2 fun _ p hp => by
      rw [List.mem_singleton.1 hp]
      exact cellIndex_lt_cells hx hy
  have hplot := plot_inside (s := s.setReg vf 0#8) hx hy
  simp [exec, execDrw, hread, spriteTargets_one_cell hb, hcell, hplot, State.cellIndex]

/-! ## `NKEYS` -/

theorem exec_skp_no_key {x : RegIdx} (h : s.params.sizes.nkeys ≤ (s.reg x).toNat) :
    exec (.skp x) s = .next (s.faultEntry .keyIndexOutOfRange (some (s.reg x).toNat)) := by
  simp [exec, execSkp, keyOperand_none h, raiseFault]

end

/-- Settles O60: the values of R6 by looking at the defaults, and for each size the lemma of the
operation that reads it. -/
theorem eachSizeGovernsTheMachine : Obligations.EachSizeGovernsTheMachine := by
  refine ⟨⟨rfl, rfl, rfl, rfl, rfl, rfl, rfl⟩,
    fun p seed => ⟨rfl, memByte_resetWith p seed⟩, ?_⟩
  intro s x y nn nnn bytes hs
  have rising : Memory.rising s.mem = true := ((memory_wf_iff _ _).1 hs.memory).1
  refine ⟨step_fetch_past_end, exec_loadRegs_past_end, exec_ldB_in_font x, load_error,
    fun h => ⟨_, load_ok h, memByte_loaded rising bytes⟩,
    fun h => ⟨_, rfl, reg_setReg_same s (by rwa [hs.fits.regs]) nn⟩,
    ⟨_, rfl, rfl⟩, ⟨_, rfl, rfl⟩,
    fun hw hh hi hb => ⟨_, exec_drw_one_cell x y hw hh hi hb, fun k => ?_⟩,
    exec_skp_no_key, ⟨_, rfl, rfl⟩, ⟨_, rfl, rfl⟩⟩
  rw [setDrawFlag_pixel, pixel_togglePixel, setReg_pixel]
  rfl

end Sys2Proof.Machine
end

section
/-! PROOFS. What an execute step that raises no fault may write, and what it leaves in `PC`
(spec/40_cycle.md R129, spec/10_state.md R27): one table of writes for all instructions, and the
inversion of `exec` into a fault entry or a step that keeps to the table. -/

namespace Sys2Proof.Machine

/-- What the execute step of an instruction may write where it raises no fault (R129). -/
def writesOf (s : State) : Instr → Writes
  | .cls => { disp := true, drawFlag := true }
  | .ret | .call _ => { pc := true, stack := true }
  | .jp _ | .jpV0 _ | .seByte _ _ | .sneByte _ _ | .seReg _ _ _ | .sneReg _ _ _ | .skp _ | .sknp _ =>
    { pc := true }
  | .ldByte x _ | .addByte x _ | .ldReg x _ | .orReg x _ | .andReg x _ | .xorReg x _ | .ldVxDt x =>
    { regs := [x] }
  | .addReg x _ | .subReg x _ | .shrReg x _ | .subnReg x _ | .shlReg x _ => { regs := [x, vf] }
  | .ldI _ | .ldF _ => { index := true }
  | .rnd x _ => { regs := [x], rng := true }
  | .drw _ _ _ => { regs := [vf], disp := true, drawFlag := true }
  | .ldVxK x => { regs := [x], pc := true }
  | .ldDtVx _ => { dt := true }
  | .ldStVx _ => { st := true }
  | .addI _ => { regs := [vf], index := true }
  | .ldB _ => { mem := span s.i 3 }
  | .storeRegs x => { mem := span s.i (x.val + 1) }
  | .loadRegs x => { regs := regsUpTo x }
  | .sys _ | .noopGroup8 _ _ _ | .noopGroupE _ _ | .noopGroupF _ _ => {}

theorem writesOf_status (s : State) (i : Instr) : (writesOf s i).status = false := by
  cases i <;> rfl

theorem writesOf_stack {s : State} {i : Instr} (h : (writesOf s i).stack ≠ false) :
    (∃ nnn, i = .call nnn) ∨ i = .ret := by
  cases i
  case call nnn => exact .inl ⟨nnn, rfl⟩
  case ret => exact .inr rfl
  all_goals exact absurd rfl h

theorem writesOf_dt {s : State} {i : Instr} (h : (writesOf s i).dt ≠ false) :
    ∃ x, i = .ldDtVx x := by
  cases i
  case ldDtVx x => exact ⟨x, rfl⟩
  all_goals exact absurd rfl h

theorem writesOf_st {s : State} {i : Instr} (h : (writesOf s i).st ≠ false) :
    ∃ x, i = .ldStVx x := by
  cases i
  case ldStVx x => exact ⟨x, rfl⟩
  all_goals exact absurd rfl h

/-- The display and the draw flag have the same two writers. -/
theorem writesOf_display {s : State} {i : Instr}
    (h : (writesOf s i).disp ≠ false ∨ (writesOf s i).drawFlag ≠ false) :
    i = .cls ∨ ∃ x y n, i = .drw x y n := by
  cases i
  case cls => exact .inl rfl
  case drw x y n => exact .inr ⟨x, y, n, rfl⟩
  all_goals exact absurd rfl (or_self_iff.1 h)

/-! ## Memory outside a stored span -/

/-- Erasing a cell leaves every other address, whatever the order of the cells. -/
theorem lookup_erase_ne {a c : Nat} (h : c ≠ a) (m : List Host.Cell) :
    (Memory.erase m a).lookup c = m.lookup c := by
  induction m with
  | nil => rfl
  | cons p m ih =>
    obtain ⟨k, d⟩ := p
    simp only [Memory.erase]
    split
    · rfl
    · split
      · rename_i hk
        rw [lookup_cell, if_neg (hk ▸ h)]
      · rw [lookup_cell, lookup_cell, ih]

theorem memByte_setMemByte_ne (s : State) {a c : Nat} (h : c ≠ a) (b : Byte) :
    (s.setMemByte a b).memByte c = s.memByte c := by
  simp only [State.memByte, State.setMemByte, Memory.read, Memory.write]
  split
  · rw [lookup_erase_ne h]
  · rw [lookup_insert, if_neg h]

theorem mem_span {base count c : Nat} : c ∈ span base count ↔ base ≤ c ∧ c < base + count := by
  simp only [span, List.mem_map, List.mem_range]
  exact ⟨fun ⟨k, hk, hc⟩ => by omega, fun h => ⟨c - base, by omega, by omega⟩⟩

/-- A store leaves the bytes outside its span, whether or not the cells of memory are in order. -/
theorem memByte_setMemBytes_outside (s : State) {a c : Nat} {bs : List Byte}
    (h : c ∉ span a bs.length) : (s.setMemBytes a bs).memByte c = s.memByte c := by
  rw [mem_span] at h
  induction bs generalizing s a with
  | nil => rfl
  | cons b bs ih =>
    rw [List.length_cons] at h
    rw [State.setMemBytes, ih _ (by omega), memByte_setMemByte_ne s (by omega)]

/-! ## What each shape of a next state leaves unchanged -/

section
variable (s : State)

/-- A state that differs in `PC` alone, under any writes that name `PC`. -/
theorem frame_withPc {w : Writes} (hw : w.pc = true) (a : Nat) : Frame w s { s with pc := a } :=
  { frame_refl w s with pc := fun h => absurd (hw.symm.trans h) (by decide) }

theorem frame_stored (a : Nat) (bs : List Byte) :
    Frame { mem := span a bs.length } s (s.setMemBytes a bs) := by
  have outside : ∀ c ∉ span a bs.length, (s.setMemBytes a bs).memByte c = s.memByte c :=
    fun _ => memByte_setMemBytes_outside s
  rw [setMemBytes_eq] at outside ⊢
  exact { frame_refl _ s with mem := outside }

theorem frame_writeWithFlag (x : RegIdx) (f r : State → Byte) :
    Frame { regs := [x, vf] } s (s.writeWithFlag x f r) := by
  refine frame_regs (writeWithFlag_eq ..) _ (fun y hy => ?_) (writeWithFlag_regCount ..)
  rw [List.mem_cons, List.mem_singleton, not_or] at hy
  exact writeWithFlag_other f r hy.1 hy.2

theorem frame_loadFold (l : List RegIdx) : Frame { regs := l } s
    (l.foldl (fun t k => t.setReg k (t.memByte (t.effAddr k.val))) s) :=
  frame_regs (loadFold_eq l s) _ (fun r hr => by rw [loadFold_reg, if_neg fun h => hr h.1])
    (loadFold_regCount l s)

theorem reg_plot_ne {r : RegIdx} (h : r ≠ vf) (px py : Nat) : (s.plot px py).reg r = s.reg r := by
  have toggled : ∀ k, (s.togglePixel k).reg r = s.reg r := fun k => by
    rw [reg_togglePixel, if_neg fun hr => h hr.1]
  simp only [State.plot]
  split
  · split
    · rfl
    · exact toggled _
  · exact toggled _

theorem reg_plotFold_ne {r : RegIdx} (h : r ≠ vf) (l : List (Nat × Nat)) :
    (l.foldl (fun t p => t.plot p.1 p.2) s).reg r = s.reg r := by
  induction l generalizing s with
  | nil => rfl
  | cons p l ih => rw [List.foldl_cons, ih, reg_plot_ne s h]

/-- A drawn sprite: VF reset, cells plotted, the draw flag set (R232). -/
theorem frame_drawn (l : List (Nat × Nat)) :
    Frame { regs := [vf], disp := true, drawFlag := true } s
      ((l.foldl (fun t p => t.plot p.1 p.2) (s.setReg vf 0#8)).setDrawFlag true) := by
  have others : ∀ r ∉ [vf],
      (l.foldl (fun t p => t.plot p.1 p.2) (s.setReg vf 0#8)).reg r = s.reg r := fun r hr => by
    have hv : r ≠ vf := by simpa using hr
    rw [reg_plotFold_ne _ hv, reg_setReg_ne s hv.symm]
  have count := (plotFold_regCount l (s.setReg vf 0#8)).trans (setReg_regCount s vf 0#8)
  rw [plotFold_eq] at others ⊢
  exact { frame_refl _ s with
    regs := others, regCount := count, disp := nofun, drawFlag := nofun }

end

/-! ## The two ends of an execute step -/

/-- An execute step that raised no fault: it kept to the table of writes and left `PC` as the table of
R27 says. -/
structure Completes (i : Instr) (s t : State) : Prop where
  frame : Frame (writesOf s i) s t
  pc : t.pc = pcAfter i s

/-- A fault kind that an execute step can raise (R272, R277, R278). -/
def RaisableIn (s : State) (k : FaultKind) : Prop :=
  (k ≠ .unknownInstruction ∧ k ≠ .programTooLarge) ∧
    (k = .displayIndexOutOfRange → s.params.spriteEdge = .linearSpill)

theorem WritesRegister.completes {s : State} {i : Instr} {x : RegIdx} (h : WritesRegister s i x)
    (b : Byte) : Completes i s (s.setReg x b) := by
  obtain ⟨nn, rfl | rfl⟩ | ⟨y, rfl | rfl | rfl | rfl⟩ | rfl | ⟨rfl, k, hk, hd⟩ := h
  case inr.inr.inr =>
    refine ⟨{ frame_setReg s x b with pc := fun _ => rfl }, ?_⟩
    have pressed : ¬ ∀ k < s.params.sizes.nkeys, s.keyDown k = false := fun h => by
      rw [h k hk] at hd
      cases hd
    rw [pcAfter, if_neg fun h => pressed h.1]
    rfl
  all_goals exact ⟨frame_setReg s x b, rfl⟩

theorem WritesFlag.completes {i : Instr} {x : RegIdx} (h : WritesFlag i x) (s : State)
    (f r : State → Byte) : Completes i s (s.writeWithFlag x f r) := by
  have hf := frame_writeWithFlag s x f r
  obtain ⟨y, rfl | rfl | rfl | rfl | rfl⟩ := h <;> exact ⟨hf, hf.pc rfl⟩

theorem MayWritePcAlone.writesOf_pc {i : Instr} (h : MayWritePcAlone i) (s : State) :
    (writesOf s i).pc = true := by
  obtain ⟨n, rfl | rfl⟩ | ⟨x, n, rfl | rfl⟩ | ⟨x, y, n, rfl | rfl⟩ | ⟨x, rfl | rfl | rfl⟩ := h
  all_goals rfl

/-- The execute step took the fault entry, or it completed. -/
theorem ExecCase.faults_or_completes {s t : State} {i : Instr} (h : ExecCase s i t) :
    (∃ k info, RaisableIn s k ∧ t = s.faultEntry k info) ∨ Completes i s t := by
  cases h with
  | fault _ k info kind display => exact .inl ⟨k, info, ⟨kind, display⟩, rfl⟩
  | cls => exact .inr ⟨{ frame_refl _ s with disp := nofun, drawFlag := nofun }, rfl⟩
  | ret => exact .inr ⟨{ frame_refl _ s with pc := nofun, sp := nofun, stack := nofun }, rfl⟩
  | call => exact .inr ⟨{ frame_refl _ s with pc := nofun, sp := nofun, stack := nofun }, rfl⟩
  | pcAlone _ a target _ _ who => exact .inr ⟨frame_withPc s (who.writesOf_pc s) a, target⟩
  | nothing _ _ target => exact .inr ⟨frame_refl _ s, target.symm⟩
  | register _ x b who => exact .inr (who.completes b)
  | flag _ x f r who => exact .inr (who.completes s f r)
  | rnd x nn b => exact .inr ⟨{ frame_setReg s x b with rng := nofun }, rfl⟩
  | index _ n who =>
    obtain ⟨_, rfl⟩ | ⟨_, rfl⟩ := who <;> exact .inr ⟨frame_setIndex s n, rfl⟩
  | addI x n b => exact .inr ⟨{ frame_setReg s vf b with index := nofun }, rfl⟩
  | ldDtVx x n => exact .inr ⟨frame_setDt s n, rfl⟩
  | ldStVx x n => exact .inr ⟨frame_setSt s n, rfl⟩
  | ldB x bs length =>
    have hf := frame_stored s s.i bs
    rw [length] at hf
    exact .inr ⟨hf, hf.pc rfl⟩
  | storeRegs x bs length =>
    have hf := frame_stored s s.i bs
    rw [length] at hf
    exact .inr ⟨hf, hf.pc rfl⟩
  | loadRegs x =>
    have hf := frame_loadFold s (regsUpTo x)
    exact .inr ⟨hf, hf.pc rfl⟩
  | drw x y n l =>
    have hf := frame_drawn s l
    exact .inr ⟨hf, hf.pc rfl⟩

end Sys2Proof.Machine
end

section
/-! PROOFS. The invariant of the block (spec/10_state.md R28, R31): the state after reset meets it, every
execute step that starts where a cycle starts it keeps it, and so do a step and the host's requests. -/

namespace Sys2Proof.Machine

section
variable {s t : State} {i : Instr}

/-! ## What the operations around the execute step keep -/

theorem statusLegal_congr (hst : t.status = s.status) (hp : t.params = s.params) :
    t.statusLegal = s.statusLegal := by
  simp only [State.statusLegal, hst, hp]

theorem RaisableIn.statusLegal {k : FaultKind} (h : RaisableIn s k) (info : Option Nat) :
    (s.faultEntry k info).statusLegal = true := by
  obtain ⟨⟨unknown, program⟩, display⟩ := h
  cases k
  case unknownInstruction => exact absurd rfl unknown
  case programTooLarge => exact absurd rfl program
  case displayIndexOutOfRange => exact decide_eq_true (display rfl)
  all_goals rfl

theorem State.Inv.faultEntry (h : s.Inv) {k : FaultKind} (hk : RaisableIn s k) (info : Option Nat) :
    (s.faultEntry k info).Inv :=
  { h with bounded := h.bounded.faultEntry k info, status := hk.statusLegal info }

theorem State.Inv.tick (h : s.Inv) : s.tick.Inv := { h with bounded := h.bounded.tick }

theorem State.Inv.keyWrite (h : s.Inv) (k : Nat) (b : Bool) : (s.keyWrite k b).Inv :=
  { h with bounded := h.bounded.keyWrite k b }

theorem State.Inv.setDrawFlag (h : s.Inv) (b : Bool) : (s.setDrawFlag b).Inv :=
  { h with bounded := h.bounded.setDrawFlag b }

theorem State.Inv.setMemBytes (h : s.Inv) {a : Nat} {bs : List Byte}
    (range : a + bs.length ≤ s.params.sizes.memSize) : (s.setMemBytes a bs).Inv := by
  have hb := h.bounded.setMemBytes range
  rw [setMemBytes_eq] at hb ⊢
  exact { h with bounded := hb }

/-- A cycle executes at a `PC` from 2 to 0x1000: the word it fetched was at 0xFFE or below (R28, R123). -/
theorem State.Inv.pc_after_fetch (h : s.Inv) (hr : s.ready) :
    2 ≤ s.advance.pc ∧ s.advance.pc ≤ 0x1000 := by
  have inside := hr.2
  rw [h.sizes, nea_memSize] at inside
  rw [advance_pc, h.sizes, nea_pcWidth]
  omega

theorem State.Inv.advance (h : s.Inv) (hr : s.ready) : s.advance.Inv :=
  { h with
    bounded := h.bounded.advance
    pcRange := (h.pc_after_fetch hr).2.trans (by decide) }

/-! ## The execute step -/

theorem stackEntry_le {n : Nat} (h : ∀ a ∈ s.stack, a ≤ n) (j : Nat) : s.stackEntry j ≤ n := by
  rw [State.stackEntry]
  cases hj : s.stack[j]? with
  | none => exact Nat.zero_le n
  | some a => exact h a (List.mem_of_getElem? hj)

/-- The largest `PC` is that of BNNN, 0xFFF + 0xFF (R28). -/
theorem pcAfter_le (hz : s.params.sizes = Config.nea) (entries : ∀ a ∈ s.stack, a ≤ 0x1000)
    (lo : 2 ≤ s.pc) (hi : s.pc ≤ 0x1000) (i : Instr) : pcAfter i s ≤ 0x10FE := by
  cases i
  case jp nnn | call nnn =>
    have := nnn.isLt
    exact (Nat.mod_le _ _).trans (by omega)
  case ret => exact (Nat.mod_le _ _).trans ((stackEntry_le entries _).trans (by decide))
  case jpV0 nnn =>
    have := nnn.isLt
    have := (s.reg 0).isLt
    exact (Nat.mod_le _ _).trans (by omega)
  case ldVxK x =>
    rw [pcAfter, hz, nea_pcWidth]
    split <;> omega
  case seByte | sneByte | seReg | sneReg | skp | sknp => exact skip_range s _ hz hi lo
  all_goals exact hi.trans (by decide)

/-- The only entry that an execute step adds to the stack is `PC` (R143). -/
theorem ExecCase.entries (h : ExecCase s i t) : ∀ a ∈ t.stack, a ∈ s.stack ∨ a = s.pc := by
  have kept : t.stack = s.stack → ∀ a ∈ t.stack, a ∈ s.stack ∨ a = s.pc :=
    fun e a ha => .inl (e ▸ ha)
  cases h
  case call => exact fun _ => List.mem_or_eq_of_mem_set
  case flag => exact kept ((frame_writeWithFlag ..).stack rfl)
  case ldB | storeRegs => exact kept ((frame_stored ..).stack rfl)
  case loadRegs => exact kept ((frame_loadFold ..).stack rfl)
  case drw => exact kept ((frame_drawn ..).stack rfl)
  all_goals exact kept rfl

theorem ExecCase.inv (h : ExecCase s i t) (hs : s.Inv) (lo : 2 ≤ s.pc) (hi : s.pc ≤ 0x1000) :
    t.Inv := by
  obtain ⟨k, info, hk, rfl⟩ | hc := h.faults_or_completes
  · exact hs.faultEntry hk info
  · exact
      { sizes := h.params_eq ▸ hs.sizes
        bounded := h.bounded hs.bounded
        pcRange := hc.pc ▸ pcAfter_le hs.sizes hs.stackRange lo hi i
        stackRange := fun a ha => (h.entries a ha).elim (hs.stackRange a) (· ▸ hi)
        status := (statusLegal_congr (hc.frame.status (writesOf_status s i)) h.params_eq).trans
          hs.status }

/-! ## The step, reset and the requests -/

theorem step_inv (hs : s.Inv) (h : step s = .next t) : t.Inv := by
  obtain ⟨-, -, rfl⟩ | ⟨hr, u, hu, rfl⟩ := step_cases h
  · exact hs.faultEntry (k := .addressOutOfRange) ⟨by decide, nofun⟩ _
  · obtain ⟨lo, hi⟩ := hs.pc_after_fetch hr
    have hu : u.Inv := (exec_cases hu).inv (hs.advance hr) lo hi
    split
    · exact hu.tick
    · exact hu

theorem resetWith_inv {p : Config.Params} (h : p.sizes = Config.nea) (seed : Nat) :
    (State.resetWith p seed).Inv where
  sizes := h
  bounded := resetWith_bounded (by rw [h]; decide) seed
  pcRange := show p.sizes.pcReset ≤ 0x10FE by rw [h]; decide
  stackRange _ ha := List.eq_of_mem_replicate ha ▸ Nat.zero_le _
  status := rfl

theorem serve_inv (hs : s.Inv) (r : Request) : (s.serve r).1.Inv := by
  cases r with
  | cycle =>
    obtain h | h := serve_cycle_cases s
    · exact step_inv hs h
    · rwa [h]
  | reset seed => exact resetWith_inv hs.sizes seed
  | load bytes =>
    obtain ⟨hl, h⟩ | h := serve_load_cases s bytes
    · rw [h]
      refine hs.setMemBytes ?_
      simp only [hs.sizes, nea_programMax, nea_programBase, nea_memSize] at hl ⊢
      omega
    · rwa [h]
  | keyWrite k pressed => exact hs.keyWrite k pressed
  | drawFlagClear => exact hs.setDrawFlag false

end

/-- Settles O13: a failed fetch leaves `PC` and the stack, and an execute step starts at a `PC` of at most
0x1000, from which the table of R27 leads to at most 0x10FE and a call pushes at most 0x1000. -/
theorem stepKeepsTheBlockInvariant : Obligations.StepKeepsTheBlockInvariant :=
  fun _ _ => step_inv

/-- Settles O14: every register starts at 0 but `PC`, which starts at 0x200. -/
theorem resetStateMeetsTheInvariant : Obligations.ResetStateMeetsTheInvariant :=
  ⟨fun _ seed h => resetWith_inv h seed, resetWith_inv rfl 0⟩

/-- Settles O19: cycle as a step, reset as the state after reset, load because the program area ends with
memory, and the key and draw-flag ports because they write no field that the invariant bounds. -/
theorem everyRequestKeepsTheBlockInvariant : Obligations.EveryRequestKeepsTheBlockInvariant :=
  fun _ r hs => serve_inv hs r

end Sys2Proof.Machine
end

section
/-! PROOFS. Which instructions can change which piece of state (spec/10_state.md R22, R27, R32, R36, R37,
R40, R42, R43), read off the table of writes. -/

namespace Sys2Proof.Machine

section
variable {s t : State} {i : Instr}

/-- Whether it faults or not, an execute step writes at most what the table says, and `status`. -/
theorem ExecCase.frame (h : ExecCase s i t) : Frame { writesOf s i with status := true } s t := by
  obtain ⟨k, info, -, rfl⟩ | hc := h.faults_or_completes
  · exact { frame_refl _ s with status := nofun }
  · exact { hc.frame with status := nofun }

theorem ExecCase.stack_writer (h : ExecCase s i t) (hne : t.sp ≠ s.sp ∨ t.stack ≠ s.stack) :
    (∃ nnn, i = .call nnn) ∨ i = .ret :=
  writesOf_stack fun hw => hne.elim (· (h.frame.sp hw)) (· (h.frame.stack hw))

theorem ExecCase.dt_writer (h : ExecCase s i t) (hne : t.dt ≠ s.dt) : ∃ x, i = .ldDtVx x :=
  writesOf_dt fun hw => hne (h.frame.dt hw)

theorem ExecCase.st_writer (h : ExecCase s i t) (hne : t.st ≠ s.st) : ∃ x, i = .ldStVx x :=
  writesOf_st fun hw => hne (h.frame.st hw)

theorem ExecCase.display_writer (h : ExecCase s i t)
    (hne : t.disp ≠ s.disp ∨ t.drawFlag ≠ s.drawFlag) : i = .cls ∨ ∃ x y n, i = .drw x y n :=
  writesOf_display (hne.imp (fun d hw => d (h.frame.disp hw)) fun d hw => d (h.frame.drawFlag hw))

/-- No execute step clears the draw flag: the two that write it set it (R43). -/
theorem ExecCase.drawFlag_kept_or_set (h : ExecCase s i t) :
    t.drawFlag = s.drawFlag ∨ t.drawFlag = true := by
  cases h
  case cls | drw => exact .inr rfl
  case flag => exact .inl ((frame_writeWithFlag ..).drawFlag rfl)
  case ldB | storeRegs => exact .inl ((frame_stored ..).drawFlag rfl)
  case loadRegs => exact .inl ((frame_loadFold ..).drawFlag rfl)
  all_goals exact .inl rfl

theorem ExecCase.vf_written (h : ExecCase s i t) (hne : t.reg vf ≠ s.reg vf) :
    vf ∈ (writesOf s i).regs :=
  by_contra fun hw => hne (h.frame.regs vf hw)

end

/-- Settles O23: a step that leaves the core running took no fault entry, so it completed, and the shape
of its next state gives `PC`. -/
theorem pcAfterEachInstruction : Obligations.PcAfterEachInstruction := by
  intro i s t _ h running
  obtain ⟨k, info, -, rfl⟩ | hc := (exec_cases h).faults_or_completes
  · cases running
  · exact hc.pc

/-- Settles O26: in the table of writes, 00E0 and DXYN alone have the display and the draw flag. -/
theorem onlyTwoInstructionsTouchTheDisplay : Obligations.OnlyTwoInstructionsTouchTheDisplay :=
  fun _ _ _ h hne => ⟨(exec_cases h).display_writer hne,
    fun changed => (exec_cases h).drawFlag_kept_or_set.resolve_left changed⟩

/-- Settles O27: the stack, DT and ST have their own rows in the table of writes, and keys and parameters
are in none. -/
theorem stackKeysAndTimersHaveTheirOwnWriters :
    Obligations.StackKeysAndTimersHaveTheirOwnWriters :=
  fun _ _ _ h => ⟨(exec_cases h).stack_writer, (exec_cases h).dt_writer, (exec_cases h).st_writer,
    (exec_cases h).frame.key, (exec_cases h).frame.params⟩

/-- Settles O28: VF is among the registers of an instruction's row as its flag, or where its destination
is VF. -/
theorem vfIsWrittenOnlyAsFlagOrDestination : Obligations.VfIsWrittenOnlyAsFlagOrDestination := by
  intro i s t h hne
  have hw : vf ∈ (writesOf s i).regs := (exec_cases h).vf_written hne
  cases i
  case addReg x y | subReg x y | shrReg x y | subnReg x y | shlReg x y =>
    exact .inl ⟨x, y, by simp⟩
  case addI x => exact .inr (.inl ⟨x, rfl⟩)
  case drw x y n => exact .inr (.inr (.inl ⟨x, y, n, rfl⟩))
  case ldByte x nn | addByte x nn | rnd x nn =>
    obtain rfl := List.mem_singleton.1 hw
    exact .inr (.inr (.inr (.inl ⟨nn, by simp [vf]⟩)))
  case ldReg x y | orReg x y | andReg x y | xorReg x y =>
    obtain rfl := List.mem_singleton.1 hw
    exact .inr (.inr (.inr (.inr (.inl ⟨y, by simp [vf]⟩))))
  case ldVxDt x | ldVxK x =>
    obtain rfl := List.mem_singleton.1 hw
    simp [vf]
  case loadRegs x =>
    obtain rfl : x = vf := le_antisymm (Fin.le_last x) (mem_regsUpTo.1 hw)
    simp [vf]
  all_goals exact absurd hw List.not_mem_nil

end Sys2Proof.Machine
end

section
/-! PROOFS. The state that the execute step does not look at: stack entries at or above the top
(spec/10_state.md R31) and the sound timer (R37). Both are replaced at once, by other entries and
another ST: every operation on the state commutes with that, and so does every instruction that does not
use the stack and does not write ST. -/

namespace Sys2Proof.Machine

/-- `s` with other entries in the stack and another value in ST. -/
def State.withUnread (s : State) (entries : List Nat) (st : Nat) : State :=
  { s with stack := entries, st := st }

/-- An outcome with other stack entries and another ST in its next state. -/
def outcomeWithUnread (entries : List Nat) (st : Nat) : Outcome → Outcome
  | .next t => .next (t.withUnread entries st)
  | .fault r => .fault r
  | .refused r => .refused r

section
variable (s : State) (l : List Nat) (b : Nat)

/-! ## What is read off the state -/

@[simp] theorem withUnread_params : (s.withUnread l b).params = s.params := rfl
@[simp] theorem withUnread_reg (x : RegIdx) : (s.withUnread l b).reg x = s.reg x := rfl
@[simp] theorem withUnread_pixel (k : Nat) : (s.withUnread l b).pixel k = s.pixel k := rfl
@[simp] theorem withUnread_keyDown (k : Nat) : (s.withUnread l b).keyDown k = s.keyDown k := rfl
@[simp] theorem withUnread_keyOperand (x : RegIdx) :
    (s.withUnread l b).keyOperand x = s.keyOperand x := rfl
@[simp] theorem withUnread_highestKey : (s.withUnread l b).highestKey = s.highestKey := rfl
@[simp] theorem withUnread_nibbleSelectsSkip (n : Nibble) :
    (s.withUnread l b).nibbleSelectsSkip n = s.nibbleSelectsSkip n := rfl
@[simp] theorem withUnread_effAddr (k : Nat) : (s.withUnread l b).effAddr k = s.effAddr k := rfl
@[simp] theorem withUnread_firstBadRead (n : Nat) :
    (s.withUnread l b).firstBadRead n = s.firstBadRead n := rfl
@[simp] theorem withUnread_firstBadWrite (n : Nat) :
    (s.withUnread l b).firstBadWrite n = s.firstBadWrite n := rfl
@[simp] theorem withUnread_cellIndex (px py : Nat) :
    (s.withUnread l b).cellIndex px py = s.cellIndex px py := rfl
@[simp] theorem withUnread_spriteTargets (x0 y0 n : Nat) :
    (s.withUnread l b).spriteTargets x0 y0 n = s.spriteTargets x0 y0 n := rfl
@[simp] theorem withUnread_spriteX (x : RegIdx) : (s.withUnread l b).spriteX x = s.spriteX x := rfl
@[simp] theorem withUnread_spriteY (y : RegIdx) : (s.withUnread l b).spriteY y = s.spriteY y := rfl
@[simp] theorem withUnread_firstBadCell (ps : List (Nat × Nat)) :
    (s.withUnread l b).firstBadCell ps = s.firstBadCell ps := rfl

/-! ## What is written to it -/

@[simp] theorem setReg_withUnread (x : RegIdx) (c : Byte) :
    (s.withUnread l b).setReg x c = (s.setReg x c).withUnread l b := rfl

@[simp] theorem flipPixel_withUnread (k : Nat) :
    (s.withUnread l b).flipPixel k = (s.flipPixel k).withUnread l b := rfl

@[simp] theorem setDrawFlag_withUnread (f : Bool) :
    (s.withUnread l b).setDrawFlag f = (s.setDrawFlag f).withUnread l b := rfl

@[simp] theorem raiseFault_withUnread (k : FaultKind) (info : Option Nat) :
    raiseFault k info (s.withUnread l b) = outcomeWithUnread l b (raiseFault k info s) := rfl

@[simp] theorem skipIf_withUnread (c : Bool) :
    (s.withUnread l b).skipIf c = (s.skipIf c).withUnread l b := by
  cases c <;> rfl

/-- Flag and result may look at anything but the replaced fields. -/
theorem writeWithFlag_withUnread (x : RegIdx) {f r : State → Byte}
    (hf : ∀ u : State, f (u.withUnread l b) = f u) (hr : ∀ u : State, r (u.withUnread l b) = r u) :
    (s.withUnread l b).writeWithFlag x f r = (s.writeWithFlag x f r).withUnread l b := by
  simp only [State.writeWithFlag, withUnread_params, setReg_withUnread, hf, hr]
  split <;> rfl

@[simp] theorem setMemBytes_withUnread (a : Nat) (bs : List Byte) :
    (s.withUnread l b).setMemBytes a bs = (s.setMemBytes a bs).withUnread l b := by
  induction bs generalizing s a with
  | nil => rfl
  | cons c bs ih => exact ih (s.setMemByte a c) (a + 1)

theorem loadFold_withUnread (rs : List RegIdx) :
    rs.foldl (fun t k => t.setReg k (t.memByte (t.effAddr k.val))) (s.withUnread l b) =
      (rs.foldl (fun t k => t.setReg k (t.memByte (t.effAddr k.val))) s).withUnread l b := by
  induction rs generalizing s with
  | nil => rfl
  | cons k rs ih => exact ih (s.setReg k (s.memByte (s.effAddr k.val)))

theorem togglePixel_withUnread (k : Nat) :
    (s.withUnread l b).togglePixel k = (s.togglePixel k).withUnread l b := by
  cases h : s.pixel k <;> simp [State.togglePixel, h]

theorem plot_withUnread (px py : Nat) :
    (s.withUnread l b).plot px py = (s.plot px py).withUnread l b := by
  simp only [State.plot, withUnread_params, withUnread_cellIndex, togglePixel_withUnread]
  split
  · split <;> rfl
  · rfl

theorem plotFold_withUnread (ps : List (Nat × Nat)) :
    ps.foldl (fun t p => t.plot p.1 p.2) (s.withUnread l b) =
      (ps.foldl (fun t p => t.plot p.1 p.2) s).withUnread l b := by
  induction ps generalizing s with
  | nil => rfl
  | cons p ps ih => rw [List.foldl_cons, plot_withUnread, ih, List.foldl_cons]

/-! ## The execute step -/

/-- Every instruction but 2NNN, 00EE and FX18 does the same whatever the stack's entries and ST are, and
keeps them. -/
theorem exec_withUnread {i : Instr} (hcall : ∀ n, i ≠ .call n) (hret : i ≠ .ret)
    (hst : ∀ x, i ≠ .ldStVx x) : exec i (s.withUnread l b) = outcomeWithUnread l b (exec i s) := by
  cases i
  case call n => exact absurd rfl (hcall n)
  case ret => exact absurd rfl hret
  case ldStVx x => exact absurd rfl (hst x)
  case seByte | sneByte => exact congrArg Host.Outcome.next (skipIf_withUnread ..)
  case seReg x y n =>
    simp only [exec, execSeReg, withUnread_nibbleSelectsSkip, withUnread_reg, skipIf_withUnread]
    split <;> rfl
  case sneReg x y n =>
    simp only [exec, execSneReg, withUnread_nibbleSelectsSkip, withUnread_reg, skipIf_withUnread]
    split <;> rfl
  case skp x => cases h : s.keyOperand x <;> simp [exec, execSkp, h, outcomeWithUnread]
  case sknp x => cases h : s.keyOperand x <;> simp [exec, execSknp, h, outcomeWithUnread]
  case ldVxK x =>
    simp only [exec, execLdVxK, withUnread_highestKey, withUnread_params, setReg_withUnread]
    split
    · rfl
    · split <;> rfl
  case addReg | subReg | shrReg | subnReg | shlReg =>
    exact congrArg Host.Outcome.next
      (writeWithFlag_withUnread s l b _ (fun _ => rfl) (fun _ => rfl))
  case ldB x => cases h : s.firstBadWrite 3 <;> simp [exec, execLdB, h, outcomeWithUnread]
  case storeRegs x =>
    have regs : (s.withUnread l b).reg = s.reg := rfl
    cases h : s.firstBadWrite (x.val + 1) <;> simp [exec, execStoreRegs, h, outcomeWithUnread, regs]
  case loadRegs x =>
    cases h : s.firstBadRead (x.val + 1) <;>
      simp [exec, execLoadRegs, h, outcomeWithUnread, loadFold_withUnread]
  case drw x y n =>
    simp only [exec, execDrw, withUnread_firstBadRead, withUnread_spriteTargets, withUnread_spriteX,
      withUnread_spriteY, withUnread_firstBadCell, raiseFault_withUnread, setReg_withUnread,
      plotFold_withUnread, setDrawFlag_withUnread]
    split
    · rfl
    · split <;> rfl
  all_goals rfl

end

end Sys2Proof.Machine
end

section
/-! PROOFS. Entries above the top and the sound timer are unobservable (spec/10_state.md R31, R37): 2NNN
and 00EE, which use the stack, case by case, FX18 by itself, and every other instruction at once. -/

namespace Sys2Proof.Machine

section
variable {s t u : State} {i : Instr}

/-! ## 2NNN and 00EE (spec/10_state.md R33, R34) -/

theorem exec_call_some (nnn : Addr12) (h : s.sp < s.params.stackCapacity) :
    exec (.call nnn) s = .next (State.setPc
      { s with stack := s.stack.set s.sp s.pc, sp := s.sp + 1 } (addrOperand nnn)) := by
  simp [exec, execCall, push_some h]

theorem exec_call_full (nnn : Addr12) (h : s.params.stackCapacity ≤ s.sp) :
    exec (.call nnn) s = .next (s.faultEntry .stackOverflow (some s.pc)) := by
  simp [exec, execCall, push_none h, raiseFault]

theorem exec_ret_some (h : 0 < s.sp) :
    exec .ret s = .next (State.setPc { s with sp := s.sp - 1 } (s.stackEntry (s.sp - 1))) := by
  simp [exec, execRet, pop_some h]

theorem exec_ret_empty (h : s.sp = 0) :
    exec .ret s = .next (s.faultEntry .stackUnderflow none) := by
  simp [exec, execRet, pop_none h, raiseFault]

/-! ## Entries above the top -/

/-- A state beside `s` is `s` with as many entries, those below the top the same. -/
theorem sameBelowTop_iff : SameBelowTop s t ↔ ∃ l : List Nat, t = { s with stack := l } ∧
    l.length = s.stack.length ∧ ∀ j < s.sp, (l[j]?).getD 0 = s.stackEntry j := by
  constructor
  · rintro ⟨ht, hl, he⟩
    exact ⟨t.stack, ht, hl, he⟩
  · rintro ⟨l, rfl, hl, he⟩
    exact ⟨rfl, hl, he⟩

theorem SameBelowTop.advance (h : SameBelowTop s t) : SameBelowTop s.advance t.advance := by
  obtain ⟨l, rfl, hl, he⟩ := sameBelowTop_iff.1 h
  exact ⟨rfl, hl, he⟩

theorem SameBelowTop.tick (h : SameBelowTop s t) : SameBelowTop s.tick t.tick := by
  obtain ⟨l, rfl, hl, he⟩ := sameBelowTop_iff.1 h
  exact ⟨rfl, hl, he⟩

/-- A call writes the same entry on both stacks, or faults on both. -/
theorem exec_call_sameBelowTop (h : SameBelowTop s t) (nnn : Addr12)
    (hs : exec (.call nnn) s = .next u) : ∃ v, exec (.call nnn) t = .next v ∧ SameBelowTop u v := by
  obtain ⟨l, rfl, hl, he⟩ := sameBelowTop_iff.1 h
  by_cases hc : s.sp < s.params.stackCapacity
  · cases (exec_call_some nnn hc).symm.trans hs
    refine ⟨_, exec_call_some nnn hc, rfl, by simp [hl], fun j hj => ?_⟩
    have hj : j < s.sp + 1 := hj
    by_cases hn : s.sp = j
    · simp [State.stackEntry, List.getElem?_set, hn, hl]
    · simpa [State.stackEntry, List.getElem?_set, hn] using he j (by omega)
  · cases (exec_call_full nnn (Nat.le_of_not_lt hc)).symm.trans hs
    exact ⟨_, exec_call_full nnn (Nat.le_of_not_lt hc), rfl, hl, he⟩

/-- A return takes the entry below the top, which both stacks share, or faults on both. -/
theorem exec_ret_sameBelowTop (h : SameBelowTop s t) (hs : exec .ret s = .next u) :
    ∃ v, exec .ret t = .next v ∧ SameBelowTop u v := by
  obtain ⟨l, rfl, hl, he⟩ := sameBelowTop_iff.1 h
  by_cases hc : 0 < s.sp
  · cases (exec_ret_some hc).symm.trans hs
    have top : State.stackEntry { s with stack := l } (s.sp - 1) = s.stackEntry (s.sp - 1) :=
      he _ (by omega)
    refine ⟨_, exec_ret_some hc, ?_⟩
    rw [top]
    exact ⟨rfl, hl, fun j hj => he j (Nat.lt_of_lt_of_le hj (Nat.sub_le ..))⟩
  · have h0 : s.sp = 0 := by omega
    cases (exec_ret_empty h0).symm.trans hs
    exact ⟨_, exec_ret_empty (s := { s with stack := l }) h0, rfl, hl, he⟩

/-- An instruction that does not use the stack keeps it. -/
theorem exec_stack_eq (h : exec i s = .next t) (hcall : ∀ n, i ≠ .call n) (hret : i ≠ .ret) :
    t.sp = s.sp ∧ t.stack = s.stack := by
  by_contra hne
  obtain ⟨n, rfl⟩ | rfl := (exec_cases h).stack_writer (not_and_or.1 hne)
  · exact hcall n rfl
  · exact hret rfl

theorem exec_sameBelowTop (h : SameBelowTop s t) (hs : exec i s = .next u) :
    ∃ v, exec i t = .next v ∧ SameBelowTop u v := by
  by_cases hcall : ∃ n, i = .call n
  · obtain ⟨n, rfl⟩ := hcall
    exact exec_call_sameBelowTop h n hs
  by_cases hret : i = .ret
  · subst hret
    exact exec_ret_sameBelowTop h hs
  obtain ⟨l, rfl, hl, he⟩ := sameBelowTop_iff.1 h
  by_cases hst : ∃ x, i = .ldStVx x
  · obtain ⟨x, rfl⟩ := hst
    cases hs
    exact ⟨_, rfl, rfl, hl, he⟩
  · rw [not_exists] at hcall hst
    obtain ⟨hsp, hstack⟩ := exec_stack_eq hs hcall hret
    have hstk : u.st = s.st := by_contra fun hne => (exec_cases hs).st_writer hne |>.elim hst
    have beside : exec i (s.withUnread l s.st) = .next (u.withUnread l s.st) := by
      rw [exec_withUnread s l s.st hcall hret hst, hs]
      rfl
    refine ⟨_, beside, ?_⟩
    rw [← hstk]
    refine ⟨rfl, hl.trans (congrArg _ hstack.symm), fun j hj => ?_⟩
    rw [stackEntry_congr hstack]
    exact he j (hsp ▸ hj)

theorem step_of_ready (hr : s.ready) (hu : exec (decode s.word) s.advance = .next u) :
    step s = .next
      (if u.status = .running ∧ noKeyReturn (decode s.word) s.advance = false then u.tick else u) := by
  rw [step, runCycle, hr.1, fetch_ok hr.2]
  simp only [hu, endCycle_next]

theorem step_sameBelowTop (h : SameBelowTop s t) (hs : step s = .next u) :
    ∃ v, step t = .next v ∧ SameBelowTop u v := by
  obtain ⟨hrun, hpc, rfl⟩ | ⟨hr, w, hw, rfl⟩ := step_cases hs
  · obtain ⟨l, rfl, hl, he⟩ := sameBelowTop_iff.1 h
    exact ⟨_, step_fetch_past_end hrun hpc, rfl, hl, he⟩
  · obtain ⟨w', hw', same⟩ := exec_sameBelowTop h.advance hw
    obtain ⟨l, rfl, -⟩ := sameBelowTop_iff.1 h
    have sameStatus : w'.status = w.status := by rw [same.1]
    refine ⟨_, step_of_ready hr hw', ?_⟩
    rw [sameStatus]
    change SameBelowTop _
      (if w.status = .running ∧ noKeyReturn (decode s.word) s.advance = false then w'.tick else w')
    split
    · exact same.tick
    · exact same

/-! ## The sound timer -/

theorem exec_setSt (h : exec i s = .next t) (hst : ∀ x, i ≠ .ldStVx x) (b : Nat) :
    exec i (s.setSt b) = .next (t.setSt b) := by
  by_cases hcall : ∃ n, i = .call n
  · obtain ⟨n, rfl⟩ := hcall
    by_cases hc : s.sp < s.params.stackCapacity
    · cases (exec_call_some n hc).symm.trans h
      exact exec_call_some n hc
    · cases (exec_call_full n (Nat.le_of_not_lt hc)).symm.trans h
      exact exec_call_full n (Nat.le_of_not_lt hc)
  by_cases hret : i = .ret
  · subst hret
    by_cases hc : 0 < s.sp
    · cases (exec_ret_some hc).symm.trans h
      exact exec_ret_some hc
    · have h0 : s.sp = 0 := by omega
      cases (exec_ret_empty h0).symm.trans h
      exact exec_ret_empty (s := s.setSt b) h0
  · rw [not_exists] at hcall
    have replaced : t.setSt b = t.withUnread s.stack (b % 2 ^ s.params.sizes.timerWidth) := by
      rw [← (exec_stack_eq h hcall hret).2, ← (exec_cases h).params_eq]
      rfl
    rw [replaced]
    exact (exec_withUnread s s.stack _ hcall hret hst).trans (congrArg _ h)

end

/-- Settles O29: with the halted check, the fetch and the decoding the same on both sides, the execute
step keeps the two states beside each other, and so does the tick. -/
theorem entriesAboveTheTopAreUnobservable : Obligations.EntriesAboveTheTopAreUnobservable :=
  fun _ _ _ => step_sameBelowTop

/-- Settles O30: FX18 overwrites ST, and every other instruction keeps whatever ST is. -/
theorem soundTimerIsReadByNoInstruction : Obligations.SoundTimerIsReadByNoInstruction := by
  refine fun i s t b h => ⟨fun hst => exec_setSt h hst b, ?_⟩
  rintro x rfl
  cases h
  rfl

end Sys2Proof.Machine
end

section
/-! PROOFS. The capacity of the stack (spec/10_state.md R35), the values after reset (R49) and the two
one-field ports (R53, R54). -/

namespace Sys2Proof.Machine

/-- As many pushes as there is room for succeed, one after another. -/
theorem pushes_some {s : State} {as : List Nat} (h : s.sp + as.length ≤ s.params.stackCapacity) :
    ∃ t, as.foldlM State.push s = some t ∧ t.sp = s.sp + as.length ∧ t.params = s.params := by
  induction as generalizing s with
  | nil => exact ⟨s, rfl, rfl, rfl⟩
  | cons a as ih =>
    rw [List.length_cons] at h ⊢
    rw [List.foldlM_cons, push_some (by omega)]
    have room : s.sp + 1 + as.length ≤ s.params.stackCapacity := by omega
    obtain ⟨t, pushed, hsp, hp⟩ :=
      ih (s := { s with stack := s.stack.set s.sp a, sp := s.sp + 1 }) room
    exact ⟨t, pushed, hsp.trans (Nat.succ_add_eq_add_succ ..), hp⟩

/-- Settles O35: the pushes fill the stack, a full stack refuses a push and an empty one a pop. -/
theorem stackHoldsExactlyItsCapacity : Obligations.StackHoldsExactlyItsCapacity := by
  intro s as h0 hlen
  obtain ⟨t, pushed, hsp, hp⟩ := pushes_some (s := s) (as := as) (by omega)
  have filled : t.sp = s.params.stackCapacity := by omega
  have full : t.params.stackCapacity ≤ t.sp := by rw [hp, filled]
  exact ⟨⟨t, pushed, filled, push_none full, fun nnn => exec_call_full nnn full⟩, pop_none h0,
    exec_ret_empty h0⟩

/-- Settles O15: memory after reset reads as its unlisted cells, which are the font table at 0x000 to
0x04F and 0 elsewhere; every other list is all zeros. -/
theorem resetGivesTheListedValues : Obligations.ResetGivesTheListedValues := by
  refine ⟨fun p seed hp hz => ?_, 0, rfl⟩
  have hfont : p.font.length = 80 := by
    simp only [Config.Params.wf, hz, Bool.and_eq_true, decide_eq_true_eq] at hp
    obtain ⟨⟨-, filled⟩, -⟩ := hp
    exact filled
  have zeros : ∀ (α : Type) (n k : Nat) (z : α), ((List.replicate n z)[k]?).getD z = z :=
    fun _ n k z => List.getElem?_getD_replicate_default_eq z n k
  refine ⟨hfont, fun a ha => ?_, fun a ha => ?_, ?_, fun _ => zeros .., rfl, ?_, rfl,
    List.length_replicate, fun _ => zeros .., rfl, rfl, Nat.zero_testBit, ?_, fun _ => zeros ..,
    rfl, rfl, rfl⟩
  · have inside : p.sizes.fontBase ≤ a ∧ a ≤ p.sizes.fontEnd := by
      rw [hz, nea_fontBase, nea_fontEnd]
      omega
    rw [memByte_resetWith, Memory.unlisted, if_pos inside, hz, nea_fontBase, Nat.sub_zero,
      List.getElem?_eq_getElem ha, Option.getD_some]
  · have outside : ¬ (p.sizes.fontBase ≤ a ∧ a ≤ p.sizes.fontEnd) := by
      rw [hz, nea_fontEnd]
      omega
    rw [memByte_resetWith, Memory.unlisted, if_neg outside]
  · exact List.length_replicate.trans (congrArg _ hz)
  · exact congrArg Config.Sizes.pcReset hz
  · exact List.length_replicate.trans (congrArg _ hz)

/-- Settles O18: a key of this hardware is one of the 16 cells of the key buffer, and writing a cell
leaves the others. -/
theorem keyAndDrawFlagPortsTouchOneFieldEach :
    Obligations.KeyAndDrawFlagPortsTouchOneFieldEach := by
  refine ⟨fun s k b hs hk => ?_, fun s => rfl⟩
  have keys : s.key.length = 16 := hs.fits.keys.trans (congrArg Config.Sizes.nkeys hs.sizes)
  refine ⟨s.keyWrite k b, rfl, rfl, ?_, fun j hj => ?_⟩
  · rw [keyDown_keyWrite, if_pos ⟨rfl, by omega⟩]
  · rw [keyDown_keyWrite, if_neg fun h => hj h.1.symm]

end Sys2Proof.Machine
end

section
/-! PROOFS. The two instructions that store in memory, and the bytes they reach (spec/40_cycle.md R129),
read off the table of writes. -/

namespace Sys2Proof.Machine

section
variable {s t : State} {i : Instr} {a : Nat}

/-- FX33 and FX55 alone have bytes of memory in the table of writes, from `I` on. -/
theorem writesOf_mem (h : a ∈ (writesOf s i).mem) :
    (∃ x, i = .ldB x ∧ s.i ≤ a ∧ a ≤ s.i + 2) ∨
    (∃ x, i = .storeRegs x ∧ s.i ≤ a ∧ a ≤ s.i + x.val) := by
  cases i
  case ldB x =>
    obtain ⟨lo, hi⟩ := mem_span.1 h
    exact .inl ⟨x, rfl, lo, Nat.le_of_lt_succ hi⟩
  case storeRegs x =>
    obtain ⟨lo, hi⟩ := mem_span.1 h
    exact .inr ⟨x, rfl, lo, Nat.le_of_lt_succ hi⟩
  all_goals exact absurd h List.not_mem_nil

theorem ExecCase.mem_written (h : ExecCase s i t) (hne : t.memByte a ≠ s.memByte a) :
    a ∈ (writesOf s i).mem :=
  by_contra fun hw => hne (h.frame.mem a hw)

end

/-- Settles O25: a byte that changed is in the row of its instruction, which names the bytes from `I` on.
The frame of a store holds for cells in any order, so the premise on memory is not needed. -/
theorem onlyTwoInstructionsWriteMemory : Obligations.OnlyTwoInstructionsWriteMemory :=
  fun _ _ _ _ _ h hne => writesOf_mem ((exec_cases h).mem_written hne)

end Sys2Proof.Machine
end

section
/-! PROOFS. The decoder, group by group (spec/30_encoding.md R94 to R102): what each top nibble and each
sub-code gives, and the two round trips between instructions and words. -/

namespace Sys2Proof

/-! ## One equation per top nibble (R94, R96, R97, R102) -/

section
variable {w : Word}

theorem decode_group0 (h : (topNibble w).toNat = 0x0) : decode w = decodeGroup0 w := by
  simp only [decode, h]

theorem decode_jp (h : (topNibble w).toNat = 0x1) : decode w = .jp (fieldNNN w) := by
  simp only [decode, h]

theorem decode_call (h : (topNibble w).toNat = 0x2) : decode w = .call (fieldNNN w) := by
  simp only [decode, h]

theorem decode_seByte (h : (topNibble w).toNat = 0x3) :
    decode w = .seByte (fieldX w) (fieldNN w) := by
  simp only [decode, h]

theorem decode_sneByte (h : (topNibble w).toNat = 0x4) :
    decode w = .sneByte (fieldX w) (fieldNN w) := by
  simp only [decode, h]

theorem decode_seReg (h : (topNibble w).toNat = 0x5) :
    decode w = .seReg (fieldX w) (fieldY w) (fieldN w) := by
  simp only [decode, h]

theorem decode_ldByte (h : (topNibble w).toNat = 0x6) :
    decode w = .ldByte (fieldX w) (fieldNN w) := by
  simp only [decode, h]

theorem decode_addByte (h : (topNibble w).toNat = 0x7) :
    decode w = .addByte (fieldX w) (fieldNN w) := by
  simp only [decode, h]

theorem decode_group8 (h : (topNibble w).toNat = 0x8) :
    decode w = decodeGroup8 (fieldX w) (fieldY w) (fieldN w) := by
  simp only [decode, h]

theorem decode_sneReg (h : (topNibble w).toNat = 0x9) :
    decode w = .sneReg (fieldX w) (fieldY w) (fieldN w) := by
  simp only [decode, h]

theorem decode_ldI (h : (topNibble w).toNat = 0xA) : decode w = .ldI (fieldNNN w) := by
  simp only [decode, h]

theorem decode_jpV0 (h : (topNibble w).toNat = 0xB) : decode w = .jpV0 (fieldNNN w) := by
  simp only [decode, h]

theorem decode_rnd (h : (topNibble w).toNat = 0xC) : decode w = .rnd (fieldX w) (fieldNN w) := by
  simp only [decode, h]

theorem decode_drw (h : (topNibble w).toNat = 0xD) :
    decode w = .drw (fieldX w) (fieldY w) (fieldN w) := by
  simp only [decode, h]

theorem decode_groupE (h : (topNibble w).toNat = 0xE) :
    decode w = decodeGroupE (fieldX w) (fieldNN w) := by
  simp only [decode, h]

theorem decode_groupF (h : (topNibble w).toNat = 0xF) :
    decode w = decodeGroupF (fieldX w) (fieldNN w) := by
  simp only [decode, h]

end

/-- A field whose number is `c` is `c` in the field's width. -/
theorem eq_ofNat {k c : Nat} {b : BitVec k} (h : b.toNat = c) : b = BitVec.ofNat k c := by
  rw [← h, BitVec.ofNat_toNat, BitVec.setWidth_eq]

/-! ## The sub-codes that name no class (R95, R98 to R100)

A sub-code that names a class is a literal, and there the decoder of the group computes. -/

theorem decodeGroup8_noop {n : Nibble} (h : n ∉ namedGroup8) (x y : RegIdx) :
    decodeGroup8 x y n = .noopGroup8 x y n := by
  unfold decodeGroup8
  split
  case h_10 => rfl
  all_goals
    rename_i hn
    obtain rfl := eq_ofNat hn
    exact absurd (by decide) h

theorem decodeGroupE_noop {nn : Byte} (h : nn ∉ namedGroupE) (x : RegIdx) :
    decodeGroupE x nn = .noopGroupE x nn := by
  unfold decodeGroupE
  split
  case h_3 => rfl
  all_goals
    rename_i hn
    obtain rfl := eq_ofNat hn
    exact absurd (by decide) h

theorem decodeGroupF_noop {nn : Byte} (h : nn ∉ namedGroupF) (x : RegIdx) :
    decodeGroupF x nn = .noopGroupF x nn := by
  unfold decodeGroupF
  split
  case h_10 => rfl
  all_goals
    rename_i hn
    obtain rfl := eq_ofNat hn
    exact absurd (by decide) h

/-- Addresses with the same group-0 word are equal. -/
theorem packNNN_group0_inj {a b : Addr12} (h : packNNN 0x0 a = packNNN 0x0 b) : a = b := by
  rw [← (fields_packNNN (t := 0x0) (by decide) a).2, h, (fields_packNNN (by decide) b).2]

theorem decodeGroup0_sys {nnn : Addr12} (h : nnn ∉ namedGroup0) :
    decodeGroup0 (packNNN 0x0 nnn) = .sys nnn := by
  simp only [namedGroup0, List.mem_cons, List.not_mem_nil, or_false, not_or] at h
  obtain ⟨not_cls, not_ret⟩ := h
  have h1 : packNNN 0x0 nnn ≠ 0x00E0#16 := fun h => not_cls (packNNN_group0_inj h)
  have h2 : packNNN 0x0 nnn ≠ 0x00EE#16 := fun h => not_ret (packNNN_group0_inj h)
  rw [decodeGroup0, if_neg h1, if_neg h2, (fields_packNNN (by decide) nnn).2]

/-! ## A word is its top nibble and its fields (R91) -/

section
variable {w : Word} {t : Nat}

theorem packNNN_fields (h : (topNibble w).toNat = t) : packNNN t (fieldNNN w) = w := by
  apply BitVec.eq_of_toNat_eq
  rw [packNNN_toNat (h ▸ (topNibble w).isLt), fieldNNN_toNat, ← h, topNibble_toNat]
  omega

theorem packXNN_fields (h : (topNibble w).toNat = t) : packXNN t (fieldX w) (fieldNN w) = w := by
  apply BitVec.eq_of_toNat_eq
  rw [packXNN_toNat (h ▸ (topNibble w).isLt), fieldX_val, fieldNN_toNat, ← h, topNibble_toNat]
  omega

theorem packXYN_fields (h : (topNibble w).toNat = t) :
    packXYN t (fieldX w) (fieldY w) (fieldN w) = w := by
  apply BitVec.eq_of_toNat_eq
  rw [packXYN_toNat (h ▸ (topNibble w).isLt), fieldX_val, fieldY_val, fieldN_toNat, ← h,
    topNibble_toNat]
  omega

end

/-! ## Well-formed no-ops (R95, R98 to R100) -/

theorem wf_sys {nnn : Addr12} : (Instr.sys nnn).wf = true ↔ nnn ∉ namedGroup0 := by
  simp [Instr.wf]

theorem wf_noopGroup8 {x y : RegIdx} {n : Nibble} :
    (Instr.noopGroup8 x y n).wf = true ↔ n ∉ namedGroup8 := by
  simp [Instr.wf]

theorem wf_noopGroupE {x : RegIdx} {nn : Byte} :
    (Instr.noopGroupE x nn).wf = true ↔ nn ∉ namedGroupE := by
  simp [Instr.wf]

theorem wf_noopGroupF {x : RegIdx} {nn : Byte} :
    (Instr.noopGroupF x nn).wf = true ↔ nn ∉ namedGroupF := by
  simp [Instr.wf]

/-! ## Encoding what was decoded (R94, R101, R104) -/

/-- The instruction `i` stands for the word `w`: it is well formed, and `w` is its word. -/
def Instr.StandsFor (i : Instr) (w : Word) : Prop := i.wf = true ∧ encode i = w

theorem decodeGroup0_standsFor {w : Word} (h : (topNibble w).toNat = 0x0) :
    (decodeGroup0 w).StandsFor w := by
  rw [← packNNN_fields h]
  by_cases hn : fieldNNN w ∈ namedGroup0
  · generalize fieldNNN w = nnn at hn
    fin_cases hn <;> exact ⟨rfl, rfl⟩
  · rw [decodeGroup0_sys hn]
    exact ⟨wf_sys.2 hn, rfl⟩

theorem decodeGroup8_standsFor (x y : RegIdx) (n : Nibble) :
    (decodeGroup8 x y n).StandsFor (packXYN 0x8 x y n) := by
  by_cases hn : n ∈ namedGroup8
  · fin_cases hn <;> exact ⟨rfl, rfl⟩
  · rw [decodeGroup8_noop hn]
    exact ⟨wf_noopGroup8.2 hn, rfl⟩

theorem decodeGroupE_standsFor (x : RegIdx) (nn : Byte) :
    (decodeGroupE x nn).StandsFor (packXNN 0xE x nn) := by
  by_cases hn : nn ∈ namedGroupE
  · fin_cases hn <;> exact ⟨rfl, rfl⟩
  · rw [decodeGroupE_noop hn]
    exact ⟨wf_noopGroupE.2 hn, rfl⟩

theorem decodeGroupF_standsFor (x : RegIdx) (nn : Byte) :
    (decodeGroupF x nn).StandsFor (packXNN 0xF x nn) := by
  by_cases hn : nn ∈ namedGroupF
  · fin_cases hn <;> exact ⟨rfl, rfl⟩
  · rw [decodeGroupF_noop hn]
    exact ⟨wf_noopGroupF.2 hn, rfl⟩

/-- A word of one class is packed from its fields; a word of group 0, 8, E or F is
what the decoder of its group says. -/
theorem decode_standsFor (w : Word) : (decode w).StandsFor w := by
  have bound : (topNibble w).toNat < 16 := (topNibble w).isLt
  generalize h : (topNibble w).toNat = t at bound
  interval_cases t
  · exact decode_group0 h ▸ decodeGroup0_standsFor h
  · exact decode_jp h ▸ ⟨rfl, packNNN_fields h⟩
  · exact decode_call h ▸ ⟨rfl, packNNN_fields h⟩
  · exact decode_seByte h ▸ ⟨rfl, packXNN_fields h⟩
  · exact decode_sneByte h ▸ ⟨rfl, packXNN_fields h⟩
  · exact decode_seReg h ▸ ⟨rfl, packXYN_fields h⟩
  · exact decode_ldByte h ▸ ⟨rfl, packXNN_fields h⟩
  · exact decode_addByte h ▸ ⟨rfl, packXNN_fields h⟩
  · have key := decodeGroup8_standsFor (fieldX w) (fieldY w) (fieldN w)
    rwa [packXYN_fields h, ← decode_group8 h] at key
  · exact decode_sneReg h ▸ ⟨rfl, packXYN_fields h⟩
  · exact decode_ldI h ▸ ⟨rfl, packNNN_fields h⟩
  · exact decode_jpV0 h ▸ ⟨rfl, packNNN_fields h⟩
  · exact decode_rnd h ▸ ⟨rfl, packXNN_fields h⟩
  · exact decode_drw h ▸ ⟨rfl, packXYN_fields h⟩
  · have key := decodeGroupE_standsFor (fieldX w) (fieldNN w)
    rwa [packXNN_fields h, ← decode_groupE h] at key
  · have key := decodeGroupF_standsFor (fieldX w) (fieldNN w)
    rwa [packXNN_fields h, ← decode_groupF h] at key

/-! ## Decoding what was encoded (R94, R102, R103) -/

theorem decode_packXYN_group8 (x y : RegIdx) (n : Nibble) :
    decode (packXYN 0x8 x y n) = decodeGroup8 x y n := by
  obtain ⟨ht, hx, hy, hn⟩ := fields_packXYN (t := 0x8) (by decide) x y n
  rw [decode_group8 ht, hx, hy, hn]

theorem decode_packXNN_groupE (x : RegIdx) (nn : Byte) :
    decode (packXNN 0xE x nn) = decodeGroupE x nn := by
  obtain ⟨ht, hx, hnn⟩ := fields_packXNN (t := 0xE) (by decide) x nn
  rw [decode_groupE ht, hx, hnn]

theorem decode_packXNN_groupF (x : RegIdx) (nn : Byte) :
    decode (packXNN 0xF x nn) = decodeGroupF x nn := by
  obtain ⟨ht, hx, hnn⟩ := fields_packXNN (t := 0xF) (by decide) x nn
  rw [decode_groupF ht, hx, hnn]

theorem decode_encode {i : Instr} (h : i.wf = true) : decode (encode i) = i := by
  cases i
  case cls | ret => rfl
  case sys nnn =>
    exact (decode_group0 (fields_packNNN (by decide) nnn).1).trans (decodeGroup0_sys (wf_sys.1 h))
  case noopGroup8 x y n =>
    exact (decode_packXYN_group8 x y n).trans (decodeGroup8_noop (wf_noopGroup8.1 h) x y)
  case noopGroupE x nn =>
    exact (decode_packXNN_groupE x nn).trans (decodeGroupE_noop (wf_noopGroupE.1 h) x)
  case noopGroupF x nn =>
    exact (decode_packXNN_groupF x nn).trans (decodeGroupF_noop (wf_noopGroupF.1 h) x)
  case ldReg x y | orReg x y | andReg x y | xorReg x y | addReg x y | subReg x y | shrReg x y
      | subnReg x y | shlReg x y => exact decode_packXYN_group8 x y _
  case skp x | sknp x => exact decode_packXNN_groupE x _
  case ldVxDt x | ldVxK x | ldDtVx x | ldStVx x | addI x | ldF x | ldB x | storeRegs x
      | loadRegs x => exact decode_packXNN_groupF x _
  case jp nnn | call nnn | ldI nnn | jpV0 nnn => simp [encode, decode, fields_packNNN]
  case seByte x nn | sneByte x nn | ldByte x nn | addByte x nn | rnd x nn =>
    simp [encode, decode, fields_packXNN]
  case seReg x y n | sneReg x y n | drw x y n => simp [encode, decode, fields_packXYN]

/-- The two bytes of a word, and any bytes after them, decode as the word does (R65, R66). -/
theorem decodeBytes_encodeBytes (i : Instr) (rest : List Byte) :
    decodeBytes (encodeBytes i ++ rest) = .ok (decode (encode i), rest) := by
  simp only [encodeBytes, List.cons_append, List.nil_append, decodeBytes,
    wordOfBytes_highByte_lowByte]

/-- Settles O5: the decoder reads back the fields that the encoder packed; the fields of a no-op name no
other class. -/
theorem decodeOfEncodeIsTheInstruction : Obligations.DecodeOfEncodeIsTheInstruction :=
  fun i h => ⟨decode_encode h, fun rest => by rw [decodeBytes_encodeBytes, decode_encode h]⟩

/-- Settles O6: every word is packed from its own fields, and the decoder keeps all of them. -/
theorem encodeOfDecodeIsTheWord : Obligations.EncodeOfDecodeIsTheWord := decode_standsFor

/-- Settles O1: each word is a literal, on which the decoder computes. -/
theorem wordsWrittenOutDecode : Obligations.WordsWrittenOutDecode := by
  unfold Obligations.WordsWrittenOutDecode
  decide

/-- Settles O2: 00E0 and 00EE are the encodings of their instructions, so no other word decodes to them,
and every other word of group 0 falls through to the no-op. -/
theorem groupZeroDecodesOnTheWholeWord : Obligations.GroupZeroDecodesOnTheWholeWord := by
  intro w
  have word_of {i : Instr} (h : decode w = i) : w = encode i := by
    rw [← h, (encodeOfDecodeIsTheWord w).2]
  refine ⟨⟨word_of, fun h => h ▸ rfl⟩, ⟨word_of, fun h => h ▸ rfl⟩, fun hw not_cls not_ret => ?_⟩
  have top : (topNibble w).toNat = 0x0 := by rw [topNibble_toNat]; omega
  have hd : decode w = .sys (fieldNNN w) := by
    rw [decode_group0 top, decodeGroup0, if_neg not_cls, if_neg not_ret]
  exact ⟨hd, hd ▸ fun _ => rfl⟩

/-- Settles O3: each field as a number, and one equation of the decoder per top nibble. -/
theorem topNibbleSelectsTheClass : Obligations.TopNibbleSelectsTheClass := by
  intro w
  have top := topNibble_toNat w
  exact ⟨fieldX_val w, fieldY_val w, fieldN_toNat w, fieldNN_toNat w, fieldNNN_toNat w, top,
    fun h => decode_jp (top.trans h), fun h => decode_call (top.trans h),
    fun h => decode_seByte (top.trans h), fun h => decode_sneByte (top.trans h),
    fun h => decode_ldByte (top.trans h), fun h => decode_addByte (top.trans h),
    fun h => decode_ldI (top.trans h), fun h => decode_jpV0 (top.trans h),
    fun h => decode_rnd (top.trans h), fun h => decode_drw (top.trans h)⟩

/-! ## A word of group 8, E or F with a given sub-code (R98 to R100) -/

section
variable {w : Word} {c : Nat}

theorem decode_group8_at (h : w.toNat / 4096 = 0x8) (hc : w.toNat % 16 = c) :
    decode w = decodeGroup8 (fieldX w) (fieldY w) (BitVec.ofNat 4 c) := by
  rw [decode_group8 ((topNibble_toNat w).trans h), eq_ofNat ((fieldN_toNat w).trans hc)]

theorem decode_groupE_at (h : w.toNat / 4096 = 0xE) (hc : w.toNat % 256 = c) :
    decode w = decodeGroupE (fieldX w) (BitVec.ofNat 8 c) := by
  rw [decode_groupE ((topNibble_toNat w).trans h), eq_ofNat ((fieldNN_toNat w).trans hc)]

theorem decode_groupF_at (h : w.toNat / 4096 = 0xF) (hc : w.toNat % 256 = c) :
    decode w = decodeGroupF (fieldX w) (BitVec.ofNat 8 c) := by
  rw [decode_groupF ((topNibble_toNat w).trans h), eq_ofNat ((fieldNN_toNat w).trans hc)]

end

/-- Settles O4: a sub-code that names a class is a literal of its group's decoder; one that names none is
in no row of the group but the no-op's. -/
theorem subCodesSelectTheClassOrTheNoOp : Obligations.SubCodesSelectTheClassOrTheNoOp := by
  intro w
  have top := topNibble_toNat w
  refine ⟨fun h => ?group8, fun h => ?groupE, fun h => ?groupF⟩
  case group8 =>
    refine ⟨decode_group8_at h, decode_group8_at h, decode_group8_at h, decode_group8_at h,
      decode_group8_at h, decode_group8_at h, decode_group8_at h, decode_group8_at h,
      decode_group8_at h, fun hc => ?_⟩
    have hn : fieldN w ∉ namedGroup8 := by
      simp only [List.mem_cons, List.not_mem_nil, or_false] at hc
      simp only [namedGroup8, List.mem_cons, List.not_mem_nil, or_false, ← BitVec.toNat_inj,
        fieldN_toNat, BitVec.toNat_ofNat]
      omega
    have hd := (decode_group8 (top.trans h)).trans (decodeGroup8_noop hn _ _)
    exact ⟨hd, hd ▸ fun _ => rfl⟩
  case groupE =>
    refine ⟨decode_groupE_at h, decode_groupE_at h, fun h1 h2 => ?_⟩
    have hn : fieldNN w ∉ namedGroupE := by
      simp [namedGroupE, ← BitVec.toNat_inj, fieldNN_toNat, h1, h2]
    have hd := (decode_groupE (top.trans h)).trans (decodeGroupE_noop hn _)
    exact ⟨hd, hd ▸ fun _ => rfl⟩
  case groupF =>
    refine ⟨decode_groupF_at h, decode_groupF_at h, decode_groupF_at h, decode_groupF_at h,
      decode_groupF_at h, decode_groupF_at h, decode_groupF_at h, decode_groupF_at h,
      decode_groupF_at h, fun hc => ?_⟩
    have hn : fieldNN w ∉ namedGroupF := by
      simpa [namedGroupF, ← BitVec.toNat_inj, fieldNN_toNat] using hc
    have hd := (decode_groupF (top.trans h)).trans (decodeGroupF_noop hn _)
    exact ⟨hd, hd ▸ fun _ => rfl⟩

end Sys2Proof
end

section
/-! PROOFS. The decoder against the opcode map (spec/30_encoding.md R103): only the rows of a word's own
group can fit it, and these look at the top nibble and the sub-code alone, so the row that a word fits is
found on the word with its operands 0. -/

namespace Sys2Proof

/-! ## What a mask keeps of a word (R91, R103) -/

section
variable (w m : Word)

theorem fieldX_and : (fieldX (w &&& m)).val = (fieldX w).val &&& (fieldX m).val := by
  simp only [fieldX, BitVec.extractLsb'_and, BitVec.toNat_and]

theorem fieldY_and : (fieldY (w &&& m)).val = (fieldY w).val &&& (fieldY m).val := by
  simp only [fieldY, BitVec.extractLsb'_and, BitVec.toNat_and]

theorem fieldNNN_and : fieldNNN (w &&& m) = fieldNNN w &&& fieldNNN m := BitVec.extractLsb'_and

end

section
variable {w m : Word} {t : Nat}

theorem topNibble_and (hm : topNibble m = 0xF#4) (h : (topNibble w).toNat = t) :
    (topNibble (w &&& m)).toNat = t :=
  (congrArg _ (topNibble_of_mask rfl hm).symm).trans h

/-- A mask without the bits of `X` clears `X`. -/
theorem fieldX_and_zero (hm : fieldX m = 0) : fieldX (w &&& m) = 0 :=
  Fin.ext (by rw [fieldX_and, hm]; exact Nat.and_zero _)

/-- A mask without the bits of `Y` clears `Y`. -/
theorem fieldY_and_zero (hm : fieldY m = 0) : fieldY (w &&& m) = 0 :=
  Fin.ext (by rw [fieldY_and, hm]; exact Nat.and_zero _)

/-- The mask of a row that is selected by the top nibble alone. -/
theorem and_maskT (h : (topNibble w).toNat = t) : w &&& 0xF000#16 = packNNN t 0#12 := by
  rw [← packNNN_fields (topNibble_and rfl h), fieldNNN_and]
  exact congrArg _ BitVec.and_zero

/-- The mask of a row of group 8, which has the sub-code N. -/
theorem and_maskN (h : (topNibble w).toNat = t) : w &&& 0xF00F#16 = packXYN t 0 0 (fieldN w) := by
  rw [← packXYN_fields (topNibble_and rfl h), fieldX_and_zero rfl, fieldY_and_zero rfl,
    fieldN_of_mask (w := w) (m := 0xF00F#16) rfl rfl]

/-- The mask of a row of groups E and F, which have the sub-code NN. -/
theorem and_maskNN (h : (topNibble w).toNat = t) : w &&& 0xF0FF#16 = packXNN t 0 (fieldNN w) := by
  rw [← packXNN_fields (topNibble_and rfl h), fieldX_and_zero rfl,
    fieldNN_of_mask (w := w) (m := 0xF0FF#16) rfl rfl]

end

/-! ## The rows that can fit a word (R103) -/

/-- The top nibble of the words that fit a row: that of its match values. -/
def OpcodeRow.group (row : OpcodeRow) : Nibble := topNibble (row.values.headD 0)

/-- The rows of the opcode map for the words with the top nibble `g`, in the map's order. -/
def rowsOfGroup (g : Nibble) : List OpcodeRow := opcodeMap.filter (·.group = g)

/-- The mnemonic of the first of the rows that a word fits. -/
def firstMnemonic (rows : List OpcodeRow) (w : Word) : Option String :=
  (rows.find? (rowCovers · w)).map (·.mnemonic)

/-- Every mask keeps the top nibble, and the match values of a row have one top nibble. -/
theorem opcodeMap_row_group : ∀ row ∈ opcodeMap, topNibble row.mask = 0xF#4 ∧
    row.values.all (topNibble · = row.group) = true := by decide

section
variable {w m : Word} {row : OpcodeRow} {t : Nat}

/-- A row that fits a word is a row of the word's group. -/
theorem rowCovers_group (hr : row ∈ opcodeMap) (h : rowCovers row w = true) :
    row.group = topNibble w := by
  obtain ⟨hm, hv⟩ := opcodeMap_row_group row hr
  have hw : w &&& row.mask ∈ row.values := by
    simp only [rowCovers, Bool.and_eq_true, List.contains_iff_mem] at h
    exact h.1
  rw [← of_decide_eq_true (List.all_eq_true.1 hv _ hw), ← topNibble_of_mask rfl hm]

/-- The rows of the other groups do not fit a word. -/
theorem firstMnemonic_opcodeMap (w : Word) :
    firstMnemonic opcodeMap w = firstMnemonic (rowsOfGroup (topNibble w)) w := by
  rw [firstMnemonic, firstMnemonic, rowsOfGroup, List.find?_filter]
  refine congrArg _ (List.find?_congr fun row hr => ?_)
  cases h : rowCovers row w
  · simp
  · simp [rowCovers_group hr h]

/-- Whether rows have no exceptions and look at the bits of `m` alone. -/
def lookAt (rows : List OpcodeRow) (m : Word) : Bool :=
  rows.all fun row => m &&& row.mask = row.mask && row.except.isEmpty

/-- Of a word only the bits that the rows of its group look at matter. -/
theorem firstMnemonic_masked (h : (topNibble w).toNat = t)
    (hl : lookAt (rowsOfGroup (BitVec.ofNat 4 t)) m = true) :
    firstMnemonic opcodeMap w = firstMnemonic (rowsOfGroup (BitVec.ofNat 4 t)) (w &&& m) := by
  rw [firstMnemonic_opcodeMap, eq_ofNat h, firstMnemonic, firstMnemonic]
  refine congrArg _ (List.find?_congr fun row hr => ?_)
  have hrow := List.all_eq_true.1 hl row hr
  simp only [Bool.and_eq_true, decide_eq_true_eq, List.isEmpty_iff] at hrow
  obtain ⟨hm, he⟩ := hrow
  simp only [rowCovers, he, BitVec.and_assoc, hm]
  rfl

end

/-! ## The first row, group by group -/

section
variable {w : Word} {t : Nat}

/-- In a group of one class the top nibble alone finds the row. -/
theorem firstMnemonic_class (h : (topNibble w).toNat = t)
    (hl : lookAt (rowsOfGroup (BitVec.ofNat 4 t)) 0xF000#16 = true) :
    firstMnemonic opcodeMap w = firstMnemonic (rowsOfGroup (BitVec.ofNat 4 t)) (packNNN t 0#12) := by
  rw [firstMnemonic_masked h hl, and_maskT h]

/-- In group 0 the whole word finds the row. -/
theorem firstMnemonic_group0 (h : (topNibble w).toNat = 0x0) :
    firstMnemonic opcodeMap w = some (decodeGroup0 w).mnemonic := by
  by_cases cls : w = 0x00E0#16
  · subst cls; rfl
  by_cases ret : w = 0x00EE#16
  · subst ret; rfl
  have whole : w &&& 0xFFFF#16 = w := BitVec.and_allOnes
  have rows : rowsOfGroup 0#4 = opcodeMapGroups0to7.take 3 := rfl
  rw [firstMnemonic_opcodeMap, eq_ofNat h, rows, decodeGroup0, if_neg cls, if_neg ret]
  simp [firstMnemonic, opcodeMapGroups0to7, rowCovers, whole, and_maskT h, cls, ret, packNNN,
    Instr.mnemonic]

theorem firstMnemonic_group8 (h : (topNibble w).toNat = 0x8) (x y : RegIdx) :
    firstMnemonic opcodeMap w = some (decodeGroup8 x y (fieldN w)).mnemonic := by
  rw [firstMnemonic_masked (m := 0xF00F#16) h (by decide), and_maskN h]
  generalize fieldN w = n
  by_cases hn : n ∈ namedGroup8
  · fin_cases hn <;> rfl
  · rw [decodeGroup8_noop hn]
    change _ = some "no-op__group_8"
    revert n
    decide

theorem firstMnemonic_groupE (h : (topNibble w).toNat = 0xE) (x : RegIdx) :
    firstMnemonic opcodeMap w = some (decodeGroupE x (fieldNN w)).mnemonic := by
  rw [firstMnemonic_masked (m := 0xF0FF#16) h (by decide), and_maskNN h]
  generalize fieldNN w = nn
  by_cases hn : nn ∈ namedGroupE
  · fin_cases hn <;> rfl
  · rw [decodeGroupE_noop hn]
    change _ = some "no-op__group_E"
    revert nn
    decide

theorem firstMnemonic_groupF (h : (topNibble w).toNat = 0xF) (x : RegIdx) :
    firstMnemonic opcodeMap w = some (decodeGroupF x (fieldNN w)).mnemonic := by
  rw [firstMnemonic_masked (m := 0xF0FF#16) h (by decide), and_maskNN h]
  generalize fieldNN w = nn
  by_cases hn : nn ∈ namedGroupF
  · fin_cases hn <;> rfl
  · rw [decodeGroupF_noop hn]
    change _ = some "no-op__group_F"
    revert nn
    decide

end

/-- Settles O7: the decoder and the first row that fits look at the same bits of a word, group by group. -/
theorem decoderFollowsTheOpcodeMap : Obligations.DecoderFollowsTheOpcodeMap := by
  intro w
  change firstMnemonic opcodeMap w = _
  have bound : (topNibble w).toNat < 16 := (topNibble w).isLt
  generalize h : (topNibble w).toNat = t at bound
  interval_cases t
  · exact decode_group0 h ▸ firstMnemonic_group0 h
  · exact decode_jp h ▸ firstMnemonic_class h (by decide)
  · exact decode_call h ▸ firstMnemonic_class h (by decide)
  · exact decode_seByte h ▸ firstMnemonic_class h (by decide)
  · exact decode_sneByte h ▸ firstMnemonic_class h (by decide)
  · exact decode_seReg h ▸ firstMnemonic_class h (by decide)
  · exact decode_ldByte h ▸ firstMnemonic_class h (by decide)
  · exact decode_addByte h ▸ firstMnemonic_class h (by decide)
  · exact decode_group8 h ▸ firstMnemonic_group8 h _ _
  · exact decode_sneReg h ▸ firstMnemonic_class h (by decide)
  · exact decode_ldI h ▸ firstMnemonic_class h (by decide)
  · exact decode_jpV0 h ▸ firstMnemonic_class h (by decide)
  · exact decode_rnd h ▸ firstMnemonic_class h (by decide)
  · exact decode_drw h ▸ firstMnemonic_class h (by decide)
  · exact decode_groupE h ▸ firstMnemonic_groupE h _
  · exact decode_groupF h ▸ firstMnemonic_groupF h _

end Sys2Proof
end

section
/-! PROOFS. Every instruction answers a next state (spec/30_encoding.md R94, spec/40_cycle.md R125, R131):
a fault that it raises is one too. -/

namespace Sys2Proof.Machine

section
variable (i : Instr) (s : State)

/-- No meaning refuses and none stops: what has a check answers on both sides of it. -/
theorem exec_next : ∃ t, exec i s = .next t := by
  cases i
  case ret | call nnn | seReg x y n | sneReg x y n | skp x | sknp x | ldB x | storeRegs x
      | loadRegs x =>
    simp only [exec, execRet, execCall, execSeReg, execSneReg, execSkp, execSknp, execLdB,
      execStoreRegs, execLoadRegs]
    split <;> exact ⟨_, rfl⟩
  case ldVxK x =>
    simp only [exec, execLdVxK]
    split
    · exact ⟨_, rfl⟩
    · split <;> exact ⟨_, rfl⟩
  case drw x y n =>
    simp only [exec, execDrw]
    split
    · exact ⟨_, rfl⟩
    · split <;> exact ⟨_, rfl⟩
  all_goals exact ⟨_, rfl⟩

end

/-- Settles O12: a running core takes the fault entry of a failed fetch, or ends the cycle of the decoded
instruction, which answers a next state. -/
theorem everyInstructionAnswersNext : Obligations.EveryInstructionAnswersNext := by
  refine ⟨exec_next, fun s hr => ?_⟩
  obtain ⟨k, info, halted, -⟩ | ⟨-, -, fetch_fails⟩ | ⟨-, executes⟩ := runCycle_cases exec s
  · rw [hr] at halted
    cases halted
  · exact ⟨_, fetch_fails⟩
  · obtain ⟨t, ht⟩ := exec_next (decode s.word) s.advance
    rw [ht, endCycle_next] at executes
    exact ⟨_, executes⟩

end Sys2Proof.Machine
end

section
/-! PROOFS. The register skips 5XYN and 9XYN under either value of `SKIP_NIBBLE` (spec/30_encoding.md R97,
spec/41_control_flow.md R146, R147). -/

namespace Sys2Proof.Machine

section
variable {s : State} {n : Nibble}

theorem nibbleSelectsSkip_iff :
    s.nibbleSelectsSkip n = true ↔ s.params.skipNibble = .ignore ∨ n = 0#4 := by
  unfold State.nibbleSelectsSkip
  split <;> simp_all

theorem nibbleSelectsSkip_false (h : s.params.skipNibble = .noOp) (hn : n ≠ 0#4) :
    ¬ s.nibbleSelectsSkip n = true := by
  simp [nibbleSelectsSkip_iff, h, hn]

/-- A skip in this hardware writes `PC` alone, two further or as it stands (R140). -/
theorem skipIf_nea (hs : s.Nea) (c : Prop) [Decidable c] :
    (s.skipIf c).pc = (if c then (s.pc + 2) % 65536 else s.pc) ∧
      Frame { pc := true } s (s.skipIf c) := by
  rw [skipIf_eq]
  refine ⟨?_, frame_withPc s rfl _⟩
  simp [State.pcPlusTwo, hs.sizes]

theorem exec_seReg_skip (h : s.params.skipNibble = .ignore ∨ n = 0#4) (x y : RegIdx) :
    exec (.seReg x y n) s = .next (s.skipIf (s.reg x = s.reg y)) :=
  if_pos (nibbleSelectsSkip_iff.2 h)

theorem exec_sneReg_skip (h : s.params.skipNibble = .ignore ∨ n = 0#4) (x y : RegIdx) :
    exec (.sneReg x y n) s = .next (s.skipIf (s.reg x ≠ s.reg y)) :=
  if_pos (nibbleSelectsSkip_iff.2 h)

end

/-- Settles O39: the nibble decides whether the skip is executed, and a skip writes `PC` alone. -/
theorem registerSkipsUnderEitherNibbleRule : Obligations.RegisterSkipsUnderEitherNibbleRule := by
  refine ⟨fun w => ⟨fun h => ?_, fun h => ?_⟩, fun s x y n hs h => ⟨?_, ?_⟩, fun s x y n h hn => ?_,
    fun s x => ⟨?_, ?_⟩⟩
  · exact decode_seReg (congrArg BitVec.toNat (topNibble_of_mask h rfl))
  · exact decode_sneReg (congrArg BitVec.toNat (topNibble_of_mask h rfl))
  · exact ⟨_, exec_seReg_skip h x y, skipIf_nea hs _⟩
  · exact ⟨_, exec_sneReg_skip h x y, skipIf_nea hs _⟩
  · have no_skip := nibbleSelectsSkip_false h hn
    exact ⟨if_neg no_skip, if_neg no_skip⟩
  · rw [exec_seReg_skip (.inr rfl), decide_eq_true rfl]
    rfl
  · rw [exec_sneReg_skip (.inr rfl), decide_eq_false (not_not.2 rfl)]
    rfl

end Sys2Proof.Machine
end

section
/-! PROOFS. The cycle (spec/40_cycle.md): a halted core, a failed fetch, and the decoded instruction with
the advance before it and the tick after it; and the no-ops (R130). -/

namespace Sys2Proof.Machine

/-! ## One equation for each way a cycle goes (R121, R122, R132) -/

section
variable {s t : State} {i : Instr}

theorem step_halted {k : FaultKind} {info : Option Nat} (h : s.status = .halted k info) :
    step s = .fault (.halted k info) := by
  rw [step, runCycle, h]

theorem step_fetch_fails (hr : s.status = .running) (h : s.params.sizes.memSize ≤ s.pc + 1) :
    step s =
      .next (s.faultEntry .addressOutOfRange (some (max s.pc s.params.sizes.memSize))) := by
  rw [step, runCycle, hr, fetch_error h]
  rfl

theorem step_ready (hr : s.ready) :
    step s = endCycle (decode s.word) s.advance (exec (decode s.word) s.advance) := by
  obtain ⟨running, inside⟩ := hr
  rw [step, runCycle, running, fetch_ok inside]

/-- The advance of R123 as the statements write it. -/
theorem advance_eq (s : State) : s.advance = { s with pc := s.pcPlusTwo } := rfl

theorem step_of_exec (hr : s.ready) (h : exec (decode s.word) s.advance = .next t) :
    step s =
      .next (if t.status = .running ∧ noKeyReturn (decode s.word) s.advance = false then t.tick
        else t) := by
  rw [step_ready hr, h, endCycle_next]

/-! ## The outcome without a tick (R125, R128) -/

theorem noKeyReturn_iff : noKeyReturn i s = true ↔
    (∃ x, i = .ldVxK x) ∧ ∀ k < s.params.sizes.nkeys, s.keyDown k = false := by
  by_cases hi : ∃ x, i = .ldVxK x
  · obtain ⟨x, rfl⟩ := hi
    exact highestKey_isNone.trans (and_iff_right ⟨x, rfl⟩).symm
  · refine iff_of_false (fun h => ?_) fun h => hi h.1
    cases i
    case ldVxK x => exact hi ⟨x, rfl⟩
    all_goals cases h

/-- The advance moves no key. -/
theorem noKeyReturn_advance (i : Instr) (s : State) :
    noKeyReturn i s.advance = noKeyReturn i s :=
  Bool.eq_iff_iff.2 (noKeyReturn_iff.trans noKeyReturn_iff.symm)

theorem tickTimer_eq (n : Nat) : tickTimer n = n - 1 := by
  cases n <;> rfl

/-! ## The no-ops (R130) -/

theorem exec_seReg_noOp {n : Nibble} (h : s.params.skipNibble = .noOp) (hn : n ≠ 0#4)
    (x y : RegIdx) : exec (.seReg x y n) s = .next s :=
  if_neg (nibbleSelectsSkip_false h hn)

theorem exec_sneReg_noOp {n : Nibble} (h : s.params.skipNibble = .noOp) (hn : n ≠ 0#4)
    (x y : RegIdx) : exec (.sneReg x y n) s = .next s :=
  if_neg (nibbleSelectsSkip_false h hn)

/-- A cycle whose execute step writes nothing advances `PC` and ticks the timers. -/
theorem step_of_exec_self (hr : s.ready) (hd : decode s.word = i)
    (h : exec i s.advance = .next s.advance) (hk : noKeyReturn i s.advance = false) :
    step s = .next s.advance.tick := by
  subst hd
  rw [step_of_exec hr h, if_pos ⟨hr.1, hk⟩]

end

/-- Settles O10: both bytes of the word exist up to 0xFFE; above it the fetch fails at `PC` or at 0x1000,
whichever is higher. -/
theorem fetchReadsBigEndianOrFaults : Obligations.FetchReadsBigEndianOrFaults := by
  refine ⟨fun s hs hpc => ?reads, fun s hs hr hpc => ?faults⟩
  case reads =>
    have inside : s.pc + 1 < s.params.sizes.memSize := by
      rw [hs.sizes, nea_memSize]
      omega
    exact ⟨s.word, fetch_ok inside, wordOfBytes_toNat _ _⟩
  case faults =>
    have outside : s.params.sizes.memSize ≤ s.pc + 1 := by
      rw [hs.sizes, nea_memSize]
      omega
    have first : max s.pc s.params.sizes.memSize = if 0xFFF < s.pc then s.pc else s.pc + 1 := by
      rw [hs.sizes, nea_memSize]
      split <;> omega
    rw [← first]
    exact ⟨_, step_fetch_fails hr outside, rfl, frame_faultEntry ..⟩

/-- Settles O11: the step ends the cycle of the execute step's next state, and `NoKeyReturn` is FX0A with
no key pressed, before the advance as after it. -/
theorem timersTickExactlyOnCompletion : Obligations.TimersTickExactlyOnCompletion := by
  refine ⟨fun s t hr h => ?_, fun s halted => ?_⟩
  · have hstep := step_of_exec hr h
    intro noKey
    have key_or_other : noKeyReturn (decode s.word) s.advance = false ↔ ¬ noKey :=
      Bool.eq_false_iff.trans (not_congr noKeyReturn_iff)
    refine ⟨fun no_tick => ?_, fun running completes => ?_⟩
    · rwa [if_neg fun h => no_tick.elim (· h.1) (key_or_other.1 h.2)] at hstep
    · rw [if_pos ⟨running, key_or_other.2 completes⟩] at hstep
      exact ⟨_, hstep, tickTimer_eq _, tickTimer_eq _, frame_tick t⟩
  · cases hs : s.status with
    | running => exact absurd hs halted
    | halted k info => exact ⟨_, step_halted hs⟩

/-- Settles O8: the decoder gives well-formed instructions alone, and the end of a cycle splits the
outcomes of the execute step as the statement does. -/
theorem stepRunsTheDecodedInstruction : Obligations.StepRunsTheDecodedInstruction := by
  rintro s _ hr rfl
  refine ⟨(decode_standsFor s.word).1, ?_⟩
  rw [step_ready hr, advance_eq]
  cases exec (decode s.word) { s with pc := s.pcPlusTwo } with
  | next t => rw [endCycle_next, ← advance_eq, noKeyReturn_advance]
  | fault => rfl
  | refused => rfl

/-- Settles O9: the halted check comes first in a cycle. -/
theorem haltedCoreReturnsTheRecordedFault : Obligations.HaltedCoreReturnsTheRecordedFault := by
  intro s k info h
  have hstep := step_halted h
  exact ⟨hstep, by rw [State.serve, hstep]⟩

/-- Settles O32: the four no-ops answer the state itself, the register skips do so where their nibble
selects none, and a cycle adds the advance and the tick. -/
theorem noOpsChangeNothing : Obligations.NoOpsChangeNothing := by
  refine ⟨fun s nnn x y n nn => ?execute, fun s hr h => ?cycle⟩
  case execute =>
    exact ⟨rfl, rfl, rfl, rfl,
      fun hp hn => ⟨exec_seReg_noOp hp hn x y, exec_sneReg_noOp hp hn x y⟩⟩
  case cycle =>
    obtain ⟨nnn, x, y, n, nn, hd | hd | hd | hd | ⟨hp, hn, hd | hd⟩⟩ := h
    · exact step_of_exec_self hr hd rfl rfl
    · exact step_of_exec_self hr hd rfl rfl
    · exact step_of_exec_self hr hd rfl rfl
    · exact step_of_exec_self hr hd rfl rfl
    · exact step_of_exec_self hr hd (exec_seReg_noOp (s := s.advance) hp hn x y) rfl
    · exact step_of_exec_self hr hd (exec_sneReg_noOp (s := s.advance) hp hn x y) rfl

end Sys2Proof.Machine
end

section
/-! PROOFS. Control flow (spec/41_control_flow.md): 00EE and 2NNN on the call stack (R141, R143), the jumps
1NNN and BNNN (R142, R148), and the immediate skips 3XNN and 4XNN (R144, R145). -/

namespace Sys2Proof.Machine

/-! ## The decoder's group (R96) -/

/-- The mask of R103 for a group keeps the top nibble. -/
theorem topNibble_of_groupMask {w v : Word} (h : w &&& 0xF000#16 = v) :
    (topNibble w).toNat = (topNibble v).toNat :=
  congrArg BitVec.toNat (topNibble_of_mask h rfl)

section
variable {s : State} {a : Nat}

/-! ## `PC` in 16 bits (spec/10_state.md R26, R28) -/

/-- A target of 16 bits reaches `PC` as it is. -/
theorem setPc_pc_nea (hz : s.params.sizes = Config.nea) (h : a < 65536) : (s.setPc a).pc = a := by
  rw [setPc_pc, hz, nea_pcWidth]
  exact Nat.mod_eq_of_lt h

/-- A fetch above 0xFFE fails at `PC`, or at 0x1000 where `PC` is still inside memory (R122). -/
theorem step_above_last_word (hz : s.params.sizes = Config.nea) (hr : s.status = .running)
    (hpc : s.pc = a) (h : 0xFFE < a) : ∃ u, step s = .next u ∧
      u.status = .halted .addressOutOfRange (some (max a 0x1000)) := by
  subst hpc
  have outside : s.params.sizes.memSize ≤ s.pc + 1 := by
    rw [hz, nea_memSize]
    omega
  refine ⟨_, step_fetch_fails hr outside, ?_⟩
  rw [faultEntry_status, hz, nea_memSize]

/-! ## The call stack (spec/10_state.md R30, R33) -/

theorem stackEntry_lt_nea (hs : s.Nea) (j : Nat) : s.stackEntry j < 65536 := by
  obtain ⟨-, -, -, entries, -⟩ := hs.numbers
  exact Nat.lt_succ_of_le (stackEntry_le (fun a ha => Nat.le_of_lt_succ (entries a ha)) j)

theorem stackEntry_set {k : Nat} (h : k < s.stack.length) (n j : Nat) :
    State.stackEntry { s with stack := s.stack.set k a, sp := n } j =
      if j = k then a else s.stackEntry j := by
  by_cases hj : j = k
  · subst hj
    simp [State.stackEntry, h]
  · simp [State.stackEntry, hj, List.getElem?_set_ne (Ne.symm hj)]

/-- A jump with another stack writes `PC` and the stack alone, as 00EE and 2NNN do. -/
theorem frame_setPc_withStack (s : State) (l : List Nat) (n a : Nat) :
    Frame { pc := true, stack := true } s (State.setPc { s with stack := l, sp := n } a) :=
  { frame_refl _ s with pc := nofun, sp := nofun, stack := nofun }

end

/-- Settles O33: a pop leaves the array as it is, and the popped entry, of 16 bits, becomes `PC`. -/
theorem returnPopsThePcOrUnderflows : Obligations.ReturnPopsThePcOrUnderflows := by
  refine ⟨fun w => ?word, fun s hs live => ?pops, fun s h0 => ?empty⟩
  case word =>
    obtain ⟨-, ret_iff, -⟩ := groupZeroDecodesOnTheWholeWord w
    exact ret_iff
  case pops =>
    exact ⟨_, exec_ret_some live, setPc_pc_nea (s := { s with sp := s.sp - 1 }) hs.sizes
      (stackEntry_lt_nea hs _), rfl, rfl, frame_setPc_withStack s s.stack _ _⟩
  case empty => exact ⟨_, exec_ret_empty h0, rfl, frame_faultEntry ..⟩

/-- Settles O34: a push sets the entry at the old top alone, and `NNN` has 12 bits. -/
theorem callPushesThePcOrOverflows : Obligations.CallPushesThePcOrOverflows := by
  refine ⟨fun w h => decode_call (topNibble_of_groupMask h), fun s nnn hs room length => ?pushes,
    fun s nnn full => ?full⟩
  case pushes =>
    have target : nnn.toNat < 65536 := by omega
    have entry := stackEntry_set (s := s) (a := s.pc) (length ▸ room) (s.sp + 1)
    exact ⟨_, exec_call_some nnn room, setPc_pc_nea (s := { s with stack := _, sp := _ }) hs.sizes
      target, rfl, (entry s.sp).trans (if_pos rfl), fun j hj => (entry j).trans (if_neg hj),
      frame_setPc_withStack ..⟩
  case full => exact ⟨_, exec_call_full nnn full.ge, rfl, frame_faultEntry ..⟩

/-- Settles O36: the entry that the call pushed is the one below the top that it left. -/
theorem callThenReturnComesBack : Obligations.CallThenReturnComesBack := by
  intro s t u nnn hs room length hcall hstack hsp hparams
  obtain ⟨-, pushes, -⟩ := callPushesThePcOrOverflows
  obtain ⟨t', hcall', -, sp_after, pushed, -, frame⟩ := pushes s nnn hs room length
  cases hcall.symm.trans hcall'
  have live : u.sp = s.sp + 1 := hsp.trans sp_after
  have popped : u.stackEntry (u.sp - 1) = s.pc := by
    rw [live, Nat.add_sub_cancel, stackEntry_congr hstack, pushed]
  have sizes : u.params.sizes = Config.nea := by rw [hparams, frame.params, hs.sizes]
  obtain ⟨-, -, pc_width, -⟩ := hs.numbers
  refine ⟨_, exec_ret_some (by omega), ?_, ?_⟩
  · rw [popped]
    exact setPc_pc_nea (s := { u with sp := u.sp - 1 }) sizes pc_width
  · rw [setPc_sp, live, Nat.add_sub_cancel]

/-- Settles O37: 1NNN reaches 0xFFF and BNNN 0x0FFF + 0xFF = 0x10FE, both within 16 bits, so `PC` is
the target unreduced and a target above 0xFFE fails at the next fetch. -/
theorem jumpsSetThePc : Obligations.JumpsSetThePc := by
  refine ⟨fun w => ⟨fun h => decode_jp (topNibble_of_groupMask h),
    fun h => decode_jpV0 (topNibble_of_groupMask h)⟩, fun s nnn hs => ?jp, fun s nnn hs => ?jpV0⟩
  case jp =>
    have target : (s.setPc nnn.toNat).pc = nnn.toNat := setPc_pc_nea hs.sizes (by omega)
    refine ⟨_, rfl, target, frame_setPc s _, fun hr last => ?_⟩
    have at_last : (s.setPc nnn.toNat).pc = 0xFFF := target.trans (congrArg BitVec.toNat last)
    exact step_above_last_word (s := s.setPc nnn.toNat) hs.sizes hr at_last (by decide)
  case jpV0 =>
    have inRange : nnn.toNat + (s.reg 0).toNat ≤ 0x10FE := by omega
    have target := setPc_pc_nea (s := s) hs.sizes (Nat.lt_of_le_of_lt inRange (by decide))
    exact ⟨_, rfl, target, target.trans_le inRange, frame_setPc s _,
      fun hr above => step_above_last_word (s := s.setPc _) hs.sizes hr rfl above⟩

/-- Settles O38: both classes are a skip with a condition on `Vx`, and 0x1002 is above every word. -/
theorem immediateSkips : Obligations.ImmediateSkips := by
  refine ⟨fun w => ⟨fun h => decode_seByte (topNibble_of_groupMask h),
    fun h => decode_sneByte (topNibble_of_groupMask h)⟩, fun s x nn hs => ⟨?_, ?_⟩,
    fun s hs hr hpc => step_above_last_word hs.sizes hr hpc (by decide)⟩
  · exact ⟨_, rfl, skipIf_nea hs (s.reg x = nn)⟩
  · exact ⟨_, rfl, skipIf_nea hs (s.reg x ≠ nn)⟩

end Sys2Proof.Machine
end

section
/-! PROOFS. Loads and ALU (spec/42_alu.md): the classes that write one register (R172 to R177, R190), and
the flag-setting classes under either value of `VF_ORDER` (R171, R178 to R182). -/

namespace Sys2Proof.Machine

/-! ## The decoder's group 8 (R98) -/

/-- The mask of R103 for group 8 keeps the top nibble and the sub-code. -/
theorem decode_of_group8Mask {w v : Word} (h : w &&& 0xF00F#16 = v)
    (hv : (topNibble v).toNat = 0x8) :
    decode w = decodeGroup8 (fieldX w) (fieldY w) (fieldN v) := by
  have top : topNibble w = topNibble v := topNibble_of_mask h rfl
  rw [decode_group8 ((congrArg BitVec.toNat top).trans hv), fieldN_of_mask h rfl]

/-! ## The values, as numbers (R170, R178 to R182) -/

section
variable (a b : Byte)

theorem flagByte_toNat (c : Bool) : (flagByte c).toNat = if c then 1 else 0 := by
  cases c <;> rfl

theorem carryFlag_toNat :
    (carryFlag a b).toNat = if a.toNat + b.toNat > 255 then 1 else 0 := by
  simp [carryFlag, flagByte_toNat]

/-- The difference of two bytes is the exact one mod 256. -/
theorem sub_toNat_int : ((a - b).toNat : Int) = ((a.toNat : Int) - b.toNat) % 256 := by
  rw [BitVec.toNat_sub]
  omega

/-- Not-borrow of `a - b` on numbers. -/
def notBorrow (a b : Int) : Int := if b > a then 0 else 1

theorem notBorrowFlag_toNat_int : ((notBorrowFlag a b).toNat : Int) = notBorrow a.toNat b.toNat := by
  by_cases h : a.toNat < b.toNat <;> simp [notBorrowFlag, flagByte_toNat, notBorrow, h]

theorem shiftRight_one_toNat : (a >>> 1).toNat = a.toNat / 2 := by
  rw [BitVec.toNat_ushiftRight, Nat.shiftRight_eq_div_pow, Nat.pow_one]

theorem shiftLeft_one_toNat : (a <<< 1).toNat = 2 * a.toNat % 256 := by
  rw [BitVec.toNat_shiftLeft, Nat.shiftLeft_eq, Nat.pow_one, Nat.mul_comm]

theorem shiftOutLow_toNat : (shiftOutLow a).toNat = a.toNat % 2 := by
  rw [shiftOutLow, BitVec.toNat_and]
  exact Nat.and_one_is_mod _

theorem shiftOutHigh_toNat : (shiftOutHigh a).toNat = a.toNat / 128 := by
  have bit : (shiftOutHigh a).toNat = a.toNat / 128 % 2 := by
    rw [shiftOutHigh, BitVec.toNat_and, BitVec.toNat_ushiftRight, Nat.shiftRight_eq_div_pow]
    exact Nat.and_one_is_mod _
  omega

end

section
variable {s : State} {x : RegIdx} {f r : State → Byte}

/-! ## One register written -/

theorem State.Nea.regCount (hs : s.Nea) : s.v.length = 16 := by
  obtain ⟨count, -⟩ := hs.numbers
  exact count

/-- With sixteen registers, each takes the value written to it. -/
theorem reg_setReg_self (hl : s.v.length = 16) (x : RegIdx) (b : Byte) : (s.setReg x b).reg x = b :=
  reg_setReg_same s (x.isLt.trans_eq hl.symm) b

theorem setReg_comm {y : RegIdx} (h : x ≠ y) (a b : Byte) :
    (s.setReg x a).setReg y b = (s.setReg y b).setReg x a := by
  simp only [State.setReg]
  rw [List.set_comm _ _ (Fin.val_ne_of_ne h)]

/-! ## What a flag-setting class leaves in `V[X]` and in VF (R171) -/

theorem writeWithFlag_vf (hl : s.v.length = 16)
    (h : ¬ (x = vf ∧ s.params.vfOrder = .sequential)) : (s.writeWithFlag x f r).reg vf = f s := by
  cases ho : s.params.vfOrder with
  | sequential =>
    have hx : x ≠ vf := fun hx => h ⟨hx, ho⟩
    rw [writeWithFlag_sequential ho, reg_setReg_ne _ hx, reg_setReg_self hl]
  | flagLast =>
    rw [writeWithFlag_flagLast ho, reg_setReg_self ((setReg_regCount ..).trans hl)]

theorem writeWithFlag_result_sequential (hl : s.v.length = 16)
    (ho : s.params.vfOrder = .sequential) :
    (s.writeWithFlag x f r).reg x = r (s.setReg vf (f s)) := by
  rw [writeWithFlag_sequential ho, reg_setReg_self ((setReg_regCount ..).trans hl)]

theorem writeWithFlag_result_flagLast (hl : s.v.length = 16) (ho : s.params.vfOrder = .flagLast)
    (hx : x ≠ vf) : (s.writeWithFlag x f r).reg x = r s := by
  rw [writeWithFlag_flagLast ho, reg_setReg_ne _ hx.symm, reg_setReg_self hl]

/-- A result that does not look at VF is the same in both orders. -/
theorem writeWithFlag_result (hl : s.v.length = 16)
    (h : ¬ (x = vf ∧ s.params.vfOrder = .flagLast)) (unread : r (s.setReg vf (f s)) = r s) :
    (s.writeWithFlag x f r).reg x = r s := by
  cases ho : s.params.vfOrder with
  | sequential => rw [writeWithFlag_result_sequential hl ho, unread]
  | flagLast => exact writeWithFlag_result_flagLast hl ho fun hx => h ⟨hx, ho⟩

/-- Flag and result of `V[X]` alone, as the two shifts have them, on numbers: with X = F under `Sequential`
the result is that of the flag. -/
theorem writeWithFlag_unary (hl : s.v.length = 16) (x : RegIdx) {f r : Byte → Byte} (F R : Nat → Nat)
    (hf : ∀ a, (f a).toNat = F a.toNat) (hr : ∀ a, (r a).toNat = R a.toNat) :
    let t := s.writeWithFlag x (fun u => f (u.reg x)) (fun u => r (u.reg x))
    let a := (s.reg x).toNat
    (x ≠ vf → (t.reg x).toNat = R a ∧ (t.reg vf).toNat = F a) ∧
    (x = vf → s.params.vfOrder = .sequential → (t.reg vf).toNat = R (F a)) ∧
    (x = vf → s.params.vfOrder = .flagLast → (t.reg vf).toNat = F a) := by
  refine ⟨fun hx => ⟨?result, ?flag⟩, ?sequential, fun _ ho => ?flagLast⟩
  case result =>
    rw [writeWithFlag_result hl (fun h => hx h.1) (by rw [reg_setReg_ne _ (Ne.symm hx)]), hr]
  case flag => rw [writeWithFlag_vf hl fun h => hx h.1, hf]
  case sequential =>
    rintro rfl ho
    rw [writeWithFlag_result_sequential hl ho, reg_setReg_self hl, hr, hf]
  case flagLast => rw [writeWithFlag_vf hl (by simp [ho]), hf]

end

/-! ## The order of the two writes (R171) -/

/-- `s` as a machine with `VF_ORDER = o`. -/
def State.withOrder (s : State) (o : Config.VfOrder) : State :=
  { s with params := { s.params with vfOrder := o } }

section
variable {s : State} {x : RegIdx} {f r : State → Byte}

/-- Away from VF, a result that does not look at VF makes `Sequential` the same as `FlagLast`. -/
theorem writeWithFlag_either_order (hx : x ≠ vf) (unread : r (s.setReg vf (f s)) = r s) :
    s.writeWithFlag x f r = (s.setReg x (r s)).setReg vf (f s) := by
  cases ho : s.params.vfOrder with
  | sequential => rw [writeWithFlag_sequential ho, unread, setReg_comm hx]
  | flagLast => exact writeWithFlag_flagLast ho x f r

theorem writeWithFlag_withOrder (hx : x ≠ vf) (o : Config.VfOrder)
    (hf : f (s.withOrder o) = f s) (hr : r (s.withOrder o) = r s)
    (unread : ∀ (u : State) (b : Byte), r (u.setReg vf b) = r u) :
    (s.withOrder o).writeWithFlag x f r = (s.writeWithFlag x f r).withOrder o := by
  rw [writeWithFlag_either_order hx (unread ..), writeWithFlag_either_order hx (unread ..), hf, hr]
  rfl

end

/-- Settles O31: neither operand is VF, so writing the flag first changes nothing that the result reads,
and the two writes go to different registers. -/
theorem flagOrdersAgreeAwayFromVf : Obligations.FlagOrdersAgreeAwayFromVf := by
  intro s t x y i o hx hy hi h
  have vx : ∀ (u : State) (b : Byte), (u.setReg vf b).reg x = u.reg x :=
    fun u b => reg_setReg_ne u hx.symm b
  have vy : ∀ (u : State) (b : Byte), (u.setReg vf b).reg y = u.reg y :=
    fun u b => reg_setReg_ne u hy.symm b
  simp only [List.mem_cons, List.not_mem_nil, or_false] at hi
  obtain rfl | rfl | rfl | rfl | rfl := hi <;> cases h <;>
    refine congrArg Host.Outcome.next (writeWithFlag_withOrder hx o rfl rfl fun u b => ?_)
  · rfl
  · simp only [vx, vy]
  · simp only [vx]
  · simp only [vx, vy]
  · simp only [vx]

/-- Settles O40: each of the three writes `V[X]` alone. -/
theorem loadsAndImmediateAddWriteVx : Obligations.LoadsAndImmediateAddWriteVx := by
  refine ⟨fun w => ⟨fun h => decode_ldByte (topNibble_of_groupMask h),
    fun h => decode_addByte (topNibble_of_groupMask h), fun h => decode_of_group8Mask h rfl⟩,
    fun s x y nn hs => ?_⟩
  have written := reg_setReg_self hs.regCount x
  refine ⟨⟨_, rfl, written _, frame_setReg ..⟩, ⟨_, rfl, ?sum, frame_setReg ..⟩,
    ⟨_, rfl, written _, frame_setReg ..⟩⟩
  case sum => rw [written, BitVec.toNat_add]

/-- Settles O41: each of the three writes `V[X]` alone, with a value that is bitwise by its definition. -/
theorem bitwiseOperationsKeepVf : Obligations.BitwiseOperationsKeepVf := by
  refine ⟨fun w => ⟨fun h => decode_of_group8Mask h rfl, fun h => decode_of_group8Mask h rfl,
    fun h => decode_of_group8Mask h rfl⟩, fun s x y hs => ?_⟩
  have written := reg_setReg_self hs.regCount x
  refine ⟨⟨_, rfl, frame_setReg .., ?or⟩, ⟨_, rfl, frame_setReg .., ?and⟩,
    ⟨_, rfl, frame_setReg .., ?xor⟩⟩ <;> rw [written]
  case or => exact ⟨fun hxy => hxy ▸ BitVec.or_self, fun _ => BitVec.getLsbD_or⟩
  case and => exact ⟨fun hxy => hxy ▸ BitVec.and_self, fun _ => BitVec.getLsbD_and⟩
  case xor => exact ⟨fun hxy => hxy ▸ BitVec.xor_self, fun _ => BitVec.getLsbD_xor⟩

/-- Settles O42: the sum is captured before VF is written, so only the last write to VF can hide the
sum, and only the last write to `V[X]` the carry. -/
theorem addWritesSumAndCarry : Obligations.AddWritesSumAndCarry := by
  refine ⟨fun w h => decode_of_group8Mask h rfl, fun s x y hs =>
    ⟨_, rfl, frame_writeWithFlag .., fun h => ?sum, fun h => ?carry⟩⟩
  case sum => rw [writeWithFlag_result hs.regCount h rfl, BitVec.toNat_add]
  case carry =>
    exact (congrArg BitVec.toNat (writeWithFlag_vf hs.regCount h)).trans (carryFlag_toNat ..)

/-! ## The two subtractions (R179, R181) -/

/-- `V[x] <- V[m] - V[n]` with not-borrow in VF: 8XY5 subtracts Y from X, and 8XY7 X from Y. -/
def State.subtract (s : State) (x m n : RegIdx) : State :=
  s.writeWithFlag x (fun u => notBorrowFlag (u.reg m) (u.reg n)) (fun u => u.reg m - u.reg n)

section
variable (s : State) (x y : RegIdx)

theorem exec_subReg : exec (.subReg x y) s = .next (s.subtract x x y) := rfl

theorem exec_subnReg : exec (.subnReg x y) s = .next (s.subtract x y x) := rfl

end

section
variable {s : State} {x m n : RegIdx}

theorem frame_subtract : Frame { regs := [x, vf] } s (s.subtract x m n) := frame_writeWithFlag ..

theorem subtract_vf (hl : s.v.length = 16) (h : ¬ (x = vf ∧ s.params.vfOrder = .sequential)) :
    (((s.subtract x m n).reg vf).toNat : Int) = notBorrow (s.reg m).toNat (s.reg n).toNat := by
  rw [State.subtract, writeWithFlag_vf hl h, notBorrowFlag_toNat_int]

theorem subtract_flagLast (hl : s.v.length = 16) (ho : s.params.vfOrder = .flagLast) (hx : x ≠ vf) :
    (((s.subtract x m n).reg x).toNat : Int) = ((s.reg m).toNat - (s.reg n).toNat) % 256 := by
  rw [State.subtract, writeWithFlag_result_flagLast hl ho hx, sub_toNat_int]

/-- Under `Sequential` an operand that is VF is read as the flag just written. -/
theorem subtract_sequential (hl : s.v.length = 16) (ho : s.params.vfOrder = .sequential) :
    let c := notBorrow (s.reg m).toNat (s.reg n).toNat
    (((s.subtract x m n).reg x).toNat : Int) =
      ((if m = vf then c else (s.reg m).toNat) - (if n = vf then c else (s.reg n).toNat)) % 256 := by
  have operand (k : RegIdx) (b : Byte) : (((s.setReg vf b).reg k).toNat : Int) =
      if k = vf then (b.toNat : Int) else (s.reg k).toNat := by
    by_cases hk : k = vf
    · rw [if_pos hk, hk, reg_setReg_self hl]
    · rw [if_neg hk, reg_setReg_ne s (Ne.symm hk)]
  rw [State.subtract, writeWithFlag_result_sequential hl ho, sub_toNat_int, operand, operand,
    notBorrowFlag_toNat_int]

/-- What a subtraction leaves in `V[x]` and in VF, for each order. -/
theorem subtract_regs (hl : s.v.length = 16) (x m n : RegIdx) :
    let a : Int := (s.reg m).toNat
    let b : Int := (s.reg n).toNat
    let c := notBorrow a b
    let p : Int := ((s.subtract x m n).reg x).toNat
    let f : Int := ((s.subtract x m n).reg 15).toNat
    (s.params.vfOrder = .flagLast → f = c ∧ (x ≠ 15 → p = (a - b) % 256)) ∧
    (s.params.vfOrder = .sequential → (x ≠ 15 → f = c) ∧
      p = ((if m = 15 then c else a) - (if n = 15 then c else b)) % 256) :=
  ⟨fun ho => ⟨subtract_vf hl (by simp [ho]), subtract_flagLast hl ho⟩,
    fun ho => ⟨fun hx => subtract_vf hl fun h => hx h.1, subtract_sequential hl ho⟩⟩

end

/-- Settles O43: the corner cases are those of an operand that is VF, which `Sequential` reads after the
flag was written. -/
theorem subtractWritesDifferenceAndNotBorrow : Obligations.SubtractWritesDifferenceAndNotBorrow := by
  refine ⟨fun w h => decode_of_group8Mask h rfl, fun s x y hs =>
    ⟨_, exec_subReg s x y, frame_subtract, ?_⟩⟩
  obtain ⟨flagLast, sequential⟩ := subtract_regs hs.regCount x x y
  refine ⟨flagLast, fun ho => ?_⟩
  obtain ⟨flag, result⟩ := sequential ho
  refine ⟨fun hx hy => ⟨?_, flag hx⟩, fun hx hy => ?_, fun hx hy => ⟨?_, flag hx⟩, fun hx hy => ?_⟩
  · rwa [if_neg hx, if_neg hy] at result
  · subst hx
    rwa [if_pos rfl, if_neg hy] at result
  · rwa [if_neg hx, if_pos hy] at result
  · subst hx
    rwa [if_pos rfl, if_pos hy, Int.sub_self] at result

/-- Settles O44: as O43, with `V[X]` subtracted from `V[Y]`. -/
theorem reverseSubtractWritesDifferenceAndNotBorrow :
    Obligations.ReverseSubtractWritesDifferenceAndNotBorrow := by
  refine ⟨fun w h => decode_of_group8Mask h rfl, fun s x y hs =>
    ⟨_, exec_subnReg s x y, frame_subtract, ?_⟩⟩
  obtain ⟨flagLast, sequential⟩ := subtract_regs hs.regCount x y x
  refine ⟨flagLast, fun ho => ?_⟩
  obtain ⟨flag, result⟩ := sequential ho
  refine ⟨fun hx hy => ⟨?_, flag hx⟩, fun hx hy => ?_, fun hx hy => ⟨?_, flag hx⟩, fun hx hy => ?_⟩
  · rwa [if_neg hy, if_neg hx] at result
  · subst hx
    rwa [if_neg hy, if_pos rfl] at result
  · rwa [if_pos hy, if_neg hx] at result
  · subst hx
    rwa [if_pos hy, if_pos rfl, Int.sub_self] at result

/-- Settles O45: a shift looks at `V[X]` alone; with X = F under `Sequential` it shifts the bit that it
just moved out, which is 0 or 1. -/
theorem shiftsWriteTheBitShiftedOut : Obligations.ShiftsWriteTheBitShiftedOut := by
  refine ⟨fun w => ⟨fun h => decode_of_group8Mask h rfl, fun h => decode_of_group8Mask h rfl⟩,
    fun s x y hs => ⟨_, rfl, fun _ => rfl, frame_writeWithFlag .., ?right⟩,
    fun s x y hs => ⟨_, rfl, fun _ => rfl, frame_writeWithFlag .., ?left⟩⟩
  case right =>
    obtain ⟨away, sequential, flagLast⟩ := writeWithFlag_unary hs.regCount x (· % 2) (· / 2)
      shiftOutLow_toNat shiftRight_one_toNat
    exact ⟨away, fun hx ho => (sequential hx ho).trans (by omega), flagLast⟩
  case left =>
    obtain ⟨away, sequential, flagLast⟩ := writeWithFlag_unary hs.regCount x (· / 128) (2 * · % 256)
      shiftOutHigh_toNat shiftLeft_one_toNat
    exact ⟨away, fun hx ho => (sequential hx ho).trans (by omega), flagLast⟩

/-- Settles O46: the draw is taken first, whatever NN is, and then `V[X]` is written alone. -/
theorem randomByteIsOneFreshDrawMasked : Obligations.RandomByteIsOneFreshDrawMasked := by
  refine ⟨fun w h => decode_rnd (topNibble_of_groupMask h), fun s x nn hs =>
    ⟨_, rfl, ?_⟩⟩
  have written : (s.drawByte.2.setReg x (Config.draw s.rng &&& nn)).reg x = Config.draw s.rng &&& nn :=
    reg_setReg_self (s := s.drawByte.2) hs.regCount x _
  refine ⟨fun b => ?bit, fun h0 => ?zero, rfl, { frame_setReg s x _ with rng := nofun }⟩
  case bit => exact (congrArg (·.getLsbD b) written).trans BitVec.getLsbD_and
  case zero =>
    subst h0
    exact written.trans BitVec.and_zero

end Sys2Proof.Machine
end

section
/-! PROOFS. Which instructions can change `I` (spec/43_index_memory.md R207), read off the table of
writes. -/

namespace Sys2Proof.Machine

section
variable {s t : State} {i : Instr}

theorem writesOf_index (h : (writesOf s i).index ≠ false) :
    (∃ nnn, i = .ldI nnn) ∨ (∃ x, i = .addI x) ∨ (∃ x, i = .ldF x) := by
  cases i
  case ldI nnn => exact .inl ⟨nnn, rfl⟩
  case addI x => exact .inr (.inl ⟨x, rfl⟩)
  case ldF x => exact .inr (.inr ⟨x, rfl⟩)
  all_goals exact absurd rfl h

theorem ExecCase.index_writer (h : ExecCase s i t) (hne : t.i ≠ s.i) :
    (∃ nnn, i = .ldI nnn) ∨ (∃ x, i = .addI x) ∨ (∃ x, i = .ldF x) :=
  writesOf_index fun hw => hne (h.frame.index hw)

end

/-- Settles O24: in the table of writes, ANNN, FX1E and FX29 alone have `I`, and a fault entry leaves it. -/
theorem onlyThreeInstructionsWriteIndex : Obligations.OnlyThreeInstructionsWriteIndex :=
  fun _ _ _ h hne => (exec_cases h).index_writer hne

end Sys2Proof.Machine
end

section
/-! PROOFS. The index register and the instructions that use it to reach memory (spec/43_index_memory.md):
ANNN, FX29 and FX1E (R201 to R203), the stores FX33 and FX55 (R204, R205) and the load FX65 (R206), each
access checked before it writes (R200). -/

namespace Sys2Proof.Machine

/-! ## The decoder's group F (R100) -/

/-- The mask of R103 for group F keeps the top nibble and the sub-code. -/
theorem decode_of_groupFMask {w v : Word} (h : w &&& 0xF0FF#16 = v)
    (hv : (topNibble v).toNat = 0xF) : decode w = decodeGroupF (fieldX w) (fieldNN v) := by
  have top : topNibble w = topNibble v := topNibble_of_mask h rfl
  rw [decode_groupF ((congrArg BitVec.toNat top).trans hv), fieldNN_of_mask h rfl]

/-! ## `I` in 16 bits (spec/10_state.md R24) -/

theorem setIndex_i_nea {s : State} (hs : s.Nea) (n : Nat) : (s.setIndex n).i = n % 65536 := by
  simp [hs.sizes]

theorem indexFlag_toNat (n : Nat) : (indexFlag n).toNat = if n > 0xFFF then 1 else 0 := by
  simp [indexFlag, flagByte_toNat]

/-- A value of 16 bits reaches `I` as it is. -/
theorem setIndex_i_exact {s : State} (hs : s.Nea) {n : Nat} (h : n < 65536) : (s.setIndex n).i = n :=
  (setIndex_i_nea hs n).trans (Nat.mod_eq_of_lt h)

/-- Settles O47: NNN has 12 bits and five times a byte is at most 1275, so neither is reduced. -/
theorem indexLoadsAreExact : Obligations.IndexLoadsAreExact := by
  refine ⟨fun w => ⟨fun h => decode_ldI (topNibble_of_groupMask h),
    fun h => decode_of_groupFMask h rfl⟩, fun s nnn hs => ?address, fun s x hs => ?product⟩
  case address =>
    have width : nnn.toNat < 65536 := by omega
    exact ⟨_, rfl, setIndex_i_exact hs width, frame_setIndex ..⟩
  case product =>
    have width : (s.reg x).toNat * 5 < 65536 := by omega
    exact ⟨_, rfl, setIndex_i_exact hs width, frame_setIndex ..⟩

/-- Settles O48: the sum is taken before VF is written, and the flag looks at the new `I`. -/
theorem indexAddIsUnmaskedAndSetsVf : Obligations.IndexAddIsUnmaskedAndSetsVf := by
  refine ⟨fun w h => decode_of_groupFMask h rfl, fun s x hs =>
    ⟨_, rfl, setIndex_i_nea hs _, ?flag, { frame_setReg s vf _ with index := nofun }⟩⟩
  case flag =>
    have written := reg_setReg_self (s := s.setIndex (s.i + (s.reg x).toNat)) hs.regCount vf
    exact (congrArg BitVec.toNat (written _)).trans (indexFlag_toNat _)

/-! ## The address checks in this hardware (R68, R70, R200) -/

section
variable {s : State} {count : Nat}

theorem firstBadWrite_none_nea (hs : s.Nea) (h0 : count ≠ 0) (inside : s.i + count ≤ 0x1000)
    (font : s.params.fontWrite = .fault → 0x04F < s.i) : s.firstBadWrite count = none := by
  rw [firstBadWrite_eq_none h0, hs.sizes]
  exact ⟨inside, font⟩

/-- An access of this hardware has at most 16 bytes, so one past the end starts above the font table. -/
theorem firstBadWrite_end_nea (hs : s.Nea) (h0 : count ≠ 0) (h16 : count ≤ 16)
    (past : 0x1000 < s.i + count) :
    s.firstBadWrite count = some (max s.i 0x1000) := by
  have first := firstBadWrite_end (s := s) h0
  rw [hs.sizes] at first
  exact first (fun _ => show 0x04F < s.i by omega) past

theorem firstBadWrite_font_nea (hs : s.Nea) (h0 : count ≠ 0) (hf : s.params.fontWrite = .fault)
    (h : s.i ≤ 0x04F) : s.firstBadWrite count = some s.i :=
  firstBadWrite_font h0 hf (by rwa [hs.sizes])

theorem firstBadRead_none_nea (hs : s.Nea) (inside : s.i + count ≤ 0x1000) :
    s.firstBadRead count = none := by
  rw [firstBadRead_eq_none, hs.sizes]
  exact .inr inside

theorem firstBadRead_end_nea (hs : s.Nea) (h0 : count ≠ 0) (past : 0x1000 < s.i + count) :
    s.firstBadRead count = some (max s.i 0x1000) := by
  have first := firstBadRead_eq_some (s := s) h0
  rw [hs.sizes] at first
  exact first past

end

/-! ## The two ends of FX33, FX55 and FX65 -/

/-- `s` with `V[0]` to `V[x]` loaded from `I` to `I + x` (R206). -/
def State.withLoaded (s : State) (x : RegIdx) : State :=
  (regsUpTo x).foldl (fun t k => t.setReg k (t.memByte (t.effAddr k.val))) s

/-- The execute step of `i` took the fault entry of an access whose first failing address is `a`: it
recorded `a`, and wrote nothing else (R200, R279). -/
def AddressFault (i : Instr) (s : State) (a : Nat) : Prop :=
  ∃ t, exec i s = .next t ∧ t.status = .halted .addressOutOfRange (some a) ∧
    Frame { status := true } s t

section
variable {s : State} {x : RegIdx} {a : Nat}

theorem addressFault_of_exec {i : Instr} (h : exec i s = raiseFault .addressOutOfRange (some a) s) :
    AddressFault i s a :=
  ⟨_, h, rfl, frame_faultEntry ..⟩

theorem exec_ldB_none (h : s.firstBadWrite 3 = none) :
    exec (.ldB x) s = .next (s.setMemBytes s.i (bcdDigits (s.reg x))) := by
  simp only [exec, execLdB, h, State.effAddr, Nat.add_zero]

theorem ldB_addressFault (h : s.firstBadWrite 3 = some a) : AddressFault (.ldB x) s a :=
  addressFault_of_exec (by simp only [exec, execLdB, h])

theorem exec_storeRegs_none (h : s.firstBadWrite (x.val + 1) = none) :
    exec (.storeRegs x) s = .next (s.setMemBytes s.i ((regsUpTo x).map s.reg)) := by
  simp only [exec, execStoreRegs, h, State.effAddr, Nat.add_zero]

theorem storeRegs_addressFault (h : s.firstBadWrite (x.val + 1) = some a) :
    AddressFault (.storeRegs x) s a :=
  addressFault_of_exec (by simp only [exec, execStoreRegs, h])

theorem exec_loadRegs_inside (hs : s.Nea) (inside : s.i + x.val ≤ 0xFFF) :
    exec (.loadRegs x) s = .next (s.withLoaded x) := by
  have checked : s.firstBadRead (x.val + 1) = none := firstBadRead_none_nea hs (by omega)
  simp only [exec, execLoadRegs, checked, State.withLoaded]

theorem loadRegs_addressFault (h : s.firstBadRead (x.val + 1) = some a) :
    AddressFault (.loadRegs x) s a :=
  addressFault_of_exec (by simp only [exec, execLoadRegs, h])

/-! ## What was stored, and what was loaded -/

/-- Bytes stored at `a` and up read back at their offsets. -/
theorem memByte_stored (hm : Memory.wf s.params s.mem = true) {bs : List Byte} {k : Nat} {b : Byte}
    (hb : bs[k]? = some b) : (s.setMemBytes a bs).memByte (a + k) = b := by
  obtain ⟨hk, -⟩ := List.getElem?_eq_some_iff.1 hb
  rw [memByte_setMemBytes ((memory_wf_iff _ _).1 hm).1, if_pos (by omega), Nat.add_sub_cancel_left, hb,
    Option.getD_some]

/-- `V[k]` is byte `k` of the registers that FX55 stores. -/
theorem storedRegs_get {k : RegIdx} (h : k ≤ x) : ((regsUpTo x).map s.reg)[k.val]? = some (s.reg k) := by
  rw [List.getElem?_map, regsUpTo_get x k h]
  rfl

theorem withLoaded_reg (hs : s.Nea) {k : RegIdx} (h : k ≤ x) :
    (s.withLoaded x).reg k = s.memByte (s.i + k.val) := by
  have present : k.val < s.v.length := k.isLt.trans_eq hs.regCount.symm
  rw [State.withLoaded, loadFold_reg, if_pos ⟨mem_regsUpTo.2 h, present⟩]

theorem frame_withLoaded (s : State) (x : RegIdx) : Frame { regs := regsUpTo x } s (s.withLoaded x) :=
  frame_loadFold s (regsUpTo x)

end

/-- Settles O49: the three bytes are the digits in order; a store past the end starts at 0xFFE or above,
so the first failing address is 0x1000 or `I`, and one that starts in the font table fails at `I`. -/
theorem decimalDigitsGoToThreeBytes : Obligations.DecimalDigitsGoToThreeBytes := by
  refine ⟨fun w h => decode_of_groupFMask h rfl, fun s x hs hm inside font => ?stores,
    fun s x hs past => ldB_addressFault (firstBadWrite_end_nea hs (by decide) (by decide) (by omega)),
    fun s x hs hf low => ldB_addressFault (firstBadWrite_font_nea hs (by decide) hf low)⟩
  have checked := firstBadWrite_none_nea (count := 3) hs (by decide) (by omega) font
  have digit {k n : Nat} (hb : (bcdDigits (s.reg x))[k]? = some (BitVec.ofNat 8 n)) (h : n < 256) :
      ((s.setMemBytes s.i (bcdDigits (s.reg x))).memByte (s.i + k)).toNat = n :=
    (congrArg BitVec.toNat (memByte_stored hm hb)).trans (Nat.mod_eq_of_lt h)
  exact ⟨_, exec_ldB_none checked, digit (k := 0) rfl (by omega), digit rfl (by omega),
    digit rfl (by omega), frame_stored s s.i (bcdDigits (s.reg x))⟩

/-- Settles O50: byte `k` of what is stored is `V[k]`; the two faults are as for FX33, with `X + 1` bytes. -/
theorem storeRegistersCopiesV0ToVx : Obligations.StoreRegistersCopiesV0ToVx := by
  refine ⟨fun w h => decode_of_groupFMask h rfl, fun s x hs hm inside font => ?stores,
    fun s x hs past => storeRegs_addressFault (firstBadWrite_end_nea hs (by omega) x.isLt (by omega)),
    fun s x hs hf low => storeRegs_addressFault (firstBadWrite_font_nea hs (by omega) hf low)⟩
  have checked := firstBadWrite_none_nea (count := x.val + 1) hs (by omega) (by omega) font
  have frame := frame_stored s s.i ((regsUpTo x).map s.reg)
  rw [List.length_map, regsUpTo_length] at frame
  exact ⟨_, exec_storeRegs_none checked, fun k hk => memByte_stored hm (storedRegs_get hk), frame⟩

/-- Settles O51: each register is read from its own byte, and FX65 writes no memory; the bytes that FX55
left are the registers it stored. -/
theorem loadRegistersCopiesToV0ToVx : Obligations.LoadRegistersCopiesToV0ToVx := by
  refine ⟨fun w h => decode_of_groupFMask h rfl, fun s x hs inside => ?loads,
    fun s x hs past => loadRegs_addressFault (firstBadRead_end_nea hs (by omega) (by omega)),
    fun s t u x hs hm inside font hstore hmem hi hparams hu => ?roundTrip⟩
  case loads =>
    have frame := frame_withLoaded s x
    exact ⟨_, exec_loadRegs_inside hs inside, fun k hk => withLoaded_reg hs hk, frame,
      fun k hk => frame.regs k fun h => (mem_regsUpTo.1 h).not_gt hk⟩
  case roundTrip =>
    obtain ⟨-, stores, -⟩ := storeRegistersCopiesV0ToVx
    obtain ⟨t', hstore', stored, frame⟩ := stores s x hs hm inside font
    cases hstore.symm.trans hstore'
    have index : u.i = s.i := hi.trans (frame.index rfl)
    refine ⟨_, exec_loadRegs_inside hu (index ▸ inside), fun k hk => ?_⟩
    rw [withLoaded_reg hu hk, memByte_congr hmem hparams, index, stored k hk]

end Sys2Proof.Machine
end

section
/-! PROOFS. The display (spec/44_display.md): 00E0 (R231), and DXYN (R232 to R235), whose set bits each
target a cell of their own, so that the plotting toggles a set of cells. -/

namespace Sys2Proof.Machine

/-- Settles O52: display 0 has every cell off, and 00E0 writes the display and the draw flag alone. -/
theorem clearTurnsEveryCellOff : Obligations.ClearTurnsEveryCellOff := by
  refine ⟨fun w => ?word, fun s => ⟨_, rfl, Nat.zero_testBit, rfl, ?frame⟩⟩
  case word =>
    obtain ⟨cls_iff, -⟩ := groupZeroDecodesOnTheWholeWord w
    exact cls_iff
  case frame => exact { frame_refl _ s with disp := nofun, drawFlag := nofun }

/-! ## Cells toggled one after the other (R233) -/

section
variable {s : State} {cells : List Nat}

/-- Toggling distinct cells toggles the set of them. -/
theorem pixel_toggleFold (hc : cells.Nodup) (k : Nat) :
    (cells.foldl State.togglePixel s).pixel k = (s.pixel k ^^ decide (k ∈ cells)) := by
  induction cells generalizing s with
  | nil => simp
  | cons j cells ih =>
    obtain ⟨hj, hc⟩ := List.nodup_cons.1 hc
    rw [List.foldl_cons, ih hc, pixel_togglePixel]
    by_cases hk : k = j
    · simp [hk, hj]
    · simp [hk]

/-- VF is set as soon as one of the cells was on before all of them were toggled: a cell is not touched
before its own turn. -/
theorem vf_toggleFold (hl : s.v.length = 16) (hc : cells.Nodup) :
    (cells.foldl State.togglePixel s).reg vf = if cells.any s.pixel then 1#8 else s.reg vf := by
  induction cells generalizing s with
  | nil => rfl
  | cons j cells ih =>
    obtain ⟨hj, hc⟩ := List.nodup_cons.1 hc
    have untouched : cells.any (s.togglePixel j).pixel = cells.any s.pixel := by
      rw [Bool.eq_iff_iff, List.any_eq_true, List.any_eq_true]
      refine exists_congr fun k => and_congr_right fun hk => ?_
      rw [pixel_togglePixel, decide_eq_false (ne_of_mem_of_not_mem hk hj), Bool.xor_false]
    have present : vf.val < s.v.length := vf.isLt.trans_eq hl.symm
    rw [List.foldl_cons, ih ((togglePixel_regCount s j).trans hl) hc, untouched, reg_togglePixel,
      List.any_cons]
    by_cases on : s.pixel j = true
    · simp [on, present]
    · simp [on]

end

/-! ## The cells that targets toggle (R233, R234) -/

/-- The cell that a set bit with the target `p` toggles: none beyond the grid under `Clip`. -/
def State.toggledCell (s : State) (p : Nat × Nat) : Option Nat :=
  if s.params.spriteEdge = .clip → p.1 < s.params.sizes.displayW ∧ p.2 < s.params.sizes.displayH then
    some (s.cellIndex p.1 p.2)
  else none

/-- The cells that the targets `l` toggle, in drawing order. -/
def State.toggledCells (s : State) (l : List (Nat × Nat)) : List Nat := l.filterMap s.toggledCell

/-- `s` with the targets `l` drawn: VF reset, the cells plotted, the draw flag set (R232). -/
def State.drawn (s : State) (l : List (Nat × Nat)) : State :=
  (l.foldl (fun t p => t.plot p.1 p.2) (s.setReg vf 0#8)).setDrawFlag true

theorem drawn_frame (s : State) (l : List (Nat × Nat)) :
    Frame { regs := [15], disp := true, drawFlag := true } s (s.drawn l) := frame_drawn s l

section
variable {s t : State} {l : List (Nat × Nat)}

theorem toggledCell_eq_some {p : Nat × Nat} {k : Nat} : s.toggledCell p = some k ↔
    (s.params.spriteEdge = .clip →
      p.1 < s.params.sizes.displayW ∧ p.2 < s.params.sizes.displayH) ∧
    s.cellIndex p.1 p.2 = k :=
  Option.ite_none_right_eq_some.trans (and_congr_right fun _ => Option.some_inj)

/-- Which cells are toggled is a matter of the parameters. -/
theorem toggledCells_congr (h : t.params = s.params) (l : List (Nat × Nat)) :
    t.toggledCells l = s.toggledCells l := by
  have cell : t.toggledCell = s.toggledCell := by
    funext p
    simp only [State.toggledCell, State.cellIndex, h]
  rw [State.toggledCells, State.toggledCells, cell]

/-- Plotting a target toggles its cell, where it has one. -/
theorem plot_eq_toggle (s : State) (p : Nat × Nat) :
    s.plot p.1 p.2 = (s.toggledCell p).elim s s.togglePixel := by
  cases he : s.params.spriteEdge with
  | clip =>
    by_cases inside : p.1 < s.params.sizes.displayW ∧ p.2 < s.params.sizes.displayH
    · rw [plot_inside inside.1 inside.2, toggledCell_eq_some.2 ⟨fun _ => inside, rfl⟩]
      rfl
    · have outside : s.params.sizes.displayW ≤ p.1 ∨ s.params.sizes.displayH ≤ p.2 := by omega
      simp [State.plot, State.toggledCell, he, inside, outside]
  | linearSpill => simp [State.plot, State.toggledCell, he]

theorem plotFold_eq_toggleFold (l : List (Nat × Nat)) (s : State) :
    l.foldl (fun t p => t.plot p.1 p.2) s = (s.toggledCells l).foldl State.togglePixel s := by
  induction l generalizing s with
  | nil => rfl
  | cons p l ih =>
    have params : (s.plot p.1 p.2).params = s.params := by rw [plot_eq]
    rw [List.foldl_cons, ih, toggledCells_congr params, plot_eq_toggle, State.toggledCells,
      State.toggledCells, List.filterMap_cons]
    cases s.toggledCell p <;> rfl

theorem pixel_drawn (hc : (s.toggledCells l).Nodup) (k : Nat) :
    (s.drawn l).pixel k = (s.pixel k ^^ decide (k ∈ s.toggledCells l)) := by
  rw [State.drawn, setDrawFlag_pixel, plotFold_eq_toggleFold]
  exact pixel_toggleFold hc k

/-- VF after a sprite reports a cell that was on before it (R235). -/
theorem vf_drawn (hl : s.v.length = 16) (hc : (s.toggledCells l).Nodup) :
    (s.drawn l).reg 15 = flagByte ((s.toggledCells l).any s.pixel) := by
  have reset : (s.setReg vf 0#8).reg vf = 0#8 := reg_setReg_self hl vf 0#8
  have toggled := vf_toggleFold (s := s.setReg vf 0#8) ((setReg_regCount ..).trans hl) hc
  rw [State.drawn, setDrawFlag_reg, plotFold_eq_toggleFold]
  rw [reset] at toggled
  exact toggled

end

/-! ## The targets of DXYN (R230, R232) -/

/-- The targets of the set bits of the sprite that DXYN draws, in drawing order. -/
def State.drwTargets (s : State) (x y : RegIdx) (n : Nibble) : List (Nat × Nat) :=
  s.spriteTargets (s.spriteX x) (s.spriteY y) n.toNat

section
variable {s t : State} {x y : RegIdx} {n : Nibble}

theorem mem_drwTargets (hz : s.params.sizes = Config.nea) {p : Nat × Nat} :
    p ∈ s.drwTargets x y n ↔ ∃ r c, r < n.toNat ∧ c < 8 ∧ spriteHas s r c ∧
      p = ((s.reg x).toNat % 64 + c, (s.reg y).toNat % 32 + r) := by
  rw [State.drwTargets, mem_spriteTargets, State.spriteX, State.spriteY, hz]
  exact ⟨fun ⟨r, hr, c, hc, hb, hp⟩ => ⟨r, c, hr, hc, hb, hp⟩,
    fun ⟨r, c, hr, hc, hb, hp⟩ => ⟨r, hr, c, hc, hb, hp⟩⟩

theorem cellIndex_target (hz : s.params.sizes = Config.nea) (r c : Nat) :
    s.cellIndex ((s.reg x).toNat % 64 + c) ((s.reg y).toNat % 32 + r) = spriteCell s x y r c := by
  rw [State.cellIndex, hz]
  rfl

/-- In drawing order the cells of the targets rise: a row of a sprite is shorter than one of the display. -/
theorem drwTargets_rise (hz : s.params.sizes = Config.nea) (x y : RegIdx) (n : Nibble) :
    (s.drwTargets x y n).Pairwise fun p q => s.cellIndex p.1 p.2 < s.cellIndex q.1 q.2 := by
  simp only [State.drwTargets, State.spriteTargets, State.cellIndex, hz, nea_displayW]
  refine List.pairwise_flatMap.2 ⟨fun r _ => ?row, List.pairwise_lt_range.imp fun hrow => ?rows⟩
  case row =>
    exact List.pairwise_map.2 ((List.pairwise_lt_range.filter _).imp fun hc => by omega)
  case rows =>
    intro p hp q hq
    obtain ⟨c, hc, rfl⟩ := List.mem_map.1 hp
    obtain ⟨d, -, rfl⟩ := List.mem_map.1 hq
    have width := List.mem_range.1 (List.mem_filter.1 hc).1
    dsimp only
    omega

/-- Each set bit of the sprite toggles a cell of its own. -/
theorem toggledCells_nodup (hz : s.params.sizes = Config.nea) (x y : RegIdx) (n : Nibble) :
    (s.toggledCells (s.drwTargets x y n)).Nodup := by
  refine (drwTargets_rise hz x y n).filterMap _ fun p q hpq a ha b hb => ?_
  obtain ⟨-, rfl⟩ := toggledCell_eq_some.1 ha
  obtain ⟨-, rfl⟩ := toggledCell_eq_some.1 hb
  exact hpq.ne

/-- A set bit toggles its cell under `LinearSpill`, and under `Clip` where it is inside the grid. -/
theorem mem_toggledCells_iff_bit (hz : s.params.sizes = Config.nea) {k : Nat} :
    k ∈ s.toggledCells (s.drwTargets x y n) ↔ ∃ r c, r < n.toNat ∧ c < 8 ∧ spriteHas s r c ∧
      (s.params.spriteEdge = .clip → (s.reg x).toNat % 64 + c < 64 ∧ (s.reg y).toNat % 32 + r < 32) ∧
      k = spriteCell s x y r c := by
  simp only [State.toggledCells, List.mem_filterMap, mem_drwTargets hz, toggledCell_eq_some, hz,
    nea_displayW, nea_displayH]
  constructor
  · rintro ⟨_, ⟨r, c, hr, hc, hb, rfl⟩, inside, rfl⟩
    exact ⟨r, c, hr, hc, hb, inside, cellIndex_target hz r c⟩
  · rintro ⟨r, c, hr, hc, hb, inside, rfl⟩
    exact ⟨_, ⟨r, c, hr, hc, hb, rfl⟩, inside, cellIndex_target hz r c⟩

theorem mem_toggledCells (hz : s.params.sizes = Config.nea) {k : Nat} :
    k ∈ s.toggledCells (s.drwTargets x y n) ↔ drawCovers s x y n.toNat k := by
  rw [mem_toggledCells_iff_bit hz]
  cases he : s.params.spriteEdge with
  | clip => simp only [drawCovers, he, clipCovers, true_imp_iff, and_assoc]
  | linearSpill => simp only [drawCovers, he, spillCovers, reduceCtorEq, false_imp_iff, true_and]

/-- Drawing leaves `I`, memory and every register but VF, so DXYN targets what it did before. -/
theorem drwTargets_drawn (hx : x ≠ 15) (hy : y ≠ 15) (l : List (Nat × Nat)) :
    (s.drawn l).drwTargets x y n = s.drwTargets x y n := by
  have frame := drawn_frame s l
  have bytes (a : Nat) : (s.drawn l).memByte a = s.memByte a := frame.mem a List.not_mem_nil
  have column : (s.drawn l).reg x = s.reg x := frame.regs x (mt List.mem_singleton.1 hx)
  have row : (s.drawn l).reg y = s.reg y := frame.regs y (mt List.mem_singleton.1 hy)
  have rows (x0 y0 : Nat) : (s.drawn l).rowTargets x0 y0 = s.rowTargets x0 y0 := by
    funext r
    simp only [State.rowTargets, State.effAddr, bytes, frame.index rfl]
  simp only [State.drwTargets, State.spriteTargets, State.spriteX, State.spriteY, rows, column, row,
    frame.params]

/-! ## The three ends of DXYN (R232, R234) -/

theorem exec_drw_completes (reads : s.firstBadRead n.toNat = none)
    (cells : s.firstBadCell (s.drwTargets x y n) = none) :
    exec (.drw x y n) s = .next (s.drawn (s.drwTargets x y n)) := by
  simp only [State.drwTargets] at cells
  simp only [exec, execDrw, reads, cells, State.drawn, State.drwTargets]

theorem drw_addressFault {a : Nat} (h : s.firstBadRead n.toNat = some a) :
    AddressFault (.drw x y n) s a :=
  addressFault_of_exec (by simp only [exec, execDrw, h])

theorem exec_drw_badCell {k : Nat} (reads : s.firstBadRead n.toNat = none)
    (cell : s.firstBadCell (s.drwTargets x y n) = some k) :
    exec (.drw x y n) s = raiseFault .displayIndexOutOfRange (some k) s := by
  simp only [State.drwTargets] at cell
  simp only [exec, execDrw, reads, cell]

/-- DXYN that completed completes again, on the same targets. -/
theorem drw_drawn (hx : x ≠ 15) (hy : y ≠ 15) (reads : s.firstBadRead n.toNat = none)
    (cells : s.firstBadCell (s.drwTargets x y n) = none) :
    exec (.drw x y n) (s.drawn (s.drwTargets x y n)) =
      .next ((s.drawn (s.drwTargets x y n)).drawn (s.drwTargets x y n)) := by
  have frame := drawn_frame s (s.drwTargets x y n)
  have targets := drwTargets_drawn (s := s) (n := n) hx hy (s.drwTargets x y n)
  rw [exec_drw_completes, targets]
  · rwa [firstBadRead_eq_none, frame.index rfl, frame.params, ← firstBadRead_eq_none]
  · rw [targets]
    simpa only [State.firstBadCell, State.cellIndex, frame.params] using cells

/-- DXYN that leaves the core running passed both checks. -/
theorem drw_checks_of_running (h : exec (.drw x y n) s = .next t) (running : t.status = .running) :
    s.firstBadRead n.toNat = none ∧ s.firstBadCell (s.drwTargets x y n) = none := by
  cases reads : s.firstBadRead n.toNat with
  | some a =>
    obtain ⟨t', h', halted, -⟩ := drw_addressFault (x := x) (y := y) reads
    cases h.symm.trans h'
    cases running.symm.trans halted
  | none =>
    cases cell : s.firstBadCell (s.drwTargets x y n) with
    | some k =>
      cases h.symm.trans (exec_drw_badCell reads cell)
      cases running
    | none => exact ⟨rfl, rfl⟩

/-- Under `LinearSpill` the first set bit beyond the display follows set bits inside it. -/
theorem firstBadCell_first (hz : s.params.sizes = Config.nea) {r c : Nat}
    (he : s.params.spriteEdge = .linearSpill) (hr : r < n.toNat) (hc : c < 8)
    (hb : spriteHas s r c) (bad : 2048 ≤ spriteCell s x y r c)
    (first : ∀ r' c', r' < n.toNat → c' < 8 → spriteHas s r' c' → (r' < r ∨ (r' = r ∧ c' < c)) →
      spriteCell s x y r' c' < 2048) :
    s.firstBadCell (s.drwTargets x y n) = some (spriteCell s x y r c) := by
  obtain ⟨l₁, l₂, split⟩ := List.append_of_mem ((mem_drwTargets hz).2 ⟨r, c, hr, hc, hb, rfl⟩)
  have rise := drwTargets_rise hz x y n
  rw [split, List.pairwise_append] at rise
  obtain ⟨-, -, before⟩ := rise
  rw [split, ← cellIndex_target hz]
  refine firstBadCell_eq_some he (fun q hq => ?earlier) ?bad
  case earlier =>
    have lower := before q hq _ List.mem_cons_self
    obtain ⟨r', c', hr', hc', hb', rfl⟩ :=
      (mem_drwTargets hz).1 (split ▸ List.mem_append_left (_ :: l₂) hq)
    rw [cellIndex_target hz, cellIndex_target hz] at lower
    rw [cellIndex_target hz, hz]
    refine first r' c' hr' hc' hb' ?_
    simp only [spriteCell] at lower
    omega
  case bad => rwa [cellIndex_target hz, hz]

theorem firstBadCell_none_nea (hz : s.params.sizes = Config.nea)
    (inside : s.params.spriteEdge = .linearSpill → ∀ k, spillCovers s x y n.toNat k → k < 2048) :
    s.firstBadCell (s.drwTargets x y n) = none := by
  refine firstBadCell_eq_none.2 fun he p hp => ?_
  obtain ⟨r, c, hr, hc, hb, rfl⟩ := (mem_drwTargets hz).1 hp
  rw [cellIndex_target hz, hz]
  exact inside he _ ⟨r, c, hr, hc, hb, rfl⟩

end

theorem flagByte_eq_one {b : Bool} : flagByte b = 1#8 ↔ b = true := by cases b <;> decide

/-- Settles O53: the targets pass both checks and each toggles a cell of its own, or the first failing
address, or else the first cell beyond the display, is recorded. -/
theorem drawTogglesTheSpriteAndReportsCollision :
    Obligations.DrawTogglesTheSpriteAndReportsCollision := by
  refine ⟨fun w h => decode_drw (topNibble_of_groupMask h), fun s x y n hs addresses cells => ?draws,
    fun s x y n hs h0 past => ?address, fun s x y n r c hs he inside hr hc hb bad first => ?cell⟩
  case draws =>
    have hz := hs.sizes
    have reads : s.firstBadRead n.toNat = none := by
      rw [firstBadRead_eq_none, hz]
      exact addresses.imp_left (congrArg BitVec.toNat)
    have distinct := toggledCells_nodup hz x y n
    have pixel := pixel_drawn distinct
    have flag := vf_drawn hs.regCount distinct
    refine ⟨_, exec_drw_completes reads (firstBadCell_none_nea hz cells), fun k hk => ?_, fun k hk => ?_,
      ?_, ?_, rfl, drawn_frame s _⟩
    · rw [pixel, decide_eq_true ((mem_toggledCells hz).2 hk), Bool.xor_true]
    · rw [pixel, decide_eq_false (mt (mem_toggledCells hz).1 hk), Bool.xor_false]
    · simp only [flag, flagByte_eq_one, List.any_eq_true, mem_toggledCells hz]
    · rw [flag]
      cases List.any _ _
      · exact .inl rfl
      · exact .inr rfl
  case address =>
    have rows : n.toNat ≠ 0 := fun h => h0 (BitVec.eq_of_toNat_eq h)
    exact drw_addressFault (firstBadRead_end_nea hs rows past)
  case cell =>
    have beyond := firstBadCell_first hs.sizes he hr hc hb bad first
    exact ⟨_, exec_drw_badCell (firstBadRead_none_nea hs inside) beyond, rfl, frame_faultEntry ..⟩

/-! ## Drawing twice (R232, R235) -/

section
variable {s : State} {l : List (Nat × Nat)}

/-- A display is blank when every cell is off. -/
theorem disp_eq_zero_iff : s.disp = 0 ↔ ∀ k, s.pixel k = false :=
  ⟨fun h k => by rw [State.pixel, h, Nat.zero_testBit], Nat.zero_of_testBit_eq_false⟩

/-- The same cells toggled twice are as they were. -/
theorem disp_drawn_drawn (hc : (s.toggledCells l).Nodup) : ((s.drawn l).drawn l).disp = s.disp := by
  have cells := toggledCells_congr (drawn_frame s l).params l
  refine Nat.eq_of_testBit_eq fun k => ?_
  change ((s.drawn l).drawn l).pixel k = s.pixel k
  rw [pixel_drawn (cells ▸ hc), cells, pixel_drawn hc, Bool.xor_assoc, Bool.xor_self, Bool.xor_false]

/-- From a blank display nothing collides. -/
theorem vf_drawn_blank (hl : s.v.length = 16) (hc : (s.toggledCells l).Nodup) (blank : s.disp = 0) :
    (s.drawn l).reg 15 = 0#8 := by
  have off := disp_eq_zero_iff.1 blank
  rw [vf_drawn hl hc, List.any_eq_false.2 fun k _ => by simp [off k]]
  rfl

/-- After a sprite drawn on a blank display the cells that are on are those that it toggled, and drawing
it again collides with each of them. -/
theorem vf_drawn_drawn_blank (hl : s.v.length = 16) (hc : (s.toggledCells l).Nodup)
    (blank : s.disp = 0) :
    ((s.drawn l).drawn l).reg 15 = 1#8 ↔ (s.drawn l).disp ≠ 0 := by
  have frame := drawn_frame s l
  have cells := toggledCells_congr frame.params l
  have on (k : Nat) : (s.drawn l).pixel k = true ↔ k ∈ s.toggledCells l := by
    rw [pixel_drawn hc, disp_eq_zero_iff.1 blank k, Bool.false_xor, decide_eq_true_iff]
  rw [vf_drawn (frame.regCount.trans hl) (cells ▸ hc), cells, flagByte_eq_one, List.any_eq_true, Ne,
    disp_eq_zero_iff]
  simp only [on, and_self, ← Bool.not_eq_true, not_forall, not_not]

end

/-- Settles O54: with X and Y other than F the second draw has the targets of the first, and toggling a
cell twice restores it. -/
theorem drawingTwiceRestoresTheDisplay : Obligations.DrawingTwiceRestoresTheDisplay := by
  intro s t x y n hs hx hy _ hexec running
  obtain ⟨reads, cells⟩ := drw_checks_of_running hexec running
  cases hexec.symm.trans (exec_drw_completes reads cells)
  have distinct := toggledCells_nodup hs.sizes x y n
  exact ⟨_, drw_drawn hx hy reads cells, ((drawn_frame _ _).status rfl).trans running,
    disp_drawn_drawn distinct, fun blank => ⟨vf_drawn_blank hs.regCount distinct blank,
      vf_drawn_drawn_blank hs.regCount distinct blank⟩⟩

end Sys2Proof.Machine
end

section
/-! PROOFS. Keys and timers (spec/45_keys_timers.md): the skips on the key that `V[X]` numbers (R251, R252),
the wait for a key under either value of `KEY_WAIT` (R254), and the timer transfers with the tick of their
own cycle (R253, R255, R256). -/

namespace Sys2Proof.Machine

/-! ## The decoder's group E (R99) -/

/-- The mask of R103 for group E keeps the top nibble and the sub-code. -/
theorem decode_of_groupEMask {w v : Word} (h : w &&& 0xF0FF#16 = v)
    (hv : (topNibble v).toNat = 0xE) : decode w = decodeGroupE (fieldX w) (fieldNN v) := by
  have top : topNibble w = topNibble v := topNibble_of_mask h rfl
  rw [decode_groupE ((congrArg BitVec.toNat top).trans hv), fieldNN_of_mask h rfl]

section
variable {s t : State} {i : Instr} {x : RegIdx} {k n : Nat}

/-! ## The key skips (R251, R252) -/

theorem exec_skp_key (h : (s.reg x).toNat < s.params.sizes.nkeys) :
    exec (.skp x) s = .next (s.skipIf (s.keyDown (s.reg x).toNat = true)) := by
  simp [exec, execSkp, keyOperand_some h]

theorem exec_sknp_key (h : (s.reg x).toNat < s.params.sizes.nkeys) :
    exec (.sknp x) s = .next (s.skipIf (s.keyDown (s.reg x).toNat = false)) := by
  simp [exec, execSknp, keyOperand_some h]

theorem exec_sknp_no_key (h : s.params.sizes.nkeys ≤ (s.reg x).toNat) :
    exec (.sknp x) s = .next (s.faultEntry .keyIndexOutOfRange (some (s.reg x).toNat)) := by
  simp [exec, execSknp, keyOperand_none h, raiseFault]

/-! ## The wait for a key (R254) -/

/-- A pressed key is one of the keys that the machine has. -/
theorem keyDown_lt_nkeys (hs : s.Fits) (h : s.keyDown k = true) : k < s.params.sizes.nkeys := by
  by_contra absent
  have past : s.key.length ≤ k := hs.keys.trans_le (Nat.le_of_not_lt absent)
  simp [State.keyDown, past] at h

theorem exec_ldVxK_key (h : s.highestKey = some k) :
    exec (.ldVxK x) s = .next (s.setReg x (BitVec.ofNat 8 k)) := by
  simp only [exec, execLdVxK, h]

theorem exec_ldVxK_reference (h : s.highestKey = none) (hw : s.params.keyWait = .reference) :
    exec (.ldVxK x) s = .next s := by
  simp only [exec, execLdVxK, h, hw]

theorem exec_ldVxK_blocking (h : s.highestKey = none) (hw : s.params.keyWait = .blocking) :
    exec (.ldVxK x) s = .next (s.setPc (s.pc + 2 ^ s.params.sizes.pcWidth - 2)) := by
  simp only [exec, execLdVxK, h, hw]

/-- Going back by 2 in 16 bits, as an integer (R8). -/
theorem setPc_back_nea (hz : s.params.sizes = Config.nea) :
    ((s.setPc (s.pc + 2 ^ s.params.sizes.pcWidth - 2)).pc : Int) = ((s.pc : Int) - 2) % 65536 := by
  rw [setPc_pc, hz, nea_pcWidth]
  omega

/-! ## A cycle that ticks, and one that does not (R126, R128) -/

theorem step_completes (hr : s.ready) (hd : decode s.word = i) (he : exec i s.advance = .next t)
    (running : t.status = .running) (hk : noKeyReturn i s.advance = false) :
    step s = .next t.tick := by
  subst hd
  rw [step_of_exec hr he, if_pos ⟨running, hk⟩]

theorem step_without_tick (hr : s.ready) (hd : decode s.word = i) (he : exec i s.advance = .next t)
    (hk : noKeyReturn i s.advance = true) : step s = .next t := by
  subst hd
  rw [step_of_exec hr he, if_neg (by simp [hk])]

/-- A fetch of this hardware ends below 0x1000, so the advance does not wrap (R28, R123). -/
theorem advance_pc_nea (hz : s.params.sizes = Config.nea) (hr : s.ready) :
    s.advance.pc = s.pc + 2 := by
  have inside : s.pc + 1 < 4096 := by simpa [hz] using hr.2
  exact setPc_pc_nea hz (by omega)

/-! ## Values of 8 bits (spec/10_state.md R21, R36, R37) -/

theorem reg_setReg_ofNat (hl : s.v.length = 16) (h : n < 256) :
    ((s.setReg x (BitVec.ofNat 8 n)).reg x).toNat = n := by
  rw [reg_setReg_self hl, BitVec.toNat_ofNat]
  exact Nat.mod_eq_of_lt h

theorem setDt_dt_byte (hz : s.params.sizes = Config.nea) (b : Byte) :
    (s.setDt b.toNat).dt = b.toNat := by
  rw [setDt_dt, hz, nea_timerWidth]
  exact Nat.mod_eq_of_lt b.isLt

theorem setSt_st_byte (hz : s.params.sizes = Config.nea) (b : Byte) :
    (s.setSt b.toNat).st = b.toNat := by
  rw [setSt_st, hz, nea_timerWidth]
  exact Nat.mod_eq_of_lt b.isLt

end

/-- Settles O55: there are sixteen keys, so a number up to 15 has a key and the class is a skip on its
state, and a number above 15 has none. -/
theorem keySkipsReadTheNumberedKey : Obligations.KeySkipsReadTheNumberedKey := by
  refine ⟨fun w => ⟨fun h => decode_of_groupEMask h rfl, fun h => decode_of_groupEMask h rfl⟩,
    ?key, fun s x hs above => ?noKey⟩
  case key =>
    rintro s x _ hs rfl low
    have present : (s.reg x).toNat < s.params.sizes.nkeys := by
      rw [hs.sizes, nea_nkeys]
      omega
    exact ⟨⟨_, exec_skp_key present, skipIf_nea hs _⟩, ⟨_, exec_sknp_key present, skipIf_nea hs _⟩⟩
  case noKey =>
    have absent : s.params.sizes.nkeys ≤ (s.reg x).toNat := by
      rw [hs.sizes, nea_nkeys]
      omega
    exact ⟨⟨_, exec_skp_no_key absent, rfl, frame_faultEntry ..⟩,
      ⟨_, exec_sknp_no_key absent, rfl, frame_faultEntry ..⟩⟩

/-- Settles O56: the scan answers the highest pressed key, whose number fits a byte; with no key pressed
the execute step writes `PC` at most, and the cycle takes back the advance under `Blocking`. -/
theorem waitForKeyTakesTheHighestKey : Obligations.WaitForKeyTakesTheHighestKey := by
  refine ⟨fun w h => decode_of_groupFMask h rfl, fun s x k hs down above => ?highest,
    fun s x k hs hr hd down => ?ticks, fun s x hs none_down => ?waits,
    fun s x hs hr hd none_down => ?noTick⟩
  case highest =>
    have present := keyDown_lt_nkeys hs.fits down
    have scan : s.highestKey = some k := highestKey_some present down fun j hj _ => above j hj
    have byte : k < 256 := present.trans (by rw [hs.sizes]; decide)
    exact ⟨_, exec_ldVxK_key scan, reg_setReg_ofNat hs.regCount byte, frame_setReg ..⟩
  case ticks =>
    have pressed : ¬ ∀ j < s.params.sizes.nkeys, s.keyDown j = false := fun h =>
      absurd (h k (keyDown_lt_nkeys hs.fits down)) (by simp [down])
    have scan : s.highestKey.isNone = false := Bool.eq_false_iff.2 (mt highestKey_isNone.1 pressed)
    obtain ⟨j, hj⟩ := Option.isSome_iff_exists.1 (Option.isNone_eq_false_iff.1 scan)
    exact ⟨_, step_completes hr hd (exec_ldVxK_key (s := s.advance) hj) hr.1 scan,
      tickTimer_eq _, tickTimer_eq _⟩
  case waits =>
    have scan : s.highestKey = none := highestKey_none fun k _ => none_down k
    cases hw : s.params.keyWait with
    | reference => exact ⟨s, exec_ldVxK_reference scan hw, rfl, frame_refl ..⟩
    | blocking => exact ⟨_, exec_ldVxK_blocking scan hw, setPc_back_nea hs.sizes, frame_setPc ..⟩
  case noTick =>
    have scan : s.advance.highestKey = none := highestKey_none fun k _ => none_down k
    have noKey : noKeyReturn (.ldVxK x) s.advance = true := Option.isNone_iff_eq_none.2 scan
    have advanced : s.advance.pc = s.pc + 2 := advance_pc_nea hs.sizes hr
    cases hw : s.params.keyWait with
    | reference =>
      exact ⟨_, step_without_tick hr hd (exec_ldVxK_reference scan hw) noKey, advanced,
        frame_setPc s _⟩
    | blocking =>
      obtain ⟨-, -, pc_width, -⟩ := hs.numbers
      have back : ((s.advance.pc : Int) - 2) % 65536 = s.pc := by
        rw [advanced]
        omega
      exact ⟨_, step_without_tick hr hd (exec_ldVxK_blocking scan hw) noKey,
        Int.ofNat_inj.1 ((setPc_back_nea (s := s.advance) hs.sizes).trans back), frame_setPc s _⟩

/-- Settles O57: each of the three writes one field, of 8 bits, and the tick comes after that write. -/
theorem timerTransfersAndTheirTick : Obligations.TimerTransfersAndTheirTick := by
  refine ⟨fun w => ⟨fun h => decode_of_groupFMask h rfl, fun h => decode_of_groupFMask h rfl,
    fun h => decode_of_groupFMask h rfl⟩, fun s x hs => ?execute, fun s x hs hr => ?cycle⟩
  all_goals obtain ⟨-, -, -, -, dt_width, -⟩ := hs.numbers
  case execute =>
    exact ⟨⟨_, rfl, reg_setReg_ofNat hs.regCount dt_width, frame_setReg ..⟩,
      ⟨_, rfl, setDt_dt_byte hs.sizes _, frame_setDt ..⟩,
      ⟨_, rfl, setSt_st_byte hs.sizes _, frame_setSt ..⟩⟩
  case cycle =>
    refine ⟨fun hd => ⟨_, step_completes hr hd rfl hr.1 rfl, ?vx, tickTimer_eq _⟩,
      fun hd => ⟨_, step_completes hr hd rfl hr.1 rfl, ?dt⟩,
      fun hd => ⟨_, step_completes hr hd rfl hr.1 rfl, ?st⟩⟩
    case vx => exact reg_setReg_ofNat (s := s.advance) hs.regCount dt_width
    case dt =>
      exact (tickTimer_eq _).trans
        (congrArg (· - 1) (setDt_dt_byte (s := s.advance) hs.sizes (s.reg x)))
    case st =>
      exact (tickTimer_eq _).trans
        (congrArg (· - 1) (setSt_st_byte (s := s.advance) hs.sizes (s.reg x)))

end Sys2Proof.Machine
end

section
/-! PROOFS. Faults (spec/60_exceptions.md): a cycle that halts a running core took a fault entry at the
fetch or at the advanced `PC`, and wrote nothing else (R272, R279); a halted core stays so until `reset`
(R281). -/

namespace Sys2Proof.Machine

section
variable {s t : State} {i : Instr} {k : FaultKind} {info : Option Nat}

/-! ## A cycle that halts a running core (R272, R279) -/

/-- An execute step that completes does not write `status`, so one that halts the core is a fault entry
of a kind that an execute step can raise. -/
theorem ExecCase.faultEntry_of_halted (h : ExecCase s i t) (running : s.status = .running)
    (halted : t.status = .halted k info) : RaisableIn s k ∧ t = s.faultEntry k info := by
  obtain ⟨k', info', raisable, rfl⟩ | completes := h.faults_or_completes
  · cases halted
    exact ⟨raisable, rfl⟩
  · have kept : t.status = s.status := completes.frame.status (writesOf_status s i)
    rw [kept, running] at halted
    cases halted

/-- A cycle that halts a running core is a fault entry: at `PC` where the fetch failed, and at the
advanced `PC` where the instruction raised the fault. -/
theorem step_halts_cases (h : step s = .next t) (halted : t.status = .halted k info) :
    RaisableIn s k ∧
      (s.params.sizes.memSize ≤ s.pc + 1 ∧ t = s.faultEntry k info ∨
        s.ready ∧ t = s.advance.faultEntry k info) := by
  obtain ⟨-, outside, rfl⟩ | ⟨ready, u, executes, rfl⟩ := step_cases h
  · cases halted
    exact ⟨⟨by decide, nofun⟩, .inl ⟨outside, rfl⟩⟩
  · have u_halted : u.status = .halted k info := by
      rw [← halted]
      split <;> rfl
    obtain ⟨raisable, entry⟩ := (exec_cases executes).faultEntry_of_halted ready.1 u_halted
    have no_tick : ¬ (u.status = .running ∧ noKeyReturn (decode s.word) s.advance = false) := by
      simp [u_halted]
    rw [if_neg no_tick]
    exact ⟨raisable, .inr ⟨ready, entry⟩⟩

/-- The cycle port answers the fault that the cycle left in `status` (R131). -/
theorem serve_cycle_halts (h : step s = .next t) (halted : t.status = .halted k info) :
    s.serve .cycle = (t, .fault k info) := by
  simp only [State.serve, h, cycleResponse, halted]

/-! ## A halted core (R281) -/

/-- No request but `reset` writes the `status` of a halted core. -/
theorem serve_status_of_halted (halted : s.status = .halted k info) (r : Request)
    (no_reset : ∀ seed, r ≠ .reset seed) : (s.serve r).1.status = .halted k info := by
  cases r with
  | cycle =>
    obtain ⟨-, served⟩ := haltedCoreReturnsTheRecordedFault s k info halted
    rwa [served]
  | reset seed => exact absurd rfl (no_reset seed)
  | load bytes =>
    obtain ⟨-, stored⟩ | refused := serve_load_cases s bytes
    · rwa [stored, setMemBytes_eq]
    · rwa [refused]
  | keyWrite => exact halted
  | drawFlagClear => exact halted

end

/-- Settles O20: a halted core answers a cycle with itself, the other requests but reset write other
fields, and reset gives the state after reset. -/
theorem onlyResetLeavesTheHaltedState : Obligations.OnlyResetLeavesTheHaltedState := by
  intro s k info halted
  obtain ⟨-, served⟩ := haltedCoreReturnsTheRecordedFault s k info halted
  exact ⟨serve_status_of_halted halted, congrArg Prod.fst served, fun _ => rfl⟩

/-- Settles O21: neither a failed fetch nor an execute step can raise the kind. -/
theorem noCycleRaisesUnknownInstruction : Obligations.NoCycleRaisesUnknownInstruction := by
  intro s t info _ h halted
  obtain ⟨⟨⟨not_unknown, -⟩, -⟩, -⟩ := step_halts_cases h halted
  exact not_unknown rfl

/-- Settles O22: the state after the cycle is a fault entry, at `PC` where the fetch failed, which is
above 0xFFE, and otherwise at the advanced `PC`, which does not wrap. -/
theorem faultingCycleChangesOnlyPcAndStatus : Obligations.FaultingCycleChangesOnlyPcAndStatus := by
  intro s t k info hs _ h halted
  refine ⟨?_, serve_cycle_halts h halted⟩
  have memory_size : s.params.sizes.memSize = 0x1000 := by rw [hs.sizes, nea_memSize]
  obtain ⟨-, ⟨outside, rfl⟩ | ⟨ready, rfl⟩⟩ := step_halts_cases h halted
  · rw [if_pos (by omega)]
    rfl
  · have inside := ready.2
    rw [if_neg (by omega), ← advance_pc_nea hs.sizes ready]
    rfl

end Sys2Proof.Machine
end

section
/-! PROOFS. The host's two ports that rewrite the machine between cycles
(spec/70_reset_and_hazards.md): reset, which reads nothing of the state but its parameters (R301), and
load, which copies a whole image or nothing (R303, R304). -/

namespace Sys2Proof.Machine

section
variable {s t : State} {bytes : List Byte}

/-! ## Reset (R301) -/

@[simp] theorem hostReset_params (s : State) (seed : Nat) : (s.hostReset seed).params = s.params := rfl

theorem hostReset_congr (h : s.params = t.params) (seed : Nat) :
    s.hostReset seed = t.hostReset seed :=
  congrArg (State.resetWith · seed) h

/-! ## What the load port answers (R303, R304) -/

theorem serve_load_error (h : s.params.sizes.programMax < bytes.length) :
    s.serve (.load bytes) = (s, .fault .programTooLarge (some bytes.length)) := by
  simp only [State.serve, load_error h]

theorem serve_load_ok (h : bytes.length ≤ s.params.sizes.programMax) :
    s.serve (.load bytes) = (s.setMemBytes s.params.sizes.programBase bytes, .ok) := by
  simp only [State.serve, load_ok h]

end

/-- Settles O17: the port compares the length with the 3584 bytes of the program area, and a copy stores
at 0x200 and up, outside whose span memory reads as before. -/
theorem loadCopiesTheImageOrRefusesIt : Obligations.LoadCopiesTheImageOrRefusesIt := by
  intro s bytes hs
  have base : s.params.sizes.programBase = 0x200 := by rw [hs.sizes, nea_programBase]
  have limit : s.params.sizes.programMax = 3584 := by rw [hs.sizes, nea_programMax]
  refine ⟨fun long => ?refused, fun fits hm => ?copied⟩
  case refused =>
    rw [← limit] at long
    exact ⟨load_error long, serve_load_error long⟩
  case copied =>
    obtain ⟨rising, -⟩ := (memory_wf_iff _ _).1 hm
    rw [← limit] at fits
    rw [← base]
    exact ⟨_, load_ok fits, serve_load_ok fits, setMemBytes_eq .., memByte_loaded rising bytes,
      fun _ outside => memByte_setMemBytes_outside s (mt mem_span.1 outside)⟩

/-- Settles O16: reset reads the parameters alone, which it keeps. -/
theorem resetIsIdempotentAndRestarts : Obligations.ResetIsIdempotentAndRestarts :=
  fun s _ seed => ⟨hostReset_congr (hostReset_params s seed) seed, fun h => hostReset_congr h seed,
    rfl, rfl⟩

end Sys2Proof.Machine
end
